-- ==== Sys2Proof/Word.lean ====
section
/-! DEFINITION. The two word types of the machine: the 32-bit register word (R6 `WORD`) and the byte of BUF (R50). -/

namespace Sys2Proof

/-- `u32`: every register and every intermediate value of the translator (R6, R8). -/
abbrev Word := BitVec 32

/-- The unit of BUF (R50). -/
abbrev Byte := BitVec 8

end Sys2Proof
end

