-- ==== Sys2Proof/Syntax.lean ====
section
/-! DEFINITION. The instructions of XTAT: one constructor per row of spec/opcode_table.json. -/

namespace Sys2Proof

/-- The sixteen word slots of the register window, in the order of their offsets 0x00, 0x04, ..., 0x3C (R20, R21).
`rsvd38` and `rsvd3C` are the reserved slots (R31). -/
inductive Slot where
  | cmd | status | x | y | pitch | height | srcBase | srcLen
  | dstBase | dstLen | result | resultIndex | skipCount | irqEn | rsvd38 | rsvd3C
  deriving DecidableEq, Repr

/-- One constructor per row of the opcode table.

The five commands carry the fields `L` (bits 7:4) and `RSVD` (bits 31:8) of their command word as they stand
(R81): a word whose fields are illegal is accepted and executed, and its execution is the error BAD_FIELD (R83, R84,
R85). `reservedOp` carries its `OP` as well. The two bus transactions carry the slot they address, and WRREG its
DATA (R86). -/
inductive Instr where
  | nop (l : BitVec 4) (rsvd : BitVec 24)
  | xlate (l : BitVec 4) (rsvd : BitVec 24)
  | detile (l : BitVec 4) (rsvd : BitVec 24)
  | copy (l : BitVec 4) (rsvd : BitVec 24)
  | swap (l : BitVec 4) (rsvd : BitVec 24)
  | reservedOp (op : BitVec 4) (l : BitVec 4) (rsvd : BitVec 24)
  | rdreg (r : Slot)
  | wrreg (r : Slot) (data : Word)
  deriving DecidableEq, Repr

/-- The two encoded objects of R80: a command word (R81), and a bus transaction (R86) given by its 7-bit header
`{W, OFFSET[5:0]}`, the width in bits of the access the host makes (R56) and its DATA. -/
inductive Encoded where
  | command (w : Word)
  | bus (header : BitVec 7) (width : Nat) (data : Word)
  deriving DecidableEq, Repr

/-- The rows that are commands, run by the engine (R82); the two others are bus transactions (R80). -/
def Instr.isCommand : Instr → Bool
  | .nop _ _ => true
  | .xlate _ _ => true
  | .detile _ _ => true
  | .copy _ _ => true
  | .swap _ _ => true
  | .reservedOp _ _ _ => true
  | .rdreg _ => false
  | .wrreg _ _ => false

end Sys2Proof
end

