-- ==== Sys2Proof/WellFormed.lean ====
section
/-! DEFINITION. Which terms of `Instr` stand for an encoded object. -/

namespace Sys2Proof

/-- A term is well formed when some encoded object decodes to it. The one check: the OP of `reservedOp` is one of
the reserved values 0x5 .. 0xF (R82). Every other term is the reading of some word: a command word with an illegal L
or RSVD is executed too (R85), and every slot and datum is one a bus transaction can carry (R86). -/
def Instr.wellFormed : Instr → Bool
  | .nop _ _ => true
  | .xlate _ _ => true
  | .detile _ _ => true
  | .copy _ _ => true
  | .swap _ _ => true
  | .reservedOp op _ _ => decide (5 ≤ op.toNat)
  | .rdreg _ => true
  | .wrreg _ _ => true

end Sys2Proof
end

