-- ==== Sys2Proof/Decode.lean ====
section
/-! DEFINITION. Decoding the two encoded objects of R80, total on every one of them and refusing by name, and the
encoder written from the same tables (R81, R82, R86). -/

namespace Sys2Proof

/-! ### Fields -/

/-- `OP`, bits 3:0 of a command word (R81). -/
def opField (w : Word) : BitVec 4 := w.extractLsb' 0 4

/-- `L`, bits 7:4 of a command word (R81). -/
def classField (w : Word) : BitVec 4 := w.extractLsb' 4 4

/-- `RSVD`, bits 31:8 of a command word (R81). -/
def rsvdField (w : Word) : BitVec 24 := w.extractLsb' 8 24

/-- A command word from its fields, most significant first: `RSVD L OP` (R81). -/
def commandWord (rsvd : BitVec 24) (l op : BitVec 4) : Word := rsvd ++ l ++ op

/-- The slot with number `OFFSET[5:2]` (R20, R21, R86). -/
def Slot.ofNumber (n : BitVec 4) : Slot :=
  match n.toNat with
  | 0 => .cmd
  | 1 => .status
  | 2 => .x
  | 3 => .y
  | 4 => .pitch
  | 5 => .height
  | 6 => .srcBase
  | 7 => .srcLen
  | 8 => .dstBase
  | 9 => .dstLen
  | 10 => .result
  | 11 => .resultIndex
  | 12 => .skipCount
  | 13 => .irqEn
  | 14 => .rsvd38
  | _ => .rsvd3C

/-- A slot's number; its byte offset is four times that (R20, R21). -/
def Slot.number : Slot → BitVec 4
  | .cmd => 0#4
  | .status => 1#4
  | .x => 2#4
  | .y => 3#4
  | .pitch => 4#4
  | .height => 5#4
  | .srcBase => 6#4
  | .srcLen => 7#4
  | .dstBase => 8#4
  | .dstLen => 9#4
  | .result => 10#4
  | .resultIndex => 11#4
  | .skipCount => 12#4
  | .irqEn => 13#4
  | .rsvd38 => 14#4
  | .rsvd3C => 15#4

/-- A slot's 6-bit byte offset in the register window (R20). -/
def Slot.offset (r : Slot) : BitVec 6 := r.number ++ 0#2

/-! ### Decoding -/

/-- Why an object is no defined transaction. -/
inductive Reject where
  /-- `OFFSET[1:0]` is not 00 (R86, R56). -/
  | misalignedOffset (offset : BitVec 6)
  /-- the access is not 32 bits wide (R56). -/
  | accessWidth (width : Nat)
  deriving DecidableEq, Repr

/-- The instruction a command word stands for: total on all 2^32 words (R82, R85). -/
def decodeCommand (w : Word) : Instr :=
  match (opField w).toNat with
  | 0 => .nop (classField w) (rsvdField w)
  | 1 => .xlate (classField w) (rsvdField w)
  | 2 => .detile (classField w) (rsvdField w)
  | 3 => .copy (classField w) (rsvdField w)
  | 4 => .swap (classField w) (rsvdField w)
  | _ => .reservedOp (opField w) (classField w) (rsvdField w)

/-- The instruction a bus transaction stands for (R86, R56): the header is `{W, OFFSET[5:2], OFFSET[1:0]}`. -/
def decodeBus (header : BitVec 7) (width : Nat) (data : Word) : Except Reject Instr :=
  if width = 32 then
    if header.extractLsb' 0 2 = 0#2 then
      let r := Slot.ofNumber (header.extractLsb' 2 4)
      if header.getLsbD 6 then .ok (.wrreg r data) else .ok (.rdreg r)
    else .error (.misalignedOffset (header.extractLsb' 0 6))
  else .error (.accessWidth width)

/-- Decoding, total on every encoded object (R80). -/
def decode : Encoded → Except Reject Instr
  | .command w => .ok (decodeCommand w)
  | .bus header width data => decodeBus header width data

/-! ### Encoding -/

/-- The header `{W, OFFSET[5:0]}` of a bus transaction on slot `r` (R86). -/
def busHeader (write : Bool) (r : Slot) : BitVec 7 := BitVec.ofBool write ++ r.offset

/-- The encoded object of a well-formed instruction (R81, R82, R86). The DATA of an RDREG is what the read returns
and no part of the instruction; the encoder puts zero there (assumption log 13). -/
def encode : Instr → Encoded
  | .nop l rsvd => .command (commandWord rsvd l 0#4)
  | .xlate l rsvd => .command (commandWord rsvd l 1#4)
  | .detile l rsvd => .command (commandWord rsvd l 2#4)
  | .copy l rsvd => .command (commandWord rsvd l 3#4)
  | .swap l rsvd => .command (commandWord rsvd l 4#4)
  | .reservedOp op l rsvd => .command (commandWord rsvd l op)
  | .rdreg r => .bus (busHeader false r) 32 0#32
  | .wrreg r data => .bus (busHeader true r) 32 data

/-! ### The opcode table's numbering -/

/-- The encoded object an opcode-table row's bits stand for (assumption log 13). A row of format CMD32 has 32 bits
and is a command word. A row of format BUS7 has a header of 7 bits, one byte, and its DATA beat is zero; with the DATA
beat written out, in the four bytes after the header's, it has 40 bits. -/
def tableObject (nbits w : Nat) : Option Encoded :=
  if nbits = 32 then some (.command (BitVec.ofNat 32 w))
  else if nbits ≤ 8 then
    if w < 128 then some (.bus (BitVec.ofNat 7 w) 32 0#32) else none
  else if nbits = 40 then
    if w % 256 < 128 then some (.bus (BitVec.ofNat 7 w) 32 (BitVec.ofNat 32 (w / 256))) else none
  else none

/-- The instruction the decoder reads from the bits of an opcode-table row. -/
def decodeTableWord (nbits w : Nat) : Option Instr :=
  match tableObject nbits w with
  | some e =>
    match decode e with
    | .ok i => some i
    | .error _ => none
  | none => none

end Sys2Proof
end

