-- ==== Sys2Proof/Config.lean ====
section
/-! DEFINITION. What the platform fixes (R6) and the free values. A constant declared `opaque` has no body:
no proof can see its value, so a claim about it holds for every value. -/

namespace Sys2Proof.Config

/-- The last address of BUF, `MEM_SIZE - 1`. `MEM_SIZE` is OPEN with `1 <= MEM_SIZE <= 2^32` (R6, D4), and
every such size is one value of this word plus one. -/
opaque lastBufAddress : Word

/-- `MEM_SIZE` (R6): the size in bytes of BUF on the platform. `State.reset` takes it; the machine itself reads
`State.memSize` (assumption log 4). -/
def memSize : Nat := lastBufAddress.toNat + 1

/-- `REG_BASE` (R6, R60), OPEN: where the register window stands in the host's address space. DESIGN CHOICE (assumption
log 23): the spec gives that space no width, so its addresses are natural numbers. -/
opaque regBase : Nat

/-- One value of a translator: `T(x, y, p, l) = offset`. -/
structure TranslatorRow where
  x : Word
  y : Word
  p : Word
  l : Nat
  offset : Word
  deriving DecidableEq, Repr

/-- `TILED_OFFSET` (R6, R100, I1) as plain data: the values at which the platform's translator departs from the formula of
R102. Its domain is finite, so every translator is such a list (assumption log 27). -/
abbrev Translator := List TranslatorRow

/-- The default of `TILED_OFFSET` (R100, R102): the formula of R102 everywhere. -/
def defaultTranslator : Translator := []

/-- `IRQ_LINE` (R6, R256), OPEN: where the completion interrupt goes. -/
opaque irqLine : Nat

/-- The free values: the k-th byte whose value the spec leaves unspecified (R301, R305, I4, I5). -/
opaque freeByte : Nat → Byte

/-- What a byte of BUF that nothing has written reads as. DESIGN CHOICE (assumption log 5): R302 leaves BUF's
power-on contents to the platform. -/
def unlistedByte : Byte := 0#8

/-- `DETILE_THRESHOLD` (R6, R212): the reference host's pixel threshold, default 64. -/
def detileThreshold : Nat := 64

/-- `TAIL_FILL` (R6, R221), OPEN: the two values the reference host's parameter can take. -/
inductive TailFill where
  | zero
  | copyInput
  deriving DecidableEq, Repr

end Sys2Proof.Config
end

