-- ==== Sys2Proof/Machine/State.lean ====
section
/-! DEFINITION. The state of the machine as plain data, the reasons a step can stop, and the state after reset. -/

namespace Sys2Proof.Machine

/-- Why a step stops with a fault. -/
inductive Fault where
  /-- An access to bytes of BUF at or past `MEM_SIZE`, which do not exist (R51). Raised by the shared BUF access
  operations. The engine never raises it, because its region checks come first (R51, R253); the host's own memory path
  does when it is given such an address. Safe: the machine stops. -/
  | outsideBuf (addr len : Nat)
  /-- The engine's turn in a state with BUSY = 1 and no PENDING word, which R35 rules out. Raised by the engine's turn
  only, in no state that a run reaches. Safe: the machine stops. -/
  | pendingUndefined
  deriving DecidableEq, Repr

/-- Why a step has no meaning. -/
inductive Refusal where
  /-- An instruction that has no meaning yet, by its mnemonic. Raised by `exec`'s arms only; no arm raises it now.
  Safe. -/
  | notModelled (mnemonic : String)
  /-- A bus transaction with `OFFSET[1:0]` not 00 (R56, R86). Raised when the transaction is decoded. Safe. -/
  | misalignedOffset (offset : BitVec 6)
  /-- A bus transaction that is not 32 bits wide (R56). Raised when the transaction is decoded. Safe. -/
  | accessWidth (width : Nat)
  /-- An RDREG or WRREG while the reset input is asserted (R300). Raised by the meanings of RDREG and WRREG. Safe. -/
  | busDuringReset
  deriving DecidableEq, Repr

/-- The error codes that a command can end with (R251); no error is the absence of one. -/
inductive ErrCode where
  | illegalOp
  | badField
  | bus
  | overlap
  deriving DecidableEq, Repr

/-- STATUS (R23). Bits 31:8 are reserved and read as 0, so they have no storage. -/
structure Status where
  busy : Bool
  done : Bool
  err : Bool
  drop : Bool
  errcode : BitVec 4
  deriving DecidableEq, Repr

/-- BUF as (address, byte) pairs: addresses strictly rising, and no byte equal to `Config.unlistedByte`, which is what
an address that is not listed reads as. -/
abbrev Memory := List Host.Cell

/-- What happens next outside the engine: one entry of the environment's order of events (assumption log 3). -/
inductive Input where
  /-- The engine gets the turn (R174). -/
  | engine
  /-- The host makes a bus transaction (R86): header `{W, OFFSET}`, access width in bits, DATA. -/
  | bus (header : BitVec 7) (width : Nat) (data : Word)
  /-- The host writes bytes to BUF through its own memory path (R50, R175 `MEM`). -/
  | bufWrite (addr : Nat) (bytes : List Byte)
  /-- The host reads bytes of BUF through its own memory path (R50, R305 H2). -/
  | bufRead (addr len : Nat)
  /-- The reset input is asserted (R300). -/
  | resetAssert
  /-- The reset input is released (R300). -/
  | resetRelease
  deriving DecidableEq, Repr

/-- The whole state: the register window (R21), the hidden PENDING word (R35), the reset input (R300), BUF (R50), and
the model's own fields. -/
structure State where
  /-- CMD (R22). -/
  cmd : Word
  /-- STATUS (R23). -/
  status : Status
  /-- X (R25). -/
  x : Word
  /-- Y (R25). -/
  y : Word
  /-- PITCH (R26). -/
  pitch : Word
  /-- HEIGHT (R26). -/
  height : Word
  /-- SRC_BASE (R27). -/
  srcBase : Word
  /-- SRC_LEN (R27). -/
  srcLen : Word
  /-- DST_BASE (R27). -/
  dstBase : Word
  /-- DST_LEN (R27). -/
  dstLen : Word
  /-- RESULT (R28). -/
  result : Word
  /-- RESULT_INDEX (R28). -/
  resultIndex : Word
  /-- SKIPCOUNT (R29). -/
  skipCount : Word
  /-- IRQ_EN[0] (R30). -/
  irqEn : Bool
  /-- PENDING (R35): the accepted command word that has not completed. -/
  pending : Option Word
  /-- The level of the reset input (R300). -/
  resetAsserted : Bool
  /-- `MEM_SIZE` (R6, R50): a parameter of the platform, which no step changes (assumption log 4). -/
  memSize : Nat
  /-- `TILED_OFFSET` (R6, R100): a parameter of the platform, which no step changes (assumption log 27). -/
  translator : Config.Translator
  /-- BUF (R36, R50). -/
  mem : Memory
  /-- The events to come, first one first (assumption log 3). -/
  inputs : List Input
  /-- The DATA beat of the last RDREG (R86; assumption log 6). -/
  readData : Word
  /-- The bytes of the host's last read of BUF (assumption log 6). -/
  hostBytes : List Byte
  /-- The addresses of the in-flight command's regions that the host has written since its acceptance (R305 H2;
  assumption log 9). -/
  raced : List Nat
  /-- How many free bytes have been drawn (assumption log 11). -/
  draws : Nat
  deriving DecidableEq, Repr

/-- STATUS after reset: every field 0 (R23, R300). -/
def Status.reset : Status := { busy := false, done := false, err := false, drop := false, errcode := 0#4 }

/-- The machine right after reset (R21, R300, R303): every register 0, PENDING discarded, the reset input released.
BUF holds the platform's initial memory (R302; assumption log 5) and has the platform's size (R6; assumption log 4); the
translator is the default (R100; assumption log 27).
No event is waiting (assumption log 3). -/
def State.reset : State :=
  { cmd := 0#32, status := Status.reset, x := 0#32, y := 0#32, pitch := 0#32, height := 0#32
    srcBase := 0#32, srcLen := 0#32, dstBase := 0#32, dstLen := 0#32
    result := 0#32, resultIndex := 0#32, skipCount := 0#32, irqEn := false
    pending := none, resetAsserted := false
    memSize := Config.memSize, translator := Config.defaultTranslator, mem := [], inputs := [], readData := 0#32, hostBytes := [], raced := [], draws := 0 }

end Sys2Proof.Machine
end

