-- ==== Sys2Proof/Machine/Flags.lean ====
section
/-! DEFINITION. Every computation of a STATUS field (R23) and the interrupt output (R32). STATUS holds the machine's only
flags (R34). -/

namespace Sys2Proof.Machine

/-- The number written to ERRCODE (R251). -/
def ErrCode.code : ErrCode → BitVec 4
  | .illegalOp => 1#4
  | .badField => 2#4
  | .bus => 3#4
  | .overlap => 4#4

/-- STATUS as the host reads it (R23): ERRCODE in bits 7:4, DROP, ERR, DONE, BUSY in bits 3 to 0, the rest 0. -/
def Status.word (st : Status) : Word :=
  0#24 ++ st.errcode ++ BitVec.ofBool st.drop ++ BitVec.ofBool st.err ++ BitVec.ofBool st.done ++ BitVec.ofBool st.busy

/-- STATUS after an acceptance: 0x00000001 (R173). -/
def Status.accepted : Status := { busy := true, done := false, err := false, drop := false, errcode := 0#4 }

/-- STATUS after a WRREG was dropped (R171). -/
def Status.dropped (st : Status) : Status := { st with drop := true }

/-- `complete DONE` (R254). -/
def Status.completedDone (st : Status) : Status := { st with busy := false, done := true }

/-- `complete ERR(e)` (R254). -/
def Status.completedErr (st : Status) (e : ErrCode) : Status :=
  { st with busy := false, err := true, errcode := e.code }

/-- The output `IRQ = IRQ_EN[0] & (STATUS.DONE | STATUS.ERR)` (R32, R256). -/
def State.irq (s : State) : Bool := s.irqEn && (s.status.done || s.status.err)

/-- The interrupt as the platform sees it: the line it comes in on (R6 `IRQ_LINE`) and its level. -/
def State.platformIrq (s : State) : Nat × Bool := (Config.irqLine, s.irq)

end Sys2Proof.Machine
end

