-- ==== Sys2Proof/Machine/Memory.lean ====
section
/-! DEFINITION. BUF: one byte, byte strings, the canonical form, and the two accesses `MemRead` and `MemWrite` of R9 and
R51. -/

namespace Sys2Proof.Machine

/-! ### The list of cells -/

/-- The byte at one address. -/
def Memory.byte : Memory → Nat → Byte
  | [], _ => Config.unlistedByte
  | (k, v) :: rest, a => if a = k then v else Memory.byte rest a

/-- The memory with no cell listed at `a`. -/
def Memory.erase (m : Memory) (a : Nat) : Memory := m.filter fun c => c.1 ≠ a

/-- A cell put in its place among rising addresses. -/
def Memory.insert : Memory → Nat → Byte → Memory
  | [], a, b => [(a, b)]
  | (k, v) :: rest, a, b => if a < k then (a, b) :: (k, v) :: rest else (k, v) :: Memory.insert rest a b

/-- One byte written. Writing what an unlisted address reads as removes the cell, so the form stays canonical. -/
def Memory.set (m : Memory) (a : Nat) (b : Byte) : Memory :=
  if b = Config.unlistedByte then m.erase a else (m.erase a).insert a b

/-- The addresses rise strictly, starting above `lo` where there is one. -/
def Memory.rising : Option Nat → Memory → Bool
  | _, [] => true
  | none, (k, _) :: rest => Memory.rising (some k) rest
  | some lo, (k, _) :: rest => decide (lo < k) && Memory.rising (some k) rest

/-- The canonical form: addresses strictly rising, and no cell that an unlisted address reads as anyway. -/
def Memory.wf (m : Memory) : Bool := Memory.rising none m && m.all fun c => c.2 ≠ Config.unlistedByte

/-- Every listed address exists: it lies below `MEM_SIZE` (R50). -/
def Memory.within (size : Nat) (m : Memory) : Bool := m.all fun c => decide (c.1 < size)

/-- The `n` bytes from `a` on, in increasing address order (R51). -/
def Memory.bytes (m : Memory) (a : Nat) : Nat → List Byte
  | 0 => []
  | n + 1 => m.byte a :: m.bytes (a + 1) n

/-- The bytes of a list written from `a` on: the byte at `a + i` becomes the i-th (R51). -/
def Memory.setBytes (m : Memory) (a : Nat) : List Byte → Memory
  | [] => m
  | b :: bs => (m.set a b).setBytes (a + 1) bs

/-! ### The accesses of R51 -/

/-- `MemRead(a, n)` (R9, R51), for `a + n <= MEM_SIZE`; past it there is no byte and the access faults. -/
def memRead (size : Nat) (m : Memory) (a n : Nat) : Except Fault (List Byte) :=
  if a + n ≤ size then .ok (m.bytes a n) else .error (.outsideBuf a n)

/-- `MemWrite(a, n, bs)` (R9, R51), with `n` the length of `bs`, for `a + n <= MEM_SIZE`; past it the access faults and
nothing is written. -/
def memWrite (size : Nat) (m : Memory) (a : Nat) (bs : List Byte) : Except Fault Memory :=
  if a + bs.length ≤ size then .ok (m.setBytes a bs) else .error (.outsideBuf a bs.length)

end Sys2Proof.Machine
end

