-- ==== Sys2Proof/Machine/Operands.lean ====
section
/-! DEFINITION. The operands of the commands: the register window's slots as numbers, the block-size class, and the
regions that a base and a length register name (R55). -/

namespace Sys2Proof.Machine

/-! ### Block-size class -/

/-- `bpp = 1 << L` (R83, R87). -/
def bytesPerBlock (l : BitVec 4) : Nat := 1 <<< l.toNat

/-- The legal values of L for XLATE and DETILE: 3 and 4 (R83). -/
def legalClass (l : BitVec 4) : Bool := l = 3#4 || l = 4#4

/-! ### Regions -/

/-- A region: the bytes `base <= a < base + len`, in nat (R55). -/
structure Region where
  base : Nat
  len : Nat
  deriving DecidableEq, Repr

/-- The source region (SRC_BASE, SRC_LEN) (R27). -/
def State.srcRegion (s : State) : Region := { base := s.srcBase.toNat, len := s.srcLen.toNat }

/-- The destination region (DST_BASE, DST_LEN) (R27). -/
def State.dstRegion (s : State) : Region := { base := s.dstBase.toNat, len := s.dstLen.toNat }

/-- The region holds the byte at `a` (R55). -/
def Region.contains (r : Region) (a : Nat) : Bool := decide (r.base ≤ a) && decide (a < r.base + r.len)

/-- The region is in bounds: `base + len <= MEM_SIZE` (R55). -/
def Region.inBounds (size : Nat) (r : Region) : Bool := decide (r.base + r.len ≤ size)

/-- Two regions overlap: both are non-empty, and each starts before the other ends (R57). -/
def Region.overlaps (src dst : Region) : Bool :=
  decide (src.len ≠ 0) && decide (dst.len ≠ 0) &&
    decide (src.base < dst.base + dst.len) && decide (dst.base < src.base + src.len)

/-- The part of a region that lies inside BUF (R50, R55). -/
def Region.clip (size : Nat) (r : Region) : Region := { r with len := min r.len (size - r.base) }

/-- The region's addresses in increasing order. -/
def Region.addresses (r : Region) : List Nat := (List.range r.len).map fun i => r.base + i

/-! ### The register window -/

/-- What an RDREG of a slot returns (R172): STATUS as a word (R23), IRQ_EN with bits 31:1 read as 0 (R30), the reserved
slots as 0 (R31). -/
def State.readSlot (s : State) : Slot → Word
  | .cmd => s.cmd
  | .status => s.status.word
  | .x => s.x
  | .y => s.y
  | .pitch => s.pitch
  | .height => s.height
  | .srcBase => s.srcBase
  | .srcLen => s.srcLen
  | .dstBase => s.dstBase
  | .dstLen => s.dstLen
  | .result => s.result
  | .resultIndex => s.resultIndex
  | .skipCount => s.skipCount
  | .irqEn => (BitVec.ofBool s.irqEn).setWidth 32
  | .rsvd38 => 0#32
  | .rsvd3C => 0#32

/-- The bus transaction that a host access at an absolute address is, where the address lies in the register window at
`REG_BASE` (R6, R20, R60, R86, R260). DESIGN CHOICE (assumption log 23): the spec gives the host's address space no width;
its addresses are natural numbers, and the window is the 64 addresses from `REG_BASE` on, which never wrap. -/
def busAt (write : Bool) (addr : Nat) (width : Nat) (data : Word) : Option Input :=
  if Config.regBase ≤ addr ∧ addr < Config.regBase + 64 then
    some (.bus (BitVec.ofBool write ++ BitVec.ofNat 6 (addr - Config.regBase)) width data)
  else none

end Sys2Proof.Machine
end

