-- ==== Sys2Proof/Machine/Ops.lean ====
section
/-! DEFINITION. The operations the meanings share: acceptance, completion, the checks of R253, ending a command with an
error, moving bytes in BUF, writing the register window, and reset. -/

namespace Sys2Proof.Machine

/-- The outcome of a step of this machine. -/
abbrev Result := Host.Outcome State Fault Refusal

/-- The state with other events to come. -/
def State.withInputs (s : State) (es : List Input) : State := { s with inputs := es }

/-! ### Acceptance and completion -/

/-- `accept(w)` (R173). It clears the error of the command before: it is this machine's return from an error (R255). -/
def State.accept (s : State) (w : Word) : State :=
  { s with cmd := w, pending := some w, status := Status.accepted }

/-- `complete DONE` (R254). PENDING is defined only while BUSY = 1 (R35). -/
def State.completeDone (s : State) : State :=
  { s with status := s.status.completedDone, pending := none }

/-- `complete ERR(e)` (R254): the one way a command's error is taken (R250). Nothing else changes (R252). -/
def State.completeErr (s : State) (e : ErrCode) : State :=
  { s with status := s.status.completedErr e, pending := none }

/-! ### The checks of R253 -/

/-- BAD_FIELD (R83, R84, R85): RSVD must be 0, and L must be 3 or 4 for the commands that use it (`classed`) and 0 for
the others. -/
def fieldCheck (classed : Bool) (l : BitVec 4) (rsvd : BitVec 24) : Option ErrCode :=
  if rsvd ≠ 0#24 then some .badField
  else if classed then if legalClass l then none else some .badField
  else if l = 0#4 then none else some .badField

/-- BUS for one region (R55, R253). -/
def busCheck (size : Nat) (r : Region) : Option ErrCode := if r.inBounds size then none else some .bus

/-- OVERLAP (R57, R253). -/
def overlapCheck (src dst : Region) : Option ErrCode := if src.overlaps dst then some .overlap else none

/-- The code of the first check that fails (R253). -/
def firstError : List (Option ErrCode) → Option ErrCode
  | [] => none
  | some e :: _ => some e
  | none :: rest => firstError rest

/-- The error of `decode(w)` for the decoded command (R85): ILLEGAL_OP for a reserved OP, whatever its fields, and
BAD_FIELD for a defined one with illegal fields. A bus transaction has none. -/
def decodeError : Instr → Option ErrCode
  | .nop l rsvd => fieldCheck false l rsvd
  | .xlate l rsvd => fieldCheck true l rsvd
  | .detile l rsvd => fieldCheck true l rsvd
  | .copy l rsvd => fieldCheck false l rsvd
  | .swap l rsvd => fieldCheck false l rsvd
  | .reservedOp _ _ _ => some .illegalOp
  | .rdreg _ => none
  | .wrreg _ _ => none

/-- `check(w)` for the decoded command (R253): decode errors, then the source region, the destination region and the
overlap. A bus transaction makes no check. -/
def commandCheck (i : Instr) (s : State) : Option ErrCode :=
  match i with
  | .nop l rsvd => decodeError (.nop l rsvd)
  | .xlate l rsvd => decodeError (.xlate l rsvd)
  | .detile l rsvd =>
    firstError [decodeError (.detile l rsvd), busCheck s.memSize s.srcRegion, busCheck s.memSize s.dstRegion,
      overlapCheck s.srcRegion s.dstRegion]
  | .copy l rsvd =>
    firstError [decodeError (.copy l rsvd), busCheck s.memSize s.srcRegion, busCheck s.memSize s.dstRegion,
      overlapCheck s.srcRegion s.dstRegion]
  | .swap l rsvd => firstError [decodeError (.swap l rsvd), busCheck s.memSize s.dstRegion]
  | .reservedOp op l rsvd => decodeError (.reservedOp op l rsvd)
  | .rdreg _ => none
  | .wrreg _ _ => none

/-- A command's last two parts (R174): its own effect when every check passed, and completion with the error otherwise. -/
def State.runChecked (s : State) (check : Option ErrCode) (effect : Result) : Result :=
  match check with
  | none => effect
  | some e => .next (s.completeErr e)

/-! ### Moving bytes in BUF -/

/-- One transfer of `len` bytes: `MemWrite(dst, len, MemRead(src, len))`. -/
structure Transfer where
  src : Nat
  dst : Nat
  len : Nat
  deriving DecidableEq, Repr

/-- One transfer, done (R51). -/
def moveBytes (size : Nat) (m : Memory) (t : Transfer) : Except Fault Memory :=
  match memRead size m t.src t.len with
  | .ok bs => memWrite size m t.dst bs
  | .error f => .error f

/-- Transfers in their order (R62). -/
def moveAll (size : Nat) : List Transfer → Memory → Except Fault Memory
  | [], m => .ok m
  | t :: ts, m =>
    match moveBytes size m t with
    | .ok m' => moveAll size ts m'
    | .error f => .error f

/-- `n` adjacent byte pairs exchanged, from address `a` on: `(u, v) <- MemRead(a, 2)`, `MemWrite(a, 2, (v, u))` (R160). -/
def swapPairs (size : Nat) : Nat → Nat → Memory → Except Fault Memory
  | 0, _, m => .ok m
  | n + 1, a, m =>
    match memRead size m a 2 with
    | .error f => .error f
    | .ok uv =>
      match memWrite size m a uv.reverse with
      | .error f => .error f
      | .ok m' => swapPairs size n (a + 2) m'

/-- The rest of a command whose work on BUF ended: the state with the new BUF, or the fault of a BUF access. -/
def withMemory (m : Except Fault Memory) (k : Memory → State) : Result :=
  match m with
  | .ok m' => .next (k m')
  | .error f => .fault f

/-! ### The register window -/

/-- A WRREG that is not dropped (R171): CMD accepts the command, an RW register takes the value, IRQ_EN takes bit 0, and
the RO registers and reserved slots ignore it. -/
def State.writeSlot (s : State) (r : Slot) (v : Word) : State :=
  match r with
  | .cmd => s.accept v
  | .status => s
  | .x => { s with x := v }
  | .y => { s with y := v }
  | .pitch => { s with pitch := v }
  | .height => { s with height := v }
  | .srcBase => { s with srcBase := v }
  | .srcLen => { s with srcLen := v }
  | .dstBase => { s with dstBase := v }
  | .dstLen => { s with dstLen := v }
  | .result => s
  | .resultIndex => s
  | .skipCount => s
  | .irqEn => { s with irqEn := v.getLsbD 0 }
  | .rsvd38 => s
  | .rsvd3C => s

/-- A WRREG that is dropped because BUSY = 1 (R171). -/
def State.dropWrite (s : State) : State := { s with status := s.status.dropped }

/-! ### Reset -/

/-- Every register at its reset value and PENDING discarded (R21, R300). BUF and the parameters stay (R302). -/
def State.resetRegisters (s : State) : State :=
  { s with
    cmd := 0#32, status := Status.reset, x := 0#32, y := 0#32, pitch := 0#32, height := 0#32
    srcBase := 0#32, srcLen := 0#32, dstBase := 0#32, dstLen := 0#32
    result := 0#32, resultIndex := 0#32, skipCount := 0#32, irqEn := false, pending := none }

end Sys2Proof.Machine
end

