-- ==== Sys2Proof/Machine/Bus.lean ====
section
/-! DEFINITION. The two bus operations, RDREG (R172) and WRREG (R171). -/

namespace Sys2Proof.Machine

/-- **RDREG** (R172): returns the slot's value, with no side effect; allowed while BUSY = 1. During reset it is not
defined and refused (R300). -/
def execRdreg (r : Slot) (s : State) : Result :=
  if s.resetAsserted then .refused .busDuringReset else .next { s with readData := s.readSlot r }

/-- **WRREG** (R171): dropped, with DROP set, while BUSY = 1, whatever slot it targets; else it writes the slot. During
reset it is not defined and refused (R300). -/
def execWrreg (r : Slot) (data : Word) (s : State) : Result :=
  if s.resetAsserted then .refused .busDuringReset
  else if s.status.busy then .next s.dropWrite
  else .next (s.writeSlot r data)

end Sys2Proof.Machine
end

