-- ==== Sys2Proof/Machine/Control.lean ====
section
/-! DEFINITION. NOP (R170) and the reserved operations (R82, R85, R251). -/

namespace Sys2Proof.Machine

/-- **NOP** (R170): completes without doing anything; BAD_FIELD when L or RSVD is not 0. -/
def execNop (l : BitVec 4) (rsvd : BitVec 24) (s : State) : Result :=
  s.runChecked (commandCheck (.nop l rsvd) s) (.next s.completeDone)

/-- A reserved OP, 0x5 .. 0xF (R82, R85, R89): ILLEGAL_OP, whatever L and RSVD hold, and no other effect. -/
def execReservedOp (op l : BitVec 4) (rsvd : BitVec 24) (s : State) : Result :=
  s.runChecked (commandCheck (.reservedOp op l rsvd) s) (.next s.completeDone)

end Sys2Proof.Machine
end

