-- ==== Sys2Proof/Machine/Translate.lean ====
section
/-! DEFINITION. The tiled address translator: the parameter `TILED_OFFSET` and its default (R6, R100, R102). The named
intermediates are R102's (R101, R110). The formula is the spec's, supplied there from general knowledge (assumption
log 1). -/

namespace Sys2Proof.Machine

/-- Step 1, `aw`: the pitch rounded up to a multiple of 32 blocks, modulo 2^32. -/
def alignedPitch (p : Word) : Word := (p + 31#32) &&& 0xFFFFFFE0#32

/-- Step 2, `macro`: the macro-tile offset. -/
def macroOffset (x y p : Word) (l : Nat) : Word :=
  ((x >>> 5) + (y >>> 5) * (alignedPitch p >>> 5)) <<< (l + 7)

/-- Step 3, `micro`: the micro-tile offset. -/
def microOffset (x y : Word) (l : Nat) : Word := ((x &&& 7#32) + ((y &&& 6#32) <<< 2)) <<< l

/-- Step 4a, `off`: macro and micro combined, with the corrections for bit 3 and bit 0 of y. -/
def combinedOffset (x y p : Word) (l : Nat) : Word :=
  macroOffset x y p l
    + ((microOffset x y l &&& 0xFFFFFFF0#32) <<< 1)
    + (microOffset x y l &&& 0xF#32)
    + ((y &&& 8#32) <<< (3 + l))
    + ((y &&& 1#32) <<< 4)

/-- Step 4b, `byte`: the final redistribution of bit ranges. `T(x, y, p, L)` is the byte offset of block (x, y) in the
tiled source (R100, R102). -/
def tiledOffset (x y p : Word) (l : Nat) : Word :=
  ((combinedOffset x y p l &&& 0xFFFFFE00#32) <<< 3)
    + ((combinedOffset x y p l &&& 0x1C0#32) <<< 2)
    + (combinedOffset x y p l &&& 0x3F#32)
    + ((y &&& 16#32) <<< 7)
    + (((((y &&& 8#32) >>> 2) + (x >>> 3)) &&& 3#32) <<< 6)

/-- The block index `TI = T >> L` (R103). -/
def tiledIndex (x y p : Word) (l : Nat) : Word := tiledOffset x y p l >>> l

/-! ### The parameter -/

/-- The translator that a value of `TILED_OFFSET` stands for: the listed offset where there is one, the default of R102
elsewhere (R100; assumption log 27). -/
def translate : Config.Translator → Word → Word → Word → Nat → Word
  | [], x, y, p, l => tiledOffset x y p l
  | r :: rest, x, y, p, l =>
    if x = r.x ∧ y = r.y ∧ p = r.p ∧ l = r.l then r.offset else translate rest x y p l

/-- The machine's translator `T` (R100), which XLATE and DETILE evaluate. -/
def State.tiled (s : State) : Word → Word → Word → Nat → Word := translate s.translator

end Sys2Proof.Machine
end

