-- ==== Sys2Proof/Machine/DataMovement.lean ====
section
/-! DEFINITION. DETILE (R130 to R134) and COPY (R135). -/

namespace Sys2Proof.Machine

/-! ### DETILE -/

/-- The block positions (x, y) in R130's order: y in the outer loop, x in the inner one, both increasing. -/
def blockGrid (p h : Nat) : List (Nat × Nat) :=
  (List.range h).flatMap fun y => (List.range p).map fun x => (x, y)

/-- `s`, the offset of block (x, y) in the tiled source: the u32 value of the translator (R130, R131). -/
def tiledBlockOffset (T : Word → Word → Word → Nat → Word) (l : BitVec 4) (s : State) (b : Nat × Nat) : Nat :=
  (T (BitVec.ofNat 32 b.1) (BitVec.ofNat 32 b.2) s.pitch l.toNat).toNat

/-- `d`, the offset of block (x, y) in the linear destination: `(y * p + x) * bpp` in nat, never wrapped (R130, R131). -/
def linearBlockOffset (l : BitVec 4) (s : State) (b : Nat × Nat) : Nat :=
  (b.2 * s.pitch.toNat + b.1) * bytesPerBlock l

/-- The bounds rule: the whole block lies inside both regions (R131). -/
def blockFits (T : Word → Word → Word → Nat → Word) (l : BitVec 4) (s : State) (b : Nat × Nat) : Bool :=
  decide (tiledBlockOffset T l s b + bytesPerBlock l ≤ s.srcLen.toNat) &&
    decide (linearBlockOffset l s b + bytesPerBlock l ≤ s.dstLen.toNat)

/-- The transfer of one block (R130). -/
def blockTransfer (T : Word → Word → Word → Nat → Word) (l : BitVec 4) (s : State) (b : Nat × Nat) : Transfer :=
  { src := s.srcBase.toNat + tiledBlockOffset T l s b
    dst := s.dstBase.toNat + linearBlockOffset l s b
    len := bytesPerBlock l }

/-- DETILE's transfers, in R130's order: the blocks that fit (R131). -/
def detileTransfers (T : Word → Word → Word → Nat → Word) (l : BitVec 4) (s : State) : List Transfer :=
  ((blockGrid s.pitch.toNat s.height.toNat).filter (blockFits T l s)).map (blockTransfer T l s)

/-- How many block positions DETILE skips, a nat (R130, R132). -/
def detileSkipped (T : Word → Word → Word → Nat → Word) (l : BitVec 4) (s : State) : Nat :=
  (blockGrid s.pitch.toNat s.height.toNat).countP fun b => !blockFits T l s b

/-- **DETILE** (R130): the blocks that fit are gathered from tiled to linear order, the others are counted. The
transfers and the count stand in R130's one loop; the count does not depend on BUF, so it is taken beside it. -/
def execDetile (l : BitVec 4) (rsvd : BitVec 24) (s : State) : Result :=
  s.runChecked (commandCheck (.detile l rsvd) s)
    (withMemory (moveAll s.memSize (detileTransfers s.tiled l s) s.mem) fun m =>
      { s with mem := m, skipCount := BitVec.ofNat 32 (detileSkipped s.tiled l s) }.completeDone)

/-! ### COPY -/

/-- COPY's one transfer: `n = min(SRC_LEN, DST_LEN)` bytes (R135). -/
def copyTransfer (s : State) : Transfer :=
  { src := s.srcBase.toNat, dst := s.dstBase.toNat, len := min s.srcLen.toNat s.dstLen.toNat }

/-- **COPY** (R135): the linear pass-through copy. -/
def execCopy (l : BitVec 4) (rsvd : BitVec 24) (s : State) : Result :=
  s.runChecked (commandCheck (.copy l rsvd) s)
    (withMemory (moveAll s.memSize [copyTransfer s] s.mem) fun m => { s with mem := m }.completeDone)

end Sys2Proof.Machine
end

