-- ==== Sys2Proof/Machine/Endian.lean ====
section
/-! DEFINITION. SWAP, the endian corrector (R160 to R165). -/

namespace Sys2Proof.Machine

/-- **SWAP** (R160): `DST_LEN div 2` adjacent pairs exchanged in place, counted from DST_BASE; an odd last byte is
neither read nor written (R161). -/
def execSwap (l : BitVec 4) (rsvd : BitVec 24) (s : State) : Result :=
  s.runChecked (commandCheck (.swap l rsvd) s)
    (withMemory (swapPairs s.memSize (s.dstLen.toNat / 2) s.dstBase.toNat s.mem) fun m =>
      { s with mem := m }.completeDone)

end Sys2Proof.Machine
end

