-- ==== Sys2Proof/Machine/Xlate.lean ====
section
/-! DEFINITION. XLATE (R108). -/

namespace Sys2Proof.Machine

/-- XLATE's effect for a translator `T` (R108): RESULT and RESULT_INDEX. -/
def State.translated (s : State) (T : Word → Word → Word → Nat → Word) (l : BitVec 4) : State :=
  { s with
    result := T s.x s.y s.pitch l.toNat
    resultIndex := T s.x s.y s.pitch l.toNat >>> l.toNat }

/-- **XLATE** (R108): the translator on X, Y and PITCH, unchecked (R109). -/
def execXlate (l : BitVec 4) (rsvd : BitVec 24) (s : State) : Result :=
  s.runChecked (commandCheck (.xlate l rsvd) s) (.next (s.translated s.tiled l).completeDone)

end Sys2Proof.Machine
end

