-- ==== Sys2Proof/Machine/Dispatch.lean ====
section
/-! DEFINITION. One arm per constructor of `Instr`. -/

namespace Sys2Proof.Machine

def exec (i : Instr) (s : State) : Host.Outcome State Fault Refusal :=
  match i with
  | .nop l rsvd => Sys2Proof.Machine.execNop l rsvd s
  | .xlate l rsvd => Sys2Proof.Machine.execXlate l rsvd s
  | .detile l rsvd => Sys2Proof.Machine.execDetile l rsvd s
  | .copy l rsvd => Sys2Proof.Machine.execCopy l rsvd s
  | .swap l rsvd => Sys2Proof.Machine.execSwap l rsvd s
  | .reservedOp op l rsvd => Sys2Proof.Machine.execReservedOp op l rsvd s
  | .rdreg r => Sys2Proof.Machine.execRdreg r s
  | .wrreg r data => Sys2Proof.Machine.execWrreg r data s

end Sys2Proof.Machine
end

