-- ==== Sys2Proof/Machine/Hazards.lean ====
section
/-! DEFINITION. What happens to a command in flight from outside: the host's accesses to BUF while BUSY = 1 (R305 H2, I4)
and a reset while BUSY = 1 (R301, I5). Each byte the spec leaves unspecified becomes a free byte (assumption logs 9, 10,
11). -/

namespace Sys2Proof.Machine

/-! ### Free bytes -/

/-- A free byte written at an address. -/
def State.drawAt (s : State) (a : Nat) : State :=
  { s with mem := s.mem.set a (Config.freeByte s.draws), draws := s.draws + 1 }

/-- A free byte of its own written at each address of a list. -/
def State.drawAll (s : State) : List Nat → State
  | [] => s
  | a :: as => (s.drawAt a).drawAll as

/-! ### The command in flight -/

/-- The command in flight: the decoded PENDING word while BUSY = 1 (R35). -/
def State.inFlight (s : State) : Option Instr := if s.status.busy then s.pending.map decodeCommand else none

/-- The source region of a command, where it has one: DETILE's and COPY's (R305 H2), whatever the command's other fields and
whether or not its checks pass (assumption log 9). -/
def sourceOf (i : Instr) (s : State) : Option Region :=
  match i with
  | .detile _ _ => some s.srcRegion
  | .copy _ _ => some s.srcRegion
  | .nop _ _ => none
  | .xlate _ _ => none
  | .swap _ _ => none
  | .reservedOp _ _ _ => none
  | .rdreg _ => none
  | .wrreg _ _ => none

/-- The destination region of a command, where it has one: DETILE's, COPY's and SWAP's (R305 H2, R301), whatever the
command's other fields and whether or not its checks pass (assumption logs 9, 10). -/
def destinationOf (i : Instr) (s : State) : Option Region :=
  match i with
  | .detile _ _ => some s.dstRegion
  | .copy _ _ => some s.dstRegion
  | .swap _ _ => some s.dstRegion
  | .nop _ _ => none
  | .xlate _ _ => none
  | .reservedOp _ _ _ => none
  | .rdreg _ => none
  | .wrreg _ _ => none

/-- An optional region holds the byte at `a`. -/
def holds (r : Option Region) (a : Nat) : Bool :=
  match r with
  | some r => r.contains a
  | none => false

/-- The byte at `a` is in a region of the command in flight (R305 H2). DESIGN CHOICE (assumption log 24): once BUSY = 0 it is
in none, whether or not the host has read STATUS since. -/
def State.touches (s : State) (a : Nat) : Bool :=
  match s.inFlight with
  | some i => holds (sourceOf i s) a || holds (destinationOf i s) a
  | none => false

/-! ### The host's own accesses to BUF -/

/-- The host writes bytes of BUF (R50). While a command is in flight, the addresses written in its regions are
remembered (R305 H2). -/
def hostWrite (s : State) (a : Nat) (bs : List Byte) : Result :=
  withMemory (memWrite s.memSize s.mem a bs) fun m =>
    { s with
      mem := m
      raced := s.raced ++ ((List.range bs.length).map fun i => a + i).filter fun b => s.touches b }

/-- The bytes of a host read: a byte of an in-flight region is a free byte (R305 H2), every other one is BUF's. DESIGN CHOICE
(assumption log 24): a read after completion returns BUF's bytes even where the host has not yet read STATUS with
BUSY = 0. -/
def hostReadBytes (s : State) (a : Nat) : Nat → List Byte
  | 0 => []
  | n + 1 =>
    (if s.touches a then Config.freeByte (s.draws + n) else s.mem.byte a) :: hostReadBytes s (a + 1) n

/-- The host reads bytes of BUF (R50); bytes past `MEM_SIZE` do not exist (R51). -/
def hostRead (s : State) (a n : Nat) : Result :=
  if a + n ≤ s.memSize then .next { s with hostBytes := hostReadBytes s a n, draws := s.draws + n }
  else .fault (.outsideBuf a n)

/-! ### What a race leaves unspecified -/

/-- The bytes of BUF that a command's results are made of, as pairs (destination, source), for a command whose checks
pass. SWAP makes each byte of a pair of the other. -/
def byteMoves (i : Instr) (s : State) : List (Nat × Nat) :=
  match i with
  | .detile l _ =>
    (detileTransfers s.tiled l s).flatMap fun t => (List.range t.len).map fun j => (t.dst + j, t.src + j)
  | .copy _ _ =>
    (List.range (copyTransfer s).len).map fun j => ((copyTransfer s).dst + j, (copyTransfer s).src + j)
  | .swap _ _ =>
    (List.range (s.dstLen.toNat / 2)).flatMap fun j =>
      [(s.dstBase.toNat + 2 * j, s.dstBase.toNat + 2 * j + 1), (s.dstBase.toNat + 2 * j + 1, s.dstBase.toNat + 2 * j)]
  | .nop _ _ => []
  | .xlate _ _ => []
  | .reservedOp _ _ _ => []
  | .rdreg _ => []
  | .wrreg _ _ => []

/-- The destination bytes that the host's writes during the flight leave unspecified (R305 H2): those made from a byte
the host wrote, and those the host wrote. -/
def racedBytes (i : Instr) (s : State) : List Nat :=
  (if (commandCheck i s).isNone then
      ((byteMoves i s).filter fun d => s.raced.contains d.1 || s.raced.contains d.2).map Prod.fst
    else [])
    ++ s.raced.filter fun a => holds (destinationOf i s) a

/-- The end of a flight: the raced bytes become free bytes. `before` is the state the command ran in, `after` the one it
left. A flight in which the host kept H2 changes nothing here. -/
def settleRaces (i : Instr) (before after : State) : State :=
  match before.raced with
  | [] => after
  | _ :: _ => { after.drawAll (racedBytes i before) with raced := [] }

/-- The outcome of a command's execution with its races settled. -/
def settle (i : Instr) (before : State) (r : Result) : Result :=
  match r with
  | .next after => .next (settleRaces i before after)
  | .fault f => .fault f
  | .refused f => .refused f

/-! ### Reset -/

/-- The bytes that a reset leaves unspecified: every byte of BUF in the aborted command's destination region (R301, I5),
whether or not the command's checks would have passed. A byte in both regions of a DETILE or a COPY is one of them, although
R301 also calls the source region unchanged (DEDUCED, assumption log 10). -/
def abortedBytes (s : State) : List Nat :=
  match s.inFlight with
  | some i =>
    match destinationOf i s with
    | some r => (r.clip s.memSize).addresses
    | none => []
  | none => []

/-- The reset input is asserted (R300): the command in flight is aborted (R301), every register takes its reset value
and PENDING is discarded. -/
def State.assertReset (s : State) : State :=
  { (s.drawAll (abortedBytes s)).resetRegisters with resetAsserted := true, raced := [] }

/-- The reset input is released (R300): every register takes its reset value once more. Releasing an input that is not
asserted is no event. -/
def State.releaseReset (s : State) : State :=
  if s.resetAsserted then { s.resetRegisters with resetAsserted := false } else s

end Sys2Proof.Machine
end

