-- ==== Sys2Proof/Machine/Fetch.lean ====
section
/-! DEFINITION. What the machine does next: the engine's turn (R174), a bus transaction (R86), a host access to BUF (R50)
or a reset event (R300). XTAT has no program counter and fetches nothing from BUF (R33, R66): the next event is the first
entry of `State.inputs`, and with none left the engine has the turn (R310; assumption log 3). -/

namespace Sys2Proof.Machine

/-- What one step is to do. -/
inductive Fetched where
  /-- The engine runs a command (R174) in a state. -/
  | command (i : Instr) (s : State)
  /-- A bus transaction runs (R171, R172) in a state. -/
  | transaction (i : Instr) (s : State)
  /-- Something that is no instruction. -/
  | event (r : Result)

/-- The engine's turn (R174): enabled exactly when BUSY = 1. When it is idle the turn passes and nothing changes
(R264). -/
def engineTurn (s : State) : Fetched :=
  if s.status.busy then
    match s.pending with
    | some w => .command (decodeCommand w) s
    | none => .event (.fault .pendingUndefined)
  else .event (.next s)

/-- The refusal of an object that does not decode, by its name. -/
def refusalOf : Reject → Refusal
  | .misalignedOffset off => .misalignedOffset off
  | .accessWidth width => .accessWidth width

/-- A bus transaction, decoded (R86). -/
def busTurn (s : State) (header : BitVec 7) (width : Nat) (data : Word) : Fetched :=
  match decode (.bus header width data) with
  | .ok i => .transaction i s
  | .error e => .event (.refused (refusalOf e))

/-- The next event, taken from the front of `State.inputs`. -/
def fetch (s : State) : Fetched :=
  match s.inputs with
  | [] => engineTurn s
  | .engine :: rest => engineTurn (s.withInputs rest)
  | .bus header width data :: rest => busTurn (s.withInputs rest) header width data
  | .bufWrite a bs :: rest => .event (hostWrite (s.withInputs rest) a bs)
  | .bufRead a n :: rest => .event (hostRead (s.withInputs rest) a n)
  | .resetAssert :: rest => .event (.next (s.withInputs rest).assertReset)
  | .resetRelease :: rest => .event (.next (s.withInputs rest).releaseReset)

/-- What one step does with the event fetched: an instruction is executed by `exec`; the end of a command also settles
the races of its flight (R305 H2). -/
def perform : Fetched → Result
  | .command i s => settle i s (exec i s)
  | .transaction i s => exec i s
  | .event r => r

/-- The state in which an encoded object is the next thing the machine runs: a command word is accepted (R173) and the
engine has the turn; a bus transaction is the next event (assumption log 13). -/
def State.place (s : State) : Encoded → State
  | .command w => { s.accept w with inputs := .engine :: s.inputs, raced := [] }
  | .bus header width data => s.withInputs (.bus header width data :: s.inputs)

end Sys2Proof.Machine
end

