-- ==== Sys2Proof/Machine/Step.lean ====
section
/-! DEFINITION. One step of the machine, and placing an instruction where the step takes its next one. -/

namespace Sys2Proof.Machine

/-- One step: the next event is fetched and performed. -/
def step (s : State) : Host.Outcome State Fault Refusal := perform (fetch s)

/-- The state with the opcode-table row's instruction placed so that the very next step runs it; unchanged for bits that
are no object (assumption log 13). -/
def State.withFetchWord (s : State) (nbits w : Nat) : State :=
  match tableObject nbits w with
  | some e => s.place e
  | none => s

end Sys2Proof.Machine
end

