-- ==== Sys2Proof/Machine/HostAssembly.lean ====
section
/-! DEFINITION. The host assembly syntax (R175), its pseudo-instructions (R176) and WAIT (R177), run on the machine.
This is host software: nothing here is part of the block (assumption log 20). -/

namespace Sys2Proof.Machine

/-! ### Abstract syntax -/

/-- The commands that take no L operand (R175, R90). -/
inductive PlainCommand where
  | nop | copy | swap
  deriving DecidableEq, Repr

/-- The commands that take `L=<3 or 4>` (R175, R90). -/
inductive ClassedCommand where
  | xlate | detile
  deriving DecidableEq, Repr

/-- The block-size class written in a program: 3 or 4 (R175, R83). -/
inductive BlockClass where
  | three | four
  deriving DecidableEq, Repr

/-- One base form of a host program (R175). -/
inductive Line where
  | wr (r : Slot) (v : Word)
  | rd (r : Slot)
  | cmd (c : PlainCommand)
  | cmdL (c : ClassedCommand) (l : BlockClass)
  | cmdRaw (w : Word)
  | wait
  | mem (addr : Nat) (bytes : List Byte)
  deriving DecidableEq, Repr

/-- One pseudo-instruction (R176). -/
inductive Pseudo where
  | xlate (x y pitch : Word) (l : BlockClass)
  | detile (src slen dst dlen pitch height : Word) (l : BlockClass)
  | copy (src slen dst dlen : Word)
  | swap (dst dlen : Word)
  | nop
  deriving DecidableEq, Repr

/-! ### Meaning -/

/-- The command word of `CMD <mnemonic>` (R90). -/
def PlainCommand.word : PlainCommand → Word
  | .nop => 0x00000000#32
  | .copy => 0x00000003#32
  | .swap => 0x00000004#32

/-- The command word of `CMD <mnemonic>, L=<3 or 4>` (R90). -/
def ClassedCommand.word : ClassedCommand → BlockClass → Word
  | .xlate, .three => 0x00000031#32
  | .xlate, .four => 0x00000041#32
  | .detile, .three => 0x00000032#32
  | .detile, .four => 0x00000042#32

/-- The event of `WR <reg>, <value>`: WRREG(offset(reg), value) (R175). -/
def writeEvent (r : Slot) (v : Word) : Input := .bus (busHeader true r) 32 v

/-- The event of `RD <reg>`: RDREG(offset(reg)) (R175). -/
def readEvent (r : Slot) : Input := .bus (busHeader false r) 32 0#32

/-- The expansion of a pseudo-instruction (R176). -/
def Pseudo.lines : Pseudo → List Line
  | .xlate x y pitch l => [.wr .x x, .wr .y y, .wr .pitch pitch, .cmdL .xlate l, .wait]
  | .detile src slen dst dlen pitch height l =>
    [.wr .srcBase src, .wr .srcLen slen, .wr .dstBase dst, .wr .dstLen dlen, .wr .pitch pitch, .wr .height height,
      .cmdL .detile l, .wait]
  | .copy src slen dst dlen =>
    [.wr .srcBase src, .wr .srcLen slen, .wr .dstBase dst, .wr .dstLen dlen, .cmd .copy, .wait]
  | .swap dst dlen => [.wr .dstBase dst, .wr .dstLen dlen, .cmd .swap, .wait]
  | .nop => [.cmd .nop, .wait]

/-! ### Running a program -/

/-- When the engine takes its step among the host's operations, which R174 lets be any time after acceptance (vectors V-B6
and V-B7): for each operation, in order, whether the engine has the turn just before it. DESIGN CHOICE (assumption log 28):
past the end of the list the engine has the turn before every operation, so that a command completes (R310). -/
abbrev Schedule := List Bool

/-- What running host operations ends with: the machine and the part of the schedule that is left. -/
abbrev HostResult := Host.Outcome (State × Schedule) Fault Refusal

/-- What comes after host operations that ended in a next state. -/
def HostResult.andThen (r : HostResult) (f : Schedule → State → HostResult) : HostResult :=
  match r with
  | .next (t, rest) => f rest t
  | .fault e => .fault e
  | .refused e => .refused e

/-- `n` steps of the machine, stopping at a fault or a refusal. -/
def runSteps : Nat → State → Result
  | 0, s => .next s
  | n + 1, s =>
    match step s with
    | .next t => runSteps n t
    | .fault f => .fault f
    | .refused r => .refused r

/-- The events that one operation of the host is performed by: the engine's turn first, where the schedule says so. -/
def operationEvents (sched : Schedule) (e : Input) : List Input :=
  match sched with
  | [] => [.engine, e]
  | true :: _ => [.engine, e]
  | false :: _ => [e]

/-- One operation of the host, performed on a machine with no other event waiting. -/
def runOperation (e : Input) (sched : Schedule) (s : State) : HostResult :=
  match runSteps (operationEvents sched e).length (s.withInputs (operationEvents sched e)) with
  | .next t => .next (t, sched.tail)
  | .fault f => .fault f
  | .refused r => .refused r

/-- `WAIT` (R177): STATUS is read repeatedly, up to the first read that returns BUSY = 0. Past the end of the schedule the
engine's turn comes first, so that the read there is the last (`runWait_reads_idle`). -/
def runWait : Schedule → State → HostResult
  | [], s => runOperation (readEvent .status) [] s
  | b :: rest, s =>
    (runOperation (readEvent .status) (b :: rest) s).andThen fun _ t =>
      if t.readData.getLsbD 0 then runWait rest t else .next (t, rest)

/-- One line of a program, performed (R175). -/
def Line.run : Line → Schedule → State → HostResult
  | .wr r v => runOperation (writeEvent r v)
  | .rd r => runOperation (readEvent r)
  | .cmd c => runOperation (writeEvent .cmd c.word)
  | .cmdL c l => runOperation (writeEvent .cmd (c.word l))
  | .cmdRaw w => runOperation (writeEvent .cmd w)
  | .wait => runWait
  | .mem addr bytes => runOperation (.bufWrite addr bytes)

/-- A program: its lines in order (R175). -/
def runProgram : List Line → Schedule → State → HostResult
  | [], sched, s => .next (s, sched)
  | l :: ls, sched, s => (l.run sched s).andThen (runProgram ls)

/-! ### Concrete syntax

Where R175 does not say how a line is written, the reading is the model's (DESIGN CHOICE, assumption log 31). -/

/-- The tokens of a line: what stands before a `;` (R175), split at blanks and commas. -/
def tokens (cs : List Char) : List (List Char) :=
  let rec go (word : List Char) : List Char → List (List Char)
    | [] => if word.isEmpty then [] else [word.reverse]
    | c :: rest =>
      if c = ';' then if word.isEmpty then [] else [word.reverse]
      else if c = ' ' ∨ c = '\t' ∨ c = ',' then
        if word.isEmpty then go [] rest else word.reverse :: go [] rest
      else go (c :: word) rest
  go [] cs

/-- The value of a digit in base 16, either case. -/
def hexDigit (c : Char) : Option Nat :=
  if '0' ≤ c ∧ c ≤ '9' then some (c.toNat - 48)
  else if 'A' ≤ c ∧ c ≤ 'F' then some (c.toNat - 55)
  else if 'a' ≤ c ∧ c ≤ 'f' then some (c.toNat - 87)
  else none

/-- Digits of a base, read on from a value. -/
def digits (base acc : Nat) : List Char → Option Nat
  | [] => some acc
  | c :: cs =>
    match hexDigit c with
    | some d => if d < base then digits base (acc * base + d) cs else none
    | none => none

/-- A number: decimal, or hexadecimal after `0x` (R175). -/
def number (cs : List Char) : Option Nat :=
  match cs with
  | [] => none
  | '0' :: 'x' :: ds => if ds.isEmpty then none else digits 16 0 ds
  | ds => digits 10 0 ds

/-- A number that fits a register. -/
def wordOf (cs : List Char) : Option Word :=
  match number cs with
  | some n => if n < 2 ^ 32 then some (BitVec.ofNat 32 n) else none
  | none => none

/-- A byte of a `MEM` line. DESIGN CHOICE (assumption log 31): two hexadecimal digits, as programs P2 and P3 write it. -/
def byteOf (cs : List Char) : Option Byte :=
  if cs.length = 2 then (digits 16 0 cs).map (BitVec.ofNat 8) else none

/-- The bytes of a `MEM` line. DESIGN CHOICE (assumption log 31): R175 does not say how they are written; they are bytes one
after the other, and `b × n` is the byte `b` repeated `n` times, as program P3 writes it. -/
def bytesOf : List (List Char) → Option (List Byte)
  | [] => some []
  | c :: ['×'] :: n :: cs =>
    match byteOf c, number n, bytesOf cs with
    | some b, some n, some bs => some (List.replicate n b ++ bs)
    | _, _, _ => none
  | c :: cs =>
    match byteOf c, bytesOf cs with
    | some b, some bs => some (b :: bs)
    | _, _ => none

/-- The register names of R21. -/
def slotNames : List (List Char × Slot) :=
  [(['C', 'M', 'D'], .cmd), (['S', 'T', 'A', 'T', 'U', 'S'], .status), (['X'], .x), (['Y'], .y),
    (['P', 'I', 'T', 'C', 'H'], .pitch), (['H', 'E', 'I', 'G', 'H', 'T'], .height),
    (['S', 'R', 'C', '_', 'B', 'A', 'S', 'E'], .srcBase), (['S', 'R', 'C', '_', 'L', 'E', 'N'], .srcLen),
    (['D', 'S', 'T', '_', 'B', 'A', 'S', 'E'], .dstBase), (['D', 'S', 'T', '_', 'L', 'E', 'N'], .dstLen),
    (['R', 'E', 'S', 'U', 'L', 'T'], .result),
    (['R', 'E', 'S', 'U', 'L', 'T', '_', 'I', 'N', 'D', 'E', 'X'], .resultIndex),
    (['S', 'K', 'I', 'P', 'C', 'O', 'U', 'N', 'T'], .skipCount), (['I', 'R', 'Q', '_', 'E', 'N'], .irqEn)]

/-- A register by its name, or a slot by its byte offset (the spec's vectors write reserved slots so). -/
def slotOf (cs : List Char) : Option Slot :=
  match slotNames.find? fun e => e.1 = cs with
  | some e => some e.2
  | none =>
    match number cs with
    | some n => if n < 64 ∧ n % 4 = 0 then some (Slot.ofNumber (BitVec.ofNat 4 (n / 4))) else none
    | none => none

/-- A block-size class by its number. -/
def classOf (cs : List Char) : Option BlockClass :=
  match number cs with
  | some 3 => some .three
  | some 4 => some .four
  | _ => none

/-- The lines that the tokens of one written line stand for: a base form (R175), or the expansion of a
pseudo-instruction (R176). `none` for what is no line of the syntax. -/
def linesOfTokens : List (List Char) → Option (List Line)
  | [] => some []
  | [['W', 'R'], r, v] =>
    match slotOf r, wordOf v with
    | some r, some v => some [.wr r v]
    | _, _ => none
  | [['R', 'D'], r] => (slotOf r).map fun r => [.rd r]
  | [['W', 'A', 'I', 'T']] => some [.wait]
  | [['C', 'M', 'D'], ['N', 'O', 'P']] => some [.cmd .nop]
  | [['C', 'M', 'D'], ['C', 'O', 'P', 'Y']] => some [.cmd .copy]
  | [['C', 'M', 'D'], ['S', 'W', 'A', 'P']] => some [.cmd .swap]
  | [['C', 'M', 'D'], ['X', 'L', 'A', 'T', 'E'], 'L' :: '=' :: l] => (classOf l).map fun l => [.cmdL .xlate l]
  | [['C', 'M', 'D'], ['D', 'E', 'T', 'I', 'L', 'E'], 'L' :: '=' :: l] => (classOf l).map fun l => [.cmdL .detile l]
  | [['C', 'M', 'D', '.', 'R', 'A', 'W'], w] => (wordOf w).map fun w => [.cmdRaw w]
  | ['M', 'E', 'M'] :: a :: bs =>
    if a.getLast? = some ':' then
      match number a.dropLast, bytesOf bs with
      | some a, some bs => some [.mem a bs]
      | _, _ => none
    else none
  | [['N', 'O', 'P']] => some Pseudo.nop.lines
  | [['S', 'W', 'A', 'P'], d, n] =>
    match wordOf d, wordOf n with
    | some d, some n => some (Pseudo.swap d n).lines
    | _, _ => none
  | [['X', 'L', 'A', 'T', 'E'], x, y, p, l] =>
    match wordOf x, wordOf y, wordOf p, classOf l with
    | some x, some y, some p, some l => some (Pseudo.xlate x y p l).lines
    | _, _, _, _ => none
  | [['C', 'O', 'P', 'Y'], s, n, d, m] =>
    match wordOf s, wordOf n, wordOf d, wordOf m with
    | some s, some n, some d, some m => some (Pseudo.copy s n d m).lines
    | _, _, _, _ => none
  | [['D', 'E', 'T', 'I', 'L', 'E'], s, n, d, m, p, h, l] =>
    match wordOf s, wordOf n, wordOf d, wordOf m, wordOf p, wordOf h, classOf l with
    | some s, some n, some d, some m, some p, some h, some l =>
      some (Pseudo.detile s n d m p h l).lines
    | _, _, _, _, _, _, _ => none
  | _ => none

/-- The lines that one written line stands for (R175, R176). -/
def parseLine (cs : List Char) : Option (List Line) := linesOfTokens (tokens cs)

end Sys2Proof.Machine
end

