-- ==== Sys2Proof/Machine/HostSequence.lean ====
section
/-! DEFINITION. The reference host sequence (R200 to R223): the format catalog, block geometry, the mip walk, and the
conversion that drives the machine level by level. It is software outside XTAT (R4), modelled as a program of the host
(assumption log 20). -/

namespace Sys2Proof.Machine

/-! ### Container and header (R201 to R203) -/

/-- The length of the header (R201). -/
def headerLength : Nat := 128

/-- A byte of a container; 0 past its end, where no rule reads. -/
def fileByte (file : List Byte) (i : Nat) : Byte := (file[i]?).getD 0#8

/-- A 4-byte little-endian unsigned integer at an offset (R202). -/
def le32 (file : List Byte) (off : Nat) : Nat :=
  (fileByte file off).toNat + 256 * (fileByte file (off + 1)).toNat + 65536 * (fileByte file (off + 2)).toNat
    + 16777216 * (fileByte file (off + 3)).toNat

/-- The pixel height, bytes 12..15 (R202). -/
def headerHeight (file : List Byte) : Nat := le32 file 12

/-- The pixel width, bytes 16..19 (R202). -/
def headerWidth (file : List Byte) : Nat := le32 file 16

/-- The number of levels, bytes 28..31 (R202), treated as 1 if it is at most 1 (R203). -/
def headerMips (file : List Byte) : Nat := max 1 (le32 file 28)

/-- The format tag, bytes 84..87 in file order (R202). -/
def headerTag (file : List Byte) : List Byte := (file.drop 84).take 4

/-! ### Format catalog and geometry (R204 to R208) -/

/-- A row of the format catalog (R204). -/
structure Format where
  tag : List Byte
  bytesPerBlock : Nat
  experimental : Bool
  deriving DecidableEq, Repr

/-- The twelve formats of R204, each tag as its ASCII bytes. -/
def catalog : List Format :=
  [ { tag := [0x44#8, 0x58#8, 0x54#8, 0x31#8], bytesPerBlock := 8, experimental := false }   -- DXT1
  , { tag := [0x44#8, 0x58#8, 0x54#8, 0x33#8], bytesPerBlock := 16, experimental := false }  -- DXT3
  , { tag := [0x44#8, 0x58#8, 0x54#8, 0x35#8], bytesPerBlock := 16, experimental := false }  -- DXT5
  , { tag := [0x41#8, 0x54#8, 0x49#8, 0x32#8], bytesPerBlock := 16, experimental := false }  -- ATI2
  , { tag := [0x42#8, 0x43#8, 0x34#8, 0x55#8], bytesPerBlock := 8, experimental := false }   -- BC4U
  , { tag := [0x42#8, 0x43#8, 0x34#8, 0x53#8], bytesPerBlock := 8, experimental := false }   -- BC4S
  , { tag := [0x42#8, 0x43#8, 0x35#8, 0x55#8], bytesPerBlock := 16, experimental := false }  -- BC5U
  , { tag := [0x42#8, 0x43#8, 0x35#8, 0x53#8], bytesPerBlock := 16, experimental := false }  -- BC5S
  , { tag := [0x52#8, 0x58#8, 0x47#8, 0x42#8], bytesPerBlock := 16, experimental := true }   -- RXGB
  , { tag := [0x55#8, 0x59#8, 0x56#8, 0x59#8], bytesPerBlock := 16, experimental := true }   -- UYVY
  , { tag := [0x59#8, 0x55#8, 0x59#8, 0x32#8], bytesPerBlock := 16, experimental := true }   -- YUY2
  , { tag := [0x41#8, 0x32#8, 0x58#8, 0x59#8], bytesPerBlock := 16, experimental := true } ] -- A2XY

/-- The catalog's row for a tag, compared byte for byte (R204). -/
def formatOf (tag : List Byte) : Option Format := catalog.find? fun f => f.tag = tag

/-- The tags that an UnsupportedFormat error lists (R206). -/
def supportedTags : List (List Byte) := catalog.map Format.tag

/-- Blocks along a dimension: `(w + 3) div 4` (R207). -/
def blocksAcross (w : Nat) : Nat := (w + 3) / 4

/-- `L = log2(bytesPerBlock)`, exact: 8 gives 3 and 16 gives 4 (R208). -/
def classOfBytes (bpp : Nat) : BlockClass := if bpp = 8 then .three else .four

/-! ### The mip walk (R209 to R212) -/

/-- One level of the walk. -/
structure Level where
  width : Nat
  height : Nat
  gridW : Nat
  gridH : Nat
  len : Nat
  off : Nat
  deriving DecidableEq, Repr

/-- A dimension of level i: `max(1, d >> i)`, the shift on nat (R209). -/
def levelDimension (d i : Nat) : Nat := max 1 (d >>> i)

/-- Level i at payload offset `off` (R207, R209, R210). -/
def levelAt (bpp width height i off : Nat) : Level :=
  { width := levelDimension width i
    height := levelDimension height i
    gridW := blocksAcross (levelDimension width i)
    gridH := blocksAcross (levelDimension height i)
    len := blocksAcross (levelDimension width i) * blocksAcross (levelDimension height i) * bpp
    off := off }

/-- The levels the walk processes, from level `i` at offset `off`, at most `n` more: each right after the one before,
stopping before the first that does not fit in the payload (R210, R211). -/
def levelsFrom (bpp width height payload : Nat) : Nat → Nat → Nat → List Level
  | 0, _, _ => []
  | n + 1, i, off =>
    let lv := levelAt bpp width height i off
    if payload < off + lv.len then []
    else lv :: levelsFrom bpp width height payload n (i + 1) (off + lv.len)

/-- The levels of a file (R203, R211). -/
def fileLevels (bpp : Nat) (file : List Byte) : List Level :=
  levelsFrom bpp (headerWidth file) (headerHeight file) (file.length - headerLength) (headerMips file) 0 0

/-- A level is linear when detiling is off or a dimension is at most the threshold; else it is tiled (R212). -/
def isLinear (threshold : Nat) (skipDetile : Bool) (lv : Level) : Bool :=
  skipDetile || decide (lv.width ≤ threshold) || decide (lv.height ≤ threshold)

/-! ### Driving the machine (R213) -/

/-- The host's errors (R206, R216, R217) and its own fault (R213). An unsupported format comes with the list of tags the
message must name. -/
inductive HostError where
  | invalidFlagCombination
  | malformedContainer
  | unsupportedFormat (supported : List (List Byte))
  | hostFault
  deriving DecidableEq, Repr

/-- A file to convert, with the two flags that R200 gives it, and when the engine takes its step while it is converted. -/
structure HostFile where
  bytes : List Byte
  skipDetile : Bool
  skipSwap : Bool
  schedule : Schedule := []
  deriving DecidableEq, Repr

/-- What a conversion gives: whether the experimental-format warning is surfaced (R205), the output container or the host's
error, and the machine it leaves. DEDUCED (assumption log 26): the warning is surfaced when the format is looked up, so also
where the conversion ends with a host fault later. -/
structure Conversion where
  warning : Bool
  outcome : Except HostError (List Byte)
  machine : State
  deriving DecidableEq, Repr

/-- The parameters of the reference host: `TAIL_FILL` (R221), `DETILE_THRESHOLD` (R212), and the BUF addresses IN and OUT of
the payloads (R213). DESIGN CHOICE (assumption log 25): R213's premise that the payloads at IN and OUT are disjoint is the
caller's to keep; nothing here checks it. -/
structure HostParams where
  tailFill : Config.TailFill
  threshold : Nat := Config.detileThreshold
  inAddr : Nat
  outAddr : Nat
  deriving DecidableEq, Repr

/-- One thing the host does with the machine (R213): an access to BUF, or a pseudo-instruction. -/
inductive HostAction where
  | access (e : Input)
  | pseudo (p : Pseudo)
  deriving DecidableEq, Repr

/-- A host action, performed. -/
def HostAction.run : HostAction → Schedule → State → HostResult
  | .access e => runOperation e
  | .pseudo p => runProgram p.lines

/-- The host's look at STATUS.ERR, after each pseudo-instruction (R213). It looks at no other bit of STATUS: a write that was
dropped, on a machine that was not idle, goes unnoticed (DESIGN CHOICE, assumption log 29). -/
def HostAction.failed (a : HostAction) (t : State) : Bool :=
  match a with
  | .access _ => false
  | .pseudo _ => t.status.err

/-- Host actions performed one after the other, up to the first host fault: an XTAT error (R213), or an action that the
machine stops on, which leaves the machine as it was before the action (DESIGN CHOICE, assumption log 29). -/
def runActions : List HostAction → Schedule → State → State × Option HostError
  | [], _, s => (s, none)
  | a :: rest, sched, s =>
    match a.run sched s with
    | .next (t, sched') => if a.failed t then (t, some .hostFault) else runActions rest sched' t
    | .fault _ => (s, some .hostFault)
    | .refused _ => (s, some .hostFault)

/-- The host's steps for one level (R213): pre-clear and DETILE for a tiled level (R220), COPY for a linear one, then SWAP
unless it is turned off. After each it checks STATUS.ERR. -/
def levelSteps (h : HostParams) (bpp : Nat) (skipDetile skipSwap : Bool) (lv : Level) : List HostAction :=
  let src := BitVec.ofNat 32 (h.inAddr + lv.off)
  let dst := BitVec.ofNat 32 (h.outAddr + lv.off)
  let n := BitVec.ofNat 32 lv.len
  (if isLinear h.threshold skipDetile lv then [.pseudo (.copy src n dst n)]
    else
      [.access (.bufWrite (h.outAddr + lv.off) (List.replicate lv.len 0#8)),
        .pseudo (.detile src n dst n (BitVec.ofNat 32 lv.gridW) (BitVec.ofNat 32 lv.gridH) (classOfBytes bpp))])
    ++ (if skipSwap then [] else [.pseudo (.swap dst n)])

/-- The initial image of the output payload (R221). -/
def tailImage (t : Config.TailFill) (payload : List Byte) : List Byte :=
  match t with
  | .zero => List.replicate payload.length 0#8
  | .copyInput => payload

/-- Everything the host does with the machine for one file: it places the payload at IN and the initial image at OUT,
processes every level in order, and reads the output payload (R213, R214, R222). -/
def conversionActions (h : HostParams) (bpp : Nat) (f : HostFile) : List HostAction :=
  let payload := f.bytes.drop headerLength
  [.access (.bufWrite h.inAddr payload), .access (.bufWrite h.outAddr (tailImage h.tailFill payload))]
    ++ (fileLevels bpp f.bytes).flatMap (levelSteps h bpp f.skipDetile f.skipSwap)
    ++ [.access (.bufRead h.outAddr payload.length)]

/-- The reference conversion (R222): the flag check (R216), the length check (R217), the format (R206), and then the
levels. The output is the header unchanged and the output payload (R215); nothing is output on an error (R218). Where the
payloads at IN and OUT overlap, against R213's premise, and no XTAT error shows it, it ends as any other (assumption
log 25). DESIGN CHOICE (assumption log 29): it does not look whether the machine is idle when it begins. While BUSY = 1 its
first writes can be dropped and it can end as a success all the same, and while reset is asserted the machine's refusal is
a host fault. -/
def convert (h : HostParams) (s : State) (f : HostFile) : Conversion :=
  if f.skipDetile && f.skipSwap then { warning := false, outcome := .error .invalidFlagCombination, machine := s }
  else if f.bytes.length < headerLength then { warning := false, outcome := .error .malformedContainer, machine := s }
  else
    match formatOf (headerTag f.bytes) with
    | none => { warning := false, outcome := .error (.unsupportedFormat supportedTags), machine := s }
    | some fmt =>
      match runActions (conversionActions h fmt.bytesPerBlock f) f.schedule s with
      | (t, none) =>
        { warning := fmt.experimental, outcome := .ok (f.bytes.take headerLength ++ t.hostBytes), machine := t }
      | (t, some e) => { warning := fmt.experimental, outcome := .error e, machine := t }

/-- Batch mode (R219): the files one after the other on one machine; an error concerns its file only. DESIGN CHOICE
(assumption log 30): each file has its own pair of flags, as R200 gives it, and a batch under one pair is a batch whose files
all have that pair. -/
def convertBatch (h : HostParams) : List HostFile → State → List Conversion
  | [], _ => []
  | f :: rest, s => convert h s f :: convertBatch h rest (convert h s f).machine

end Sys2Proof.Machine
end

