-- ==== Sys2Proof/Safety.lean ====
section
/-! DEFINITION. What claims are stated in terms of: the invariant of the machine, the states a run can reach, and the
events that the spec defines. -/

namespace Sys2Proof.Machine

/-! ### The invariant -/

/-- STATUS is one of the values R24 allows, and ERRCODE is one of R251's codes. -/
structure Status.Legal (st : Status) : Prop where
  notBoth : ¬(st.done = true ∧ st.err = true)
  busyClear : st.busy = true → st.done = false ∧ st.err = false ∧ st.errcode = 0#4
  errIffCode : st.err = false ↔ st.errcode = 0#4
  knownCode : st.errcode.toNat ≤ 4

/-- The invariant of the machine. -/
structure State.Inv (s : State) : Prop where
  /-- R24 -/
  status : s.status.Legal
  /-- PENDING is defined exactly when BUSY = 1 (R35). -/
  pendingDefined : s.pending.isSome = s.status.busy
  /-- PENDING is the same value as CMD while BUSY = 1 (R35). -/
  pendingIsCmd : ∀ w, s.pending = some w → w = s.cmd
  /-- `1 <= MEM_SIZE <= 2^32` (R6). -/
  memSize : 1 ≤ s.memSize ∧ s.memSize ≤ 2 ^ 32
  /-- BUF has its canonical form. -/
  memWf : s.mem.wf = true
  /-- No byte outside BUF is ever written (R51). -/
  memWithin : s.mem.within s.memSize = true
  /-- Races are remembered only during a flight (R305 H2). -/
  racedInFlight : s.status.busy = false → s.raced = []
  /-- The host reaches only bytes of BUF. -/
  racedWithin : ∀ a ∈ s.raced, a < s.memSize
  /-- While reset is asserted every register has its reset value and PENDING is discarded (R300). -/
  resetHeld : s.resetAsserted = true → s.resetRegisters = s

/-! ### Reachable states -/

/-- The states a run can reach: from reset, with the platform's memory and translator and any events to come. -/
inductive Reachable : State → Prop where
  | reset (m : Memory) (tr : Config.Translator) (events : List Input) (hw : m.wf = true)
      (hi : m.within Config.memSize = true) : Reachable { State.reset with mem := m, translator := tr, inputs := events }
  | step (s t : State) (hs : Reachable s) (h : step s = .next t) : Reachable t

/-- The states a run can reach after a reset and before the first command completes: no step so far took BUSY from 1 to
0, except by another reset. -/
inductive BeforeFirstCompletion : State → Prop where
  | reset (m : Memory) (tr : Config.Translator) (events : List Input) :
      BeforeFirstCompletion { State.reset with mem := m, translator := tr, inputs := events }
  | step (s t : State) (hs : BeforeFirstCompletion s) (h : step s = .next t)
      (hc : s.status.busy = true → t.status.busy = true) : BeforeFirstCompletion t
  | resetAgain (s : State) : BeforeFirstCompletion s.assertReset

/-! ### Defined events -/

/-- The spec defines what happens on this event: a bus transaction is aligned and 32 bits wide and reset is not asserted
(R56, R300), and a host access to BUF stays inside it (R51). -/
def Input.Defined (s : State) : Input → Prop
  | .engine => True
  | .bus header width _ => width = 32 ∧ header.extractLsb' 0 2 = 0#2 ∧ s.resetAsserted = false
  | .bufWrite a bs => a + bs.length ≤ s.memSize
  | .bufRead a n => a + n ≤ s.memSize
  | .resetAssert => True
  | .resetRelease => True

/-! ### Regions of a command in flight -/

/-- The byte at `a` is in a region of the command in flight, in the words of R305 H2: the source or the destination of a
DETILE (OP 2) or a COPY (OP 3), or the destination of a SWAP (OP 4), while BUSY = 1. -/
def State.InFlightRegion (s : State) (a : Nat) : Prop :=
  s.status.busy = true ∧ ∃ w, s.pending = some w ∧
    ((w.toNat % 16 = 2 ∨ w.toNat % 16 = 3) ∧ s.srcBase.toNat ≤ a ∧ a < s.srcBase.toNat + s.srcLen.toNat ∨
      (w.toNat % 16 = 2 ∨ w.toNat % 16 = 3 ∨ w.toNat % 16 = 4) ∧
        s.dstBase.toNat ≤ a ∧ a < s.dstBase.toNat + s.dstLen.toNat)

/-! ### What a command reads -/

/-- Two states agree on all that R37 lists as read by a command, and on the platform's parameters that the command uses. NOP
and the reserved operations read nothing; SWAP reads its whole pairs only (R161). -/
def ReadsAgree (i : Instr) (s s' : State) : Prop :=
  match i with
  | .nop _ _ => True
  | .xlate _ _ => s'.x = s.x ∧ s'.y = s.y ∧ s'.pitch = s.pitch ∧ s'.translator = s.translator
  | .detile _ _ =>
    (s'.pitch = s.pitch ∧ s'.height = s.height ∧ s'.srcBase = s.srcBase ∧ s'.srcLen = s.srcLen ∧
        s'.dstBase = s.dstBase ∧ s'.dstLen = s.dstLen ∧ s'.memSize = s.memSize ∧ s'.translator = s.translator) ∧
      ∀ a, s.srcBase.toNat ≤ a → a < s.srcBase.toNat + s.srcLen.toNat → s'.mem.byte a = s.mem.byte a
  | .copy _ _ =>
    (s'.srcBase = s.srcBase ∧ s'.srcLen = s.srcLen ∧ s'.dstBase = s.dstBase ∧ s'.dstLen = s.dstLen ∧
        s'.memSize = s.memSize) ∧
      ∀ a, s.srcBase.toNat ≤ a → a < s.srcBase.toNat + min s.srcLen.toNat s.dstLen.toNat →
        s'.mem.byte a = s.mem.byte a
  | .swap _ _ =>
    (s'.dstBase = s.dstBase ∧ s'.dstLen = s.dstLen ∧ s'.memSize = s.memSize) ∧
      ∀ a, s.dstBase.toNat ≤ a → a < s.dstBase.toNat + 2 * (s.dstLen.toNat / 2) → s'.mem.byte a = s.mem.byte a
  | .reservedOp _ _ _ => True
  | .rdreg _ => True
  | .wrreg _ _ => True

/-- A place that held `a` in one state and `a'` in another holds, after a step of each, the same in both or in each what it
held. -/
def ChangesAlike {α : Type} (a a' b b' : α) : Prop := b' = b ∨ (b = a ∧ b' = a')

end Sys2Proof.Machine
end

