-- ==== Sys2Proof/Certificates/Slice0/Obligations.lean ====
section
/-! DEFINITION. The statements for the provers. Each says what a rule of spec/ says, or what follows from several; a clause
that is the model's own choice says so and names its assumption log entry. -/

open Sys2Proof Sys2Proof.Machine

/-! ### Encoding -/

/-- A few words written out from R81, R86, R90 and the encodings of program P1 decode to what they stand for. -/
def Obligations.OpcodeTableWordsDecode : Prop :=
  decodeCommand 0x00000000#32 = .nop 0#4 0#24 ∧
  decodeCommand 0x00000031#32 = .xlate 3#4 0#24 ∧
  decodeCommand 0x00000042#32 = .detile 4#4 0#24 ∧
  decodeCommand 0x00000003#32 = .copy 0#4 0#24 ∧
  decodeCommand 0x00000004#32 = .swap 0#4 0#24 ∧
  decodeCommand 0x00000105#32 = .reservedOp 5#4 0#4 1#24 ∧
  decode (.bus 0x48#7 32 9#32) = .ok (.wrreg .x 9#32) ∧
  decode (.bus 0x04#7 32 0#32) = .ok (.rdreg .status)

/-- Decoding what the encoder writes gives the instruction back, for every well-formed instruction and every value of its
operands. -/
def Obligations.DecodeOfEncodeIsTheInstruction : Prop :=
  ∀ i : Instr, i.wellFormed = true → decode (encode i) = .ok i

/-- Encoding what the decoder reads gives the command word back, for each of the 2^32 words, and the instruction read is
well formed: no bit of a command word is dropped (R81, R85, R88). -/
def Obligations.EncodeOfDecodeIsTheCommandWord : Prop :=
  ∀ w : Word, encode (decodeCommand w) = .command w ∧ (decodeCommand w).wellFormed = true

/-- R90: the seven legal command words with their meanings, and every other word decodes to ILLEGAL_OP or BAD_FIELD. -/
def Obligations.LegalCommandWordsAreTheSeven : Prop :=
  (decodeCommand 0x00000000#32 = .nop 0#4 0#24 ∧ decodeCommand 0x00000031#32 = .xlate 3#4 0#24 ∧
    decodeCommand 0x00000041#32 = .xlate 4#4 0#24 ∧ decodeCommand 0x00000032#32 = .detile 3#4 0#24 ∧
    decodeCommand 0x00000042#32 = .detile 4#4 0#24 ∧ decodeCommand 0x00000003#32 = .copy 0#4 0#24 ∧
    decodeCommand 0x00000004#32 = .swap 0#4 0#24) ∧
  ∀ w : Word,
    (w ∈ [0x00000000#32, 0x00000031#32, 0x00000041#32, 0x00000032#32, 0x00000042#32, 0x00000003#32, 0x00000004#32] →
      decodeError (decodeCommand w) = none) ∧
    (w ∉ [0x00000000#32, 0x00000031#32, 0x00000041#32, 0x00000032#32, 0x00000042#32, 0x00000003#32, 0x00000004#32] →
      decodeError (decodeCommand w) = some .illegalOp ∨ decodeError (decodeCommand w) = some .badField)

/-- R85: the engine's decode of a word, its fields read as numbers: `op` is `w mod 16`, `L` is `w / 16 mod 16` and RSVD is
`w / 256`. It gives an error in R85's order, or the operation with its L. -/
def Obligations.DecodeErrorsInTheirOrder : Prop :=
  ∀ w : Word,
    decodeError (decodeCommand w) =
      (if 4 < w.toNat % 16 then some .illegalOp
      else if w.toNat / 256 ≠ 0 then some .badField
      else if w.toNat % 16 = 1 ∨ w.toNat % 16 = 2 then
        if w.toNat / 16 % 16 = 3 ∨ w.toNat / 16 % 16 = 4 then none else some .badField
      else if w.toNat / 16 % 16 ≠ 0 then some .badField
      else none) ∧
    (decodeError (decodeCommand w) = none →
      decodeCommand w =
        (let l := BitVec.ofNat 4 (w.toNat / 16)
        if w.toNat % 16 = 0 then .nop l 0#24
        else if w.toNat % 16 = 1 then .xlate l 0#24
        else if w.toNat % 16 = 2 then .detile l 0#24
        else if w.toNat % 16 = 3 then .copy l 0#24
        else .swap l 0#24))

/-- R86 and R56: a bus transaction's header is `{W, OFFSET[5:0]}`. With OFFSET[1:0] = 00 and 32-bit width it is a WRREG
(W = 1) or an RDREG (W = 0) of the slot that R21 puts at that offset, for each of the sixteen; any other is refused by
name. -/
def Obligations.BusTransactionsDecodeByHeader : Prop :=
  ∀ (header : BitVec 7) (width : Nat) (data : Word),
    (width ≠ 32 → decode (.bus header width data) = .error (.accessWidth width)) ∧
    (width = 32 → header.toNat % 4 ≠ 0 →
      decode (.bus header width data) = .error (.misalignedOffset (BitVec.ofNat 6 header.toNat))) ∧
    (width = 32 → header.toNat % 4 = 0 → ∃ r : Slot,
      [Slot.cmd, .status, .x, .y, .pitch, .height, .srcBase, .srcLen, .dstBase, .dstLen, .result, .resultIndex, .skipCount,
        .irqEn, .rsvd38, .rsvd3C][header.toNat / 4 % 16]? = some r ∧
      decode (.bus header width data) = .ok (if header.toNat / 64 = 1 then .wrreg r data else .rdreg r))

/-! ### The translator

The statements about `tiledOffset`, and every other one about the default translator, rest on the formula of R102, which the
spec marks as general knowledge and not its source's (assumption log 1). That the formula is R102's is the second clause of
`XlateTranslates`. A statement about `State.tiled` holds for every translator that `TILED_OFFSET` can be (R6, R100). -/

/-- R104: `T(x, y, p, L) mod 2^L = 0` for every u32 x, y, p and every L in {3, 4}. -/
def Obligations.TiledOffsetIsMultipleOfBlockSize : Prop :=
  ∀ (x y p : Word) (l : Nat), l = 3 ∨ l = 4 → (tiledOffset x y p l).toNat % 2 ^ l = 0

/-- R103: the block index is `T >> L`, and shifting it back by L gives T exactly. -/
def Obligations.BlockIndexShiftedBackIsTheOffset : Prop :=
  ∀ (x y p : Word) (l : Nat), l = 3 ∨ l = 4 →
    tiledIndex x y p l = tiledOffset x y p l >>> l ∧ tiledIndex x y p l <<< l = tiledOffset x y p l

/-- The injectivity that R106 requires of the translator, on the whole valid domain that R106 defines: `x < p`, `y < h`, and
`aw * ((h + 31) & ~31) * bpp <= 2^32` in nat. R106 itself checks it by evaluation for some grids. -/
def Obligations.TranslatorInjectiveOnValidDomain : Prop :=
  ∀ (p h l : Nat), l = 3 ∨ l = 4 → p < 2 ^ 32 →
    ((p + 31) / 32 * 32) * ((h + 31) / 32 * 32) * 2 ^ l ≤ 2 ^ 32 →
    ∀ x y x' y' : Word, x.toNat < p → x'.toNat < p → y.toNat < h → y'.toNat < h →
      tiledOffset x y (BitVec.ofNat 32 p) l = tiledOffset x' y' (BitVec.ofNat 32 p) l → x = x' ∧ y = y'

/-- Outside the valid domain injectivity fails: R106's example. -/
def Obligations.TranslatorCollidesOutsideValidDomain : Prop :=
  tiledOffset 0x10000000#32 0x10000000#32 0x40000000#32 3 = 0#32 ∧ tiledOffset 0#32 0#32 0x40000000#32 3 = 0#32

/-- An aligned level's tiled blocks fill exactly its own byte length: for p and h multiples of 32 in the valid domain, the
offsets `T(x, y, p, L)` are exactly the multiples of bpp below `p * h * bpp`. R107 checks it by evaluation for some
sizes. -/
def Obligations.AlignedLevelFillsItsLength : Prop :=
  ∀ (p h l : Nat), l = 3 ∨ l = 4 → p < 2 ^ 32 → h < 2 ^ 32 → p % 32 = 0 → h % 32 = 0 → p * h * 2 ^ l ≤ 2 ^ 32 →
    ∀ n : Nat,
      (∃ x y : Word, x.toNat < p ∧ y.toNat < h ∧ (tiledOffset x y (BitVec.ofNat 32 p) l).toNat = n) ↔
        ∃ k, k < p * h ∧ n = k * 2 ^ l

/-! ### Checks and errors -/

/-- R84: with a defined OP, any set bit of RSVD ends the command with BAD_FIELD; a reserved OP ends with ILLEGAL_OP whatever
RSVD holds. Nothing but STATUS changes (R252). That PENDING is emptied is deduced from R35 (assumption log 7). -/
def Obligations.ReservedBitsEndWithBadField : Prop :=
  ∀ (s : State) (l : BitVec 4) (rsvd : BitVec 24),
    let badField : Result :=
      .next { s with status := { s.status with busy := false, err := true, errcode := 2#4 }, pending := none }
    let illegalOp : Result :=
      .next { s with status := { s.status with busy := false, err := true, errcode := 1#4 }, pending := none }
    (rsvd ≠ 0#24 →
      exec (.nop l rsvd) s = badField ∧ exec (.xlate l rsvd) s = badField ∧ exec (.detile l rsvd) s = badField ∧
        exec (.copy l rsvd) s = badField ∧ exec (.swap l rsvd) s = badField) ∧
    (∀ op : BitVec 4, 5 ≤ op.toNat → exec (.reservedOp op l rsvd) s = illegalOp)

/-- The L values of R83: XLATE and DETILE end with BAD_FIELD unless L is 3 or 4; NOP, COPY and SWAP end with BAD_FIELD
unless L is 0. Nothing but STATUS changes (R252). That PENDING is emptied is deduced from R35 (assumption log 7). -/
def Obligations.IllegalClassEndsWithBadField : Prop :=
  ∀ (s : State) (l : BitVec 4),
    let badField : Result :=
      .next { s with status := { s.status with busy := false, err := true, errcode := 2#4 }, pending := none }
    (l ≠ 3#4 → l ≠ 4#4 → exec (.xlate l 0#24) s = badField ∧ exec (.detile l 0#24) s = badField) ∧
    (l ≠ 0#4 → exec (.nop l 0#24) s = badField ∧ exec (.copy l 0#24) s = badField ∧ exec (.swap l 0#24) s = badField)

/-- R253: the engine's checks of a command word, in their order and in nat: decode, source region, destination region,
overlap. The first that fails is the code the command ends with, and nothing but STATUS changes (R252); when none fails, the
command ends without an error. That PENDING is emptied is deduced from R35 (assumption log 7). -/
def Obligations.ChecksReportTheFirstFailure : Prop :=
  ∀ (s : State) (w : Word),
    let op := w.toNat % 16
    let sb := s.srcBase.toNat
    let sl := s.srcLen.toNat
    let db := s.dstBase.toNat
    let dl := s.dstLen.toNat
    let code : BitVec 4 :=
      if 4 < op then 1#4
      else if w.toNat / 256 ≠ 0 then 2#4
      else if (op = 1 ∨ op = 2) ∧ w.toNat / 16 % 16 ≠ 3 ∧ w.toNat / 16 % 16 ≠ 4 then 2#4
      else if op ≠ 1 ∧ op ≠ 2 ∧ w.toNat / 16 % 16 ≠ 0 then 2#4
      else if (op = 2 ∨ op = 3) ∧ s.memSize < sb + sl then 3#4
      else if (op = 2 ∨ op = 3 ∨ op = 4) ∧ s.memSize < db + dl then 3#4
      else if (op = 2 ∨ op = 3) ∧ sl ≠ 0 ∧ dl ≠ 0 ∧ sb < db + dl ∧ db < sb + sl then 4#4
      else 0#4
    (code ≠ 0#4 →
      exec (decodeCommand w) s =
        .next { s with status := { s.status with busy := false, err := true, errcode := code }, pending := none }) ∧
    (code = 0#4 → ∃ t, exec (decodeCommand w) s = .next t ∧ t.status = { s.status with busy := false, done := true })

/-- R252: a command that ends with an error has written no BUF byte, and no register other than STATUS (BUSY, ERR,
ERRCODE). CMD holds the word from acceptance: acceptance and execution together change CMD and STATUS only. That PENDING is
emptied is deduced from R35 (assumption log 7). -/
def Obligations.FailedCommandsChangeStatusOnly : Prop :=
  (∀ (i : Instr) (s t : State), i.isCommand = true → s.status.err = false → exec i s = .next t → t.status.err = true →
    t = { s with
      status := { s.status with busy := false, err := true, errcode := t.status.errcode }, pending := none }) ∧
  ∀ (s t u : State) (w : Word), s.resetAsserted = false → s.status.busy = false → exec (.wrreg .cmd w) s = .next t →
    exec (decodeCommand w) t = .next u → u.status.err = true →
    u = { s with
      cmd := w, pending := none
      status := { busy := false, done := false, err := true, drop := false, errcode := u.status.errcode } }

/-- No command faults, in any state: every access of the engine to BUF stays inside it, because the region checks come
first (R51, R253). No command is refused either. -/
def Obligations.EngineNeverLeavesBuf : Prop :=
  ∀ (i : Instr) (s : State), i.isCommand = true → ∃ t, exec i s = .next t

/-! ### NOP, XLATE and the reserved operations -/

/-- NOP (R170) completes, and only STATUS (BUSY, DONE) changes. That PENDING is emptied is deduced from R35 (assumption
log 7). -/
def Obligations.NopCompletes : Prop :=
  ∀ s : State,
    exec (.nop 0#4 0#24) s =
      .next { s with status := { s.status with busy := false, done := true }, pending := none }

/-- XLATE (R108, R109) completes for every value of X, Y and PITCH and every translator: RESULT is the translator's offset,
RESULT_INDEX the offset shifted right by L, and nothing else but STATUS (BUSY, DONE) changes; that PENDING is emptied is deduced
from R35 (assumption log 7). With the default translator RESULT is the value of R102's expressions, taken in nat modulo 2^32
step by step. -/
def Obligations.XlateTranslates : Prop :=
  (∀ (s : State) (l : BitVec 4), l = 3#4 ∨ l = 4#4 →
    exec (.xlate l 0#24) s =
      .next { s with
        result := s.tiled s.x s.y s.pitch l.toNat
        resultIndex := s.tiled s.x s.y s.pitch l.toNat >>> l.toNat
        status := { s.status with busy := false, done := true }
        pending := none }) ∧
  ∀ (s t : State) (l : BitVec 4), l = 3#4 ∨ l = 4#4 → s.translator = Config.defaultTranslator →
    exec (.xlate l 0#24) s = .next t →
    let x := s.x.toNat
    let y := s.y.toNat
    let aw := (s.pitch.toNat + 31) % 2 ^ 32 / 32 * 32
    let tile := (x / 32 + y / 32 * (aw / 32)) * 2 ^ (l.toNat + 7) % 2 ^ 32
    let micro := (x % 8 + y / 2 % 4 * 2 * 4) * 2 ^ l.toNat
    let off := (tile + micro / 16 * 16 * 2 + micro % 16 + y / 8 % 2 * 8 * 2 ^ (3 + l.toNat) + y % 2 * 2 ^ 4) % 2 ^ 32
    let byte := (off / 512 * 512 * 2 ^ 3 + off / 64 % 8 * 64 * 2 ^ 2 + off % 64 + y / 16 % 2 * 16 * 2 ^ 7
      + (y / 8 % 2 * 8 / 4 + x / 8) % 4 * 2 ^ 6) % 2 ^ 32
    t.result.toNat = byte ∧ t.resultIndex.toNat = byte / 2 ^ l.toNat

/-! ### DETILE -/

/-- DETILE (R130, R131, R132): with legal fields and regions in bounds that do not overlap it completes. SKIPCOUNT is the
number of block positions whose block does not lie inside both regions, modulo 2^32. Each block that does is moved from its
tiled to its linear offset, every other byte of BUF is unchanged, and so is every register but STATUS. That PENDING is emptied
is deduced from R35 (assumption log 7). -/
def Obligations.DetileGathersTheBlocksThatFit : Prop :=
  ∀ (s : State) (l : BitVec 4), l = 3#4 ∨ l = 4#4 →
    let p := s.pitch.toNat
    let h := s.height.toNat
    let sb := s.srcBase.toNat
    let sl := s.srcLen.toNat
    let db := s.dstBase.toNat
    let dl := s.dstLen.toNat
    let bpp := 2 ^ l.toNat
    let T := fun x y : Nat => (s.tiled (BitVec.ofNat 32 x) (BitVec.ofNat 32 y) s.pitch l.toNat).toNat
    let fits := fun x y : Nat => T x y + bpp ≤ sl ∧ (y * p + x) * bpp + bpp ≤ dl
    sb + sl ≤ s.memSize → db + dl ≤ s.memSize →
    ¬(sl ≠ 0 ∧ dl ≠ 0 ∧ sb < db + dl ∧ db < sb + sl) →
    ∃ m : Memory,
      exec (.detile l 0#24) s =
        .next { s with
          mem := m
          skipCount := BitVec.ofNat 32
            (∑ y ∈ Finset.range h, ∑ x ∈ Finset.range p, if fits x y then 0 else 1)
          status := { s.status with busy := false, done := true }
          pending := none } ∧
      (∀ x y i, x < p → y < h → fits x y → i < bpp →
        m.byte (db + (y * p + x) * bpp + i) = s.mem.byte (sb + T x y + i)) ∧
      (∀ a, (∀ x y, x < p → y < h → fits x y →
          ¬(db + (y * p + x) * bpp ≤ a ∧ a < db + (y * p + x) * bpp + bpp)) → m.byte a = s.mem.byte a)

/-- R134: with PITCH = 0 or HEIGHT = 0 DETILE transfers nothing, writes no BUF byte and sets SKIPCOUNT to 0; the region
checks are still made first and can still fail. No other register but STATUS changes. That PENDING is emptied, in each of the
three cases, is deduced from R35 (assumption log 7). -/
def Obligations.DetileOfAnEmptyGrid : Prop :=
  ∀ (s : State) (l : BitVec 4), l = 3#4 ∨ l = 4#4 → s.pitch = 0#32 ∨ s.height = 0#32 →
    let sb := s.srcBase.toNat
    let sl := s.srcLen.toNat
    let db := s.dstBase.toNat
    let dl := s.dstLen.toNat
    let error := fun code : BitVec 4 =>
      (.next { s with status := { s.status with busy := false, err := true, errcode := code }, pending := none } : Result)
    exec (.detile l 0#24) s =
      (if s.memSize < sb + sl ∨ s.memSize < db + dl then error 3#4
      else if sl ≠ 0 ∧ dl ≠ 0 ∧ sb < db + dl ∧ db < sb + sl then error 4#4
      else .next { s with
        skipCount := 0#32, status := { s.status with busy := false, done := true }, pending := none })

/-- What R136 says, for every aligned level of the valid domain and the default translator: with p and h multiples of 32 and
both lengths `p * h * bpp`, DETILE skips no block, and the destination is a permutation of the source's blocks. -/
def Obligations.AlignedDetilePermutesTheBlocks : Prop :=
  ∀ (s t : State) (l : BitVec 4), l = 3#4 ∨ l = 4#4 →
    let p := s.pitch.toNat
    let h := s.height.toNat
    let bpp := 2 ^ l.toNat
    s.translator = Config.defaultTranslator → p % 32 = 0 → h % 32 = 0 →
    s.srcLen.toNat = p * h * bpp → s.dstLen.toNat = p * h * bpp →
    exec (.detile l 0#24) s = .next t → t.status.done = true → s.status.done = false →
    t.skipCount = 0#32 ∧
    ∃ f : Nat → Nat, Set.BijOn f (Set.Iio (p * h)) (Set.Iio (p * h)) ∧
      ∀ k i, k < p * h → i < bpp →
        t.mem.byte (s.dstBase.toNat + k * bpp + i) = s.mem.byte (s.srcBase.toNat + f k * bpp + i)

/-! ### COPY -/

/-- COPY (R135): with regions in bounds that do not overlap it completes; the first `min(SRC_LEN, DST_LEN)` bytes of the
destination are the source's, every other byte of BUF is unchanged, and so is every register but STATUS. That PENDING is
emptied is deduced from R35 (assumption log 7). -/
def Obligations.CopyMovesTheCommonLength : Prop :=
  ∀ s : State,
    let sb := s.srcBase.toNat
    let sl := s.srcLen.toNat
    let db := s.dstBase.toNat
    let dl := s.dstLen.toNat
    sb + sl ≤ s.memSize → db + dl ≤ s.memSize →
    ¬(sl ≠ 0 ∧ dl ≠ 0 ∧ sb < db + dl ∧ db < sb + sl) →
    ∃ m : Memory,
      exec (.copy 0#4 0#24) s =
        .next { s with mem := m, status := { s.status with busy := false, done := true }, pending := none } ∧
      ∀ a, m.byte a = if db ≤ a ∧ a < db + min sl dl then s.mem.byte (sb + (a - db)) else s.mem.byte a

/-! ### SWAP -/

/-- SWAP (R160, R161): with the destination region in bounds it completes; the two bytes of each of the `DST_LEN div 2`
pairs, counted from DST_BASE, are exchanged, and every other byte of BUF is unchanged, an odd last one too. No register but
STATUS changes. That PENDING is emptied is deduced from R35 (assumption log 7). -/
def Obligations.SwapExchangesThePairs : Prop :=
  ∀ s : State,
    let b := s.dstBase.toNat
    let n := s.dstLen.toNat
    b + n ≤ s.memSize →
    ∃ m : Memory,
      exec (.swap 0#4 0#24) s =
        .next { s with mem := m, status := { s.status with busy := false, done := true }, pending := none } ∧
      (∀ i, i < n / 2 → m.byte (b + 2 * i) = s.mem.byte (b + 2 * i + 1) ∧ m.byte (b + 2 * i + 1) = s.mem.byte (b + 2 * i)) ∧
      (∀ a, a < b ∨ b + 2 * (n / 2) ≤ a → m.byte a = s.mem.byte a)

/-- R163: two SWAPs of the same region, with no other write to the region in between, restore every byte of the region. -/
def Obligations.SwapTwiceRestoresTheRegion : Prop :=
  ∀ s t t' u : State, exec (.swap 0#4 0#24) s = .next t →
    t'.dstBase = s.dstBase → t'.dstLen = s.dstLen → t'.memSize = s.memSize →
    (∀ a, s.dstRegion.contains a = true → t'.mem.byte a = t.mem.byte a) →
    exec (.swap 0#4 0#24) t' = .next u →
    ∀ a, s.dstRegion.contains a = true → u.mem.byte a = s.mem.byte a

/-- SWAP commutes with DETILE, in R164's sense: swapping the destination after a DETILE gives the same destination bytes as
a DETILE after swapping the source region. The condition is on every pair of the destination that DETILE does not write,
which is wider than R164's (assumption log 21): R164 names the skipped blocks only, but bytes of the destination in no block
are swapped on one path and not on the other. It holds for every translator whose offsets on the grid are even, as R104 says of
the default. -/
def Obligations.SwapCommutesWithDetile : Prop :=
  ∀ (s t1 u1 t2 u2 : State) (l : BitVec 4), l = 3#4 ∨ l = 4#4 →
    let b := s.dstBase.toNat
    (∀ x y : Word, x.toNat < s.pitch.toNat → y.toNat < s.height.toNat →
      (s.tiled x y s.pitch l.toNat).toNat % 2 = 0) →
    (∀ i, i < s.dstLen.toNat / 2 →
      (∀ tr ∈ detileTransfers s.tiled l s, ¬(tr.dst ≤ b + 2 * i ∧ b + 2 * i < tr.dst + tr.len)) →
      s.mem.byte (b + 2 * i) = s.mem.byte (b + 2 * i + 1)) →
    s.srcBase.toNat + s.srcLen.toNat ≤ s.memSize → s.dstBase.toNat + s.dstLen.toNat ≤ s.memSize →
    s.srcRegion.overlaps s.dstRegion = false →
    exec (.detile l 0#24) s = .next t1 → exec (.swap 0#4 0#24) t1 = .next u1 →
    exec (.swap 0#4 0#24) { s with dstBase := s.srcBase, dstLen := s.srcLen } = .next t2 →
    exec (.detile l 0#24) { t2 with dstBase := s.dstBase, dstLen := s.dstLen } = .next u2 →
    ∀ a, s.dstRegion.contains a = true → u1.mem.byte a = u2.mem.byte a

/-! ### What no command may do -/

/-- No command writes a byte outside the destination region (R37, R161), and NOP, XLATE and the reserved operations write
none at all. -/
def Obligations.OnlyTheDestinationRegionIsWritten : Prop :=
  ∀ (i : Instr) (s t : State), i.isCommand = true → exec i s = .next t →
    (∀ a, s.dstRegion.contains a = false → t.mem.byte a = s.mem.byte a) ∧
    (destinationOf i s = none → t.mem = s.mem)

/-- The source region of DETILE and COPY is never written (R37, R301). -/
def Obligations.SourceRegionIsNeverWritten : Prop :=
  ∀ (i : Instr) (s t : State), i.isCommand = true → sourceOf i s = some s.srcRegion → exec i s = .next t →
    ∀ a, s.srcRegion.contains a = true → t.mem.byte a = s.mem.byte a

/-- A command reads only the registers and the memory that R37 lists for it: in two states that agree on those, whatever else
they hold, it ends alike (with DONE, or with the same code), and every result register and every byte of BUF becomes the same
or keeps, in each of the two, what it was. -/
def Obligations.CommandsReadOnlyWhatIsListed : Prop :=
  ∀ (i : Instr) (s s' t t' : State), i.isCommand = true → ReadsAgree i s s' → exec i s = .next t →
    exec i s' = .next t' →
    ((t.status = { s.status with busy := false, done := true } ∧
        t'.status = { s'.status with busy := false, done := true }) ∨
      ∃ code, t.status = { s.status with busy := false, err := true, errcode := code } ∧
        t'.status = { s'.status with busy := false, err := true, errcode := code }) ∧
    ChangesAlike s.result s'.result t.result t'.result ∧
    ChangesAlike s.resultIndex s'.resultIndex t.resultIndex t'.resultIndex ∧
    ChangesAlike s.skipCount s'.skipCount t.skipCount t'.skipCount ∧
    ∀ a, ChangesAlike (s.mem.byte a) (s'.mem.byte a) (t.mem.byte a) (t'.mem.byte a)

/-! ### The register window -/

/-- R172: an RDREG outside reset returns the slot's value and changes nothing else: each register's stored value, STATUS with
its fields at R23's bits and bits 31:8 zero, IRQ_EN with bits 31:1 zero, and zero for the reserved slots (R31). It does so
while BUSY = 1 too. -/
def Obligations.RdregReturnsTheSlot : Prop :=
  ∀ (s : State) (r : Slot), s.resetAsserted = false →
    ∃ v : Word, exec (.rdreg r) s = .next { s with readData := v } ∧
      v.toNat =
        (match r with
        | .cmd => s.cmd.toNat
        | .status =>
          s.status.busy.toNat + 2 * s.status.done.toNat + 4 * s.status.err.toNat + 8 * s.status.drop.toNat
            + 16 * s.status.errcode.toNat
        | .x => s.x.toNat
        | .y => s.y.toNat
        | .pitch => s.pitch.toNat
        | .height => s.height.toNat
        | .srcBase => s.srcBase.toNat
        | .srcLen => s.srcLen.toNat
        | .dstBase => s.dstBase.toNat
        | .dstLen => s.dstLen.toNat
        | .result => s.result.toNat
        | .resultIndex => s.resultIndex.toNat
        | .skipCount => s.skipCount.toNat
        | .irqEn => s.irqEn.toNat
        | .rsvd38 => 0
        | .rsvd3C => 0)

/-- WRREG (R171) outside reset. While BUSY = 1 it only sets DROP, whatever slot it targets. While BUSY = 0 it writes the
register it names and nothing else: IRQ_EN takes bit 0, an RO register or a reserved slot is not written, and CMD accepts
the word. -/
def Obligations.WrregWritesOrDrops : Prop :=
  ∀ (s : State) (r : Slot) (v : Word), s.resetAsserted = false →
    (s.status.busy = true → exec (.wrreg r v) s = .next { s with status := { s.status with drop := true } }) ∧
    (s.status.busy = false →
      exec (.wrreg r v) s =
        .next
          (match r with
          | .cmd => { s with
              cmd := v, pending := some v
              status := { busy := true, done := false, err := false, drop := false, errcode := 0#4 } }
          | .status => s
          | .x => { s with x := v }
          | .y => { s with y := v }
          | .pitch => { s with pitch := v }
          | .height => { s with height := v }
          | .srcBase => { s with srcBase := v }
          | .srcLen => { s with srcLen := v }
          | .dstBase => { s with dstBase := v }
          | .dstLen => { s with dstLen := v }
          | .result => s
          | .resultIndex => s
          | .skipCount => s
          | .irqEn => { s with irqEn := decide (v.toNat % 2 = 1) }
          | .rsvd38 => s
          | .rsvd3C => s))

/-- R173: a WRREG to CMD when BUSY = 0 accepts the command, whatever the word: CMD and PENDING take it, STATUS reads
0x00000001, and IRQ is 0. Nothing else changes: acceptance does not decode the word. An illegal word is accepted too, and
its execution ends with ERR. -/
def Obligations.CmdWriteAcceptsEveryWord : Prop :=
  ∀ (s : State) (w : Word), s.resetAsserted = false → s.status.busy = false →
    ∃ t, exec (.wrreg .cmd w) s = .next t ∧ t = { s with cmd := w, pending := some w, status := t.status } ∧
      t.readSlot .status = 0x00000001#32 ∧ t.irq = false ∧
      (decodeError (decodeCommand w) ≠ none → ∃ u, exec (decodeCommand w) t = .next u ∧ u.status.err = true)

/-- R30: IRQ_EN has one significant bit, which enables the completion interrupt. A WRREG stores only bit 0 of the written
value, and bits 31:1 always read 0. -/
def Obligations.IrqEnKeepsBitZero : Prop :=
  (∀ (s t : State) (v : Word), s.resetAsserted = false → s.status.busy = false → exec (.wrreg .irqEn v) s = .next t →
    t.readSlot .irqEn = v &&& 1#32) ∧
  (∀ s : State, (s.readSlot .irqEn).toNat / 2 = 0) ∧
  ∀ s : State, s.irq = ((s.readSlot .irqEn).getLsbD 0 && (s.status.done || s.status.err))

/-- Reading a register after writing one (R171, R172), while BUSY = 0: an RW operand register reads back what was written,
IRQ_EN its bit 0; every other slot reads as before, and a write to an RO register or a reserved slot changes what no slot
reads. -/
def Obligations.ReadAfterRegisterWrite : Prop :=
  ∀ (s t u : State) (r r' : Slot) (v : Word), s.resetAsserted = false → s.status.busy = false → r ≠ .cmd →
    exec (.wrreg r v) s = .next t → exec (.rdreg r') t = .next u →
    u.readData =
      (if r' = r ∧ r ∈ [Slot.x, .y, .pitch, .height, .srcBase, .srcLen, .dstBase, .dstLen] then v
      else if r' = r ∧ r = .irqEn then v &&& 1#32
      else s.readSlot r')

/-- R31: the reserved slots read as 0x00000000, and a WRREG to them is ignored. While BUSY = 1 it is dropped like any other
and sets DROP (R171). -/
def Obligations.ReservedSlotsReadZero : Prop :=
  ∀ (s : State) (r : Slot), r = .rsvd38 ∨ r = .rsvd3C → s.resetAsserted = false →
    exec (.rdreg r) s = .next { s with readData := 0x00000000#32 } ∧
    ∀ v : Word, exec (.wrreg r v) s =
      .next (if s.status.busy then { s with status := { s.status with drop := true } } else s)

/-- Every completion raises IRQ when the interrupt is enabled and never when it is masked (R32, R256): after any command,
done or in error, IRQ equals IRQ_EN[0]. -/
def Obligations.CompletionRaisesEnabledIrq : Prop :=
  ∀ (i : Instr) (s t : State), i.isCommand = true → exec i s = .next t → t.irq = s.irqEn

/-! ### One step -/

/-- A step with the engine's turn next, or with no event waiting, runs the decoded PENDING word (R174, R35) as `exec` runs it,
with the entry that gave the turn used up. When the host kept hazard H2 (R305), so that no address is raced, that is all. After
a flight with races the step ends as `exec` does but for bytes of BUF, the count of draws and the races, which are settled
(`RacedBytesAreFree`; assumption log 9). -/
def Obligations.EngineTurnRunsPending : Prop :=
  ∀ (s : State) (w : Word) (rest : List Input), s.status.busy = true → s.pending = some w →
    (s.inputs = [] ∧ rest = [] ∨ s.inputs = .engine :: rest) →
    (s.raced = [] → step s = exec (decodeCommand w) { s with inputs := rest }) ∧
    ∀ c, exec (decodeCommand w) { s with inputs := rest } = .next c →
      ∃ m d, step s = .next { c with mem := m, draws := d, raced := [] }

/-- A step with a bus transaction next runs the instruction it decodes to, as `exec` runs it, with the transaction used up;
one that does not decode is refused by its name (R56, R86). -/
def Obligations.BusTurnRunsTheTransaction : Prop :=
  ∀ (s : State) (header : BitVec 7) (width : Nat) (data : Word) (rest : List Input),
    s.inputs = .bus header width data :: rest →
    (∀ i, decode (.bus header width data) = .ok i → step s = exec i { s with inputs := rest }) ∧
    (width ≠ 32 → step s = .refused (.accessWidth width)) ∧
    (width = 32 → header.toNat % 4 ≠ 0 → step s = .refused (.misalignedOffset (BitVec.ofNat 6 header.toNat)))

/-- While BUSY = 0 the engine is idle (R264): its turn, or a step with no event waiting, changes nothing but the events
waiting. -/
def Obligations.IdleEngineChangesNothing : Prop :=
  ∀ s : State, s.status.busy = false →
    (s.inputs = [] → step s = .next s) ∧
    ∀ rest, s.inputs = .engine :: rest → step s = .next { s with inputs := rest }

/-- RDREG and WRREG while reset is asserted are not defined and refused (R300). -/
def Obligations.BusDuringResetIsRefused : Prop :=
  ∀ (s : State) (r : Slot) (v : Word), s.resetAsserted = true →
    exec (.rdreg r) s = .refused .busDuringReset ∧ exec (.wrreg r v) s = .refused .busDuringReset

/-- The invariant holds at reset. -/
def Obligations.ResetStateMeetsTheInvariant : Prop := State.reset.Inv

/-- Every step keeps the invariant: STATUS stays legal (R24), PENDING and BUSY agree (R35), BUF keeps its canonical form and
lists no byte outside it (R51), and the registers stay at their reset values while reset is asserted (R300). The parameters
MEM_SIZE and TILED_OFFSET never change (R6). -/
def Obligations.StepKeepsTheInvariant : Prop :=
  ∀ s t : State, s.Inv → step s = .next t → t.Inv ∧ t.memSize = s.memSize ∧ t.translator = s.translator

/-- R24: in every reachable state DONE and ERR are never both 1; BUSY = 1 implies DONE = 0, ERR = 0 and ERRCODE = 0; ERR = 0
exactly when ERRCODE = 0; and after a reset, before the first command completes, DONE and ERR are 0. -/
def Obligations.StatusFieldsStayConsistent : Prop :=
  (∀ s : State, Reachable s →
    ¬(s.status.done = true ∧ s.status.err = true) ∧
    (s.status.busy = true → s.status.done = false ∧ s.status.err = false ∧ s.status.errcode = 0#4) ∧
    (s.status.err = false ↔ s.status.errcode = 0#4)) ∧
  ∀ s : State, BeforeFirstCompletion s → s.status.done = false ∧ s.status.err = false

/-- From a state of the invariant a step always answers a next state when the event it takes is one the spec defines: the
machine stops on nothing else (R51, R56, R300). -/
def Obligations.DefinedEventsAlwaysStep : Prop :=
  ∀ s : State, s.Inv → (∀ e rest, s.inputs = e :: rest → e.Defined s) → ∃ t, step s = .next t

/-- Every accepted command completes (R310): whatever defined events the host makes meanwhile, short of a reset, the engine's
step comes after finitely many others, and it ends with BUSY = 0 and DONE or ERR. The bound is the number of events
waiting, plus one: with none left the engine has the turn (assumption log 3). -/
def Obligations.AcceptedCommandCompletes : Prop :=
  ∀ s : State, s.Inv → s.status.busy = true →
    (∀ e ∈ s.inputs, e.Defined s ∧ e ≠ .resetAssert ∧ e ≠ .resetRelease) →
    ∃ k t, k ≤ s.inputs.length + 1 ∧ Host.Core.run Sys2Proof.core k s = .next t ∧ t.status.busy = false ∧
      (t.status.done = true ∨ t.status.err = true)

/-- Until a command in flight completes, no step changes CMD, PENDING, an operand register or a result register (R171, R306,
H4 of R305): the values its step reads are those at acceptance. -/
def Obligations.OperandsHoldDuringTheFlight : Prop :=
  ∀ s t : State, s.status.busy = true → step s = .next t → t.status.busy = true →
    t.cmd = s.cmd ∧ t.pending = s.pending ∧ t.x = s.x ∧ t.y = s.y ∧ t.pitch = s.pitch ∧ t.height = s.height ∧
    t.srcBase = s.srcBase ∧ t.srcLen = s.srcLen ∧ t.dstBase = s.dstBase ∧ t.dstLen = s.dstLen ∧
    t.result = s.result ∧ t.resultIndex = s.resultIndex ∧ t.skipCount = s.skipCount ∧ t.irqEn = s.irqEn

/-- Only a successful XLATE and a reset write RESULT and RESULT_INDEX (R28). -/
def Obligations.ResultsChangeOnlyByXlateOrReset : Prop :=
  ∀ s t : State, step s = .next t → t.result ≠ s.result ∨ t.resultIndex ≠ s.resultIndex →
    (∃ w l, s.status.busy = true ∧ s.pending = some w ∧ decodeCommand w = .xlate l 0#24 ∧ (l = 3#4 ∨ l = 4#4) ∧
      t.result = s.tiled s.x s.y s.pitch l.toNat ∧ t.resultIndex = t.result >>> l.toNat ∧
      t.status.done = true) ∨
    (∃ rest, (s.inputs = .resetAssert :: rest ∨ s.inputs = .resetRelease :: rest) ∧
      t.result = 0#32 ∧ t.resultIndex = 0#32)

/-- Only a successful DETILE and a reset write SKIPCOUNT (R29). -/
def Obligations.SkipCountChangesOnlyByDetileOrReset : Prop :=
  ∀ s t : State, step s = .next t → t.skipCount ≠ s.skipCount →
    (∃ w l, s.status.busy = true ∧ s.pending = some w ∧ decodeCommand w = .detile l 0#24 ∧ (l = 3#4 ∨ l = 4#4) ∧
      t.status.done = true) ∨
    (∃ rest, (s.inputs = .resetAssert :: rest ∨ s.inputs = .resetRelease :: rest) ∧ t.skipCount = 0#32)

/-- BUF changes only by a DETILE, COPY or SWAP in flight, ended by the engine or by a reset, and by the host's own writes
(R36, R302). -/
def Obligations.BufChangesOnlyByItsWriters : Prop :=
  ∀ s t : State, step s = .next t → t.mem ≠ s.mem →
    (∃ w, s.status.busy = true ∧ s.pending = some w ∧ destinationOf (decodeCommand w) s = some s.dstRegion ∧
      ((s.inputs = [] ∨ ∃ rest, s.inputs = .engine :: rest ∨ s.inputs = .resetAssert :: rest))) ∨
    ∃ a bs rest, s.inputs = .bufWrite a bs :: rest

/-- A write and the engine's step in either order (R171, R257; vectors V-B6 and V-B7). Before the engine's step the write is
dropped, whatever slot it names: the machine is as without it, but DROP is 1 beside the completion bits. After it the write
takes effect. -/
def Obligations.BusyWriteRaceHasBothOutcomes : Prop :=
  ∀ (s c : State) (w v : Word) (r : Slot), s.resetAsserted = false → s.status.busy = true → s.pending = some w →
    s.raced = [] → s.inputs = [] → exec (decodeCommand w) s = .next c →
    Host.Core.run Sys2Proof.core 2 { s with inputs := [.bus (busHeader true r) 32 v, .engine] } =
      .next { c with status := { c.status with drop := true } } ∧
    Host.Core.run Sys2Proof.core 2 { s with inputs := [.engine, .bus (busHeader true r) 32 v] } =
      .next (c.writeSlot r v)

/-- NOP clears a previous error while leaving every operand and result register unchanged (R170, R255): from any idle state,
writing CMD = 0x00000000 and giving the engine its turn leaves STATUS = 0x00000002, CMD = 0, and everything else as it was,
PENDING with no word among it, which is deduced from R35 (assumption log 7). -/
def Obligations.NopClearsAnError : Prop :=
  ∀ s : State, s.resetAsserted = false → s.status.busy = false → s.pending = none → s.raced = [] →
    s.inputs = [.bus (busHeader true .cmd) 32 0#32, .engine] →
    ∃ t, Host.Core.run Sys2Proof.core 2 s = .next t ∧ t.readSlot .status = 0x00000002#32 ∧
      t = { s with cmd := 0#32, status := t.status, inputs := [] }

/-! ### Reset -/

/-- Asserting reset (R300, R302): every slot reads 0, PENDING is discarded and IRQ is 0. When BUSY = 0, BUF is unchanged.
Releasing it leaves the machine idle with every slot 0 (R303), and bus transactions are defined again. -/
def Obligations.ResetClearsEveryRegister : Prop :=
  ∀ (s t u : State) (rest rest' : List Input), s.inputs = .resetAssert :: rest → step s = .next t →
    (∀ r : Slot, t.readSlot r = 0#32) ∧ t.pending = none ∧ t.irq = false ∧ t.resetAsserted = true ∧ t.inputs = rest ∧
    (s.status.busy = false → t.mem = s.mem) ∧
    (t.inputs = .resetRelease :: rest' → step t = .next u →
      (∀ r : Slot, u.readSlot r = 0#32) ∧ u.pending = none ∧ u.status.busy = false ∧ u.resetAsserted = false ∧
        u.mem = t.mem)

/-- A reset while BUSY = 1 (R301): the bytes outside the destination region are unchanged, those of the source region among
them. A word of another OP than DETILE's, COPY's and SWAP's changes no memory. For those three each byte of BUF in the
destination region is a free value, whether or not the command's checks would have passed; that a byte in both regions is one
too is deduced (assumption log 10). -/
def Obligations.ResetInFlightFreesTheDestination : Prop :=
  ∀ (s t : State) (w : Word) (rest : List Input), s.inputs = .resetAssert :: rest → s.status.busy = true →
    s.pending = some w → step s = .next t →
    let op := w.toNat % 16
    let inDst := fun a => s.dstBase.toNat ≤ a ∧ a < s.dstBase.toNat + s.dstLen.toNat
    (op ≠ 2 → op ≠ 3 → op ≠ 4 → t.mem = s.mem) ∧
    (∀ a, ¬inDst a → t.mem.byte a = s.mem.byte a) ∧
    (op = 2 ∨ op = 3 ∨ op = 4 → ∀ a, inDst a → a < s.memSize →
      ∃ k, s.draws ≤ k ∧ t.mem.byte a = Config.freeByte k)

/-- A legal command issued right after reset (R304), whatever BUF holds: every operand is 0, so it ends with DONE, XLATE gives
RESULT = 0, DETILE skips nothing, and no byte of BUF moves. -/
def Obligations.CommandsRightAfterResetMoveNothing : Prop :=
  ∀ (m : Memory) (w : Word), decodeError (decodeCommand w) = none →
    ∃ t, exec (decodeCommand w) ({ State.reset with mem := m }.accept w) = .next t ∧ t.readSlot .status = 0x00000002#32 ∧
      t.mem = m ∧ t.result = 0#32 ∧ t.resultIndex = 0#32 ∧ t.skipCount = 0#32

/-! ### The host's accesses to BUF -/

/-- A host write to BUF and a host read of it (R50, R63, R302). A write changes exactly the bytes it names, and no register; of
the addresses it writes exactly those in a region of the command in flight are remembered as raced (R305 H2). A read returns
what BUF holds, but for each byte in a region of the command in flight a free value (R305 H2), and changes no register and no
byte of BUF. That a region counts as in flight only while BUSY = 1 is the model's choice (assumption log 24). -/
def Obligations.HostAccessesReachBuf : Prop :=
  (∀ (s : State) (a : Nat) (bs : List Byte) (rest : List Input), s.inputs = .bufWrite a bs :: rest →
    a + bs.length ≤ s.memSize →
    ∃ m rs, step s = .next { s with mem := m, raced := rs, inputs := rest } ∧
      (∀ b, m.byte b = if h : a ≤ b ∧ b < a + bs.length then bs[b - a]'(by omega) else s.mem.byte b) ∧
      ∀ b, b ∈ rs ↔ b ∈ s.raced ∨ (a ≤ b ∧ b < a + bs.length ∧ s.InFlightRegion b)) ∧
  ∀ (s : State) (a n : Nat) (rest : List Input), s.inputs = .bufRead a n :: rest → a + n ≤ s.memSize →
    ∃ bs d, step s = .next { s with hostBytes := bs, draws := d, inputs := rest } ∧ bs.length = n ∧
      ∀ i, i < n →
        (¬s.InFlightRegion (a + i) → bs[i]? = some (s.mem.byte (a + i))) ∧
        (s.InFlightRegion (a + i) → ∃ k, s.draws ≤ k ∧ k < d ∧ bs[i]? = some (Config.freeByte k))

/-- Hazard H2 of R305 at the end of a flight in which the host wrote bytes of the command's regions (assumption log 9), whether
the engine's turn was an event or none was left. A destination byte made from a raced source byte, or raced itself, is a free
value; SWAP makes each byte of a whole pair of the other. Every other destination byte is as the command leaves it, and every
byte outside the destination is unchanged. A command that ends with an error frees its raced destination bytes only. -/
def Obligations.RacedBytesAreFree : Prop :=
  ∀ (s t : State) (w : Word), s.status.busy = true → s.status.done = false → s.pending = some w →
    (s.inputs = [] ∨ ∃ rest, s.inputs = .engine :: rest) → step s = .next t →
    let op := w.toNat % 16
    let sb := s.srcBase.toNat
    let sl := s.srcLen.toNat
    let db := s.dstBase.toNat
    let dl := s.dstLen.toNat
    let free := fun a : Nat => ∃ k, s.draws ≤ k ∧ t.mem.byte a = Config.freeByte k
    t.raced = [] ∧
    (op ≠ 2 → op ≠ 3 → op ≠ 4 → t.mem = s.mem) ∧
    (∀ a, ¬(db ≤ a ∧ a < db + dl) → t.mem.byte a = s.mem.byte a) ∧
    (op = 2 ∨ op = 3 ∨ op = 4 → t.status.done = false → ∀ i, i < dl →
      (db + i ∈ s.raced → free (db + i)) ∧ (db + i ∉ s.raced → t.mem.byte (db + i) = s.mem.byte (db + i))) ∧
    (op = 3 → t.status.done = true → ∀ i, i < dl →
      (db + i ∈ s.raced ∨ (i < min sl dl ∧ sb + i ∈ s.raced) → free (db + i)) ∧
      (db + i ∉ s.raced → ¬(i < min sl dl ∧ sb + i ∈ s.raced) →
        t.mem.byte (db + i) = if i < min sl dl then s.mem.byte (sb + i) else s.mem.byte (db + i))) ∧
    (op = 4 → t.status.done = true → ∀ i, i < dl →
      let paired := i < 2 * (dl / 2)
      let partner := if i % 2 = 0 then i + 1 else i - 1
      (db + i ∈ s.raced ∨ (paired ∧ db + partner ∈ s.raced) → free (db + i)) ∧
      (db + i ∉ s.raced → ¬(paired ∧ db + partner ∈ s.raced) →
        t.mem.byte (db + i) = if paired then s.mem.byte (db + partner) else s.mem.byte (db + i))) ∧
    (op = 2 → t.status.done = true →
      let l := w.toNat / 16 % 16
      let bpp := 2 ^ l
      let p := s.pitch.toNat
      let T := fun x y : Nat => (s.tiled (BitVec.ofNat 32 x) (BitVec.ofNat 32 y) s.pitch l).toNat
      let fits := fun x y : Nat => x < p ∧ y < s.height.toNat ∧ T x y + bpp ≤ sl ∧ (y * p + x) * bpp + bpp ≤ dl
      (∀ x y i, fits x y → i < bpp →
        let d := db + (y * p + x) * bpp + i
        (d ∈ s.raced ∨ sb + T x y + i ∈ s.raced → free d) ∧
        (d ∉ s.raced → sb + T x y + i ∉ s.raced → t.mem.byte d = s.mem.byte (sb + T x y + i))) ∧
      ∀ i, i < dl → (∀ x y, fits x y → ¬((y * p + x) * bpp ≤ i ∧ i < (y * p + x) * bpp + bpp)) →
        (db + i ∈ s.raced → free (db + i)) ∧ (db + i ∉ s.raced → t.mem.byte (db + i) = s.mem.byte (db + i)))

/-! ### Host programs -/

/-- A pseudo-instruction on an idle machine (R176), whenever the engine takes its step: its operand writes and its command word
take effect, none dropped, no other register the host can write changes, the command runs, and the WAIT ends with the STATUS
read that returns BUSY = 0, with DONE or ERR. WAIT (R177) reads STATUS once on an idle machine; with a command in flight it ends
at the first read after the engine's step. The schedule's end is the model's choice (assumption log 28). -/
def Obligations.PseudoInstructionsRunToCompletion : Prop :=
  (∀ (p : Pseudo) (sched : Schedule) (s : State), s.resetAsserted = false → s.status.busy = false → s.raced = [] →
    let operands : List (Slot × Word) :=
      match p with
      | .xlate x y pitch _ => [(.x, x), (.y, y), (.pitch, pitch)]
      | .detile src slen dst dlen pitch height _ =>
        [(.srcBase, src), (.srcLen, slen), (.dstBase, dst), (.dstLen, dlen), (.pitch, pitch), (.height, height)]
      | .copy src slen dst dlen => [(.srcBase, src), (.srcLen, slen), (.dstBase, dst), (.dstLen, dlen)]
      | .swap dst dlen => [(.dstBase, dst), (.dstLen, dlen)]
      | .nop => []
    let word : Word :=
      match p with
      | .xlate _ _ _ l => if l = .three then 0x00000031#32 else 0x00000041#32
      | .detile _ _ _ _ _ _ l => if l = .three then 0x00000032#32 else 0x00000042#32
      | .copy _ _ _ _ => 0x00000003#32
      | .swap _ _ => 0x00000004#32
      | .nop => 0x00000000#32
    ∃ t u rest, runProgram p.lines sched s = .next (t, rest) ∧
      exec (decodeCommand word) ((operands.foldl (fun v e => v.writeSlot e.1 e.2) s).accept word) = .next u ∧
      t = { u with inputs := [], readData := t.readSlot .status } ∧
      (∀ e ∈ operands, t.readSlot e.1 = e.2) ∧
      (∀ r ∈ [Slot.x, .y, .pitch, .height, .srcBase, .srcLen, .dstBase, .dstLen, .irqEn],
        r ∉ operands.map Prod.fst → t.readSlot r = s.readSlot r) ∧
      t.cmd = word ∧ t.status.busy = false ∧ t.status.drop = false ∧ (t.status.done = true ∨ t.status.err = true)) ∧
  (∀ (sched : Schedule) (s : State), s.resetAsserted = false → s.status.busy = false →
    runProgram [.wait] sched s = .next ({ s with inputs := [], readData := s.readSlot .status }, sched.tail)) ∧
  ∀ (sched : Schedule) (s c : State), s.resetAsserted = false → s.status.busy = true →
    step { s with inputs := [] } = .next c →
    c.status.busy = false ∧
    runProgram [.wait] sched s =
      .next ({ c with readData := c.readSlot .status }, (sched.dropWhile fun engineFirst => !engineFirst).tail)

/-! ### The reference host sequence -/

/-- R216: with `skipDetile` and `skipSwap` both set the host fails with InvalidFlagCombination before any other check, and
produces no output. The machine is not touched. -/
def Obligations.BothSkipFlagsAreRejected : Prop :=
  ∀ (h : HostParams) (s : State) (f : HostFile), f.skipDetile = true → f.skipSwap = true →
    convert h s f = { warning := false, outcome := .error .invalidFlagCombination, machine := s }

/-- The format catalog and the host's errors in their order (R204, R205, R206, R216, R217, R218): after the flags come a file
shorter than its header and then an unknown tag, whose error names the twelve supported tags. A file with one of the twelve
tags has none of these errors, and the warning is surfaced for the last four; that it is surfaced whatever the levels end with
is deduced (assumption log 26). -/
def Obligations.HostErrorsComeInTheirOrder : Prop :=
  let tags : List (List Byte × Nat × Bool) :=
    [([0x44#8, 0x58#8, 0x54#8, 0x31#8], 8, false), ([0x44#8, 0x58#8, 0x54#8, 0x33#8], 16, false),
      ([0x44#8, 0x58#8, 0x54#8, 0x35#8], 16, false), ([0x41#8, 0x54#8, 0x49#8, 0x32#8], 16, false),
      ([0x42#8, 0x43#8, 0x34#8, 0x55#8], 8, false), ([0x42#8, 0x43#8, 0x34#8, 0x53#8], 8, false),
      ([0x42#8, 0x43#8, 0x35#8, 0x55#8], 16, false), ([0x42#8, 0x43#8, 0x35#8, 0x53#8], 16, false),
      ([0x52#8, 0x58#8, 0x47#8, 0x42#8], 16, true), ([0x55#8, 0x59#8, 0x56#8, 0x59#8], 16, true),
      ([0x59#8, 0x55#8, 0x59#8, 0x32#8], 16, true), ([0x41#8, 0x32#8, 0x58#8, 0x59#8], 16, true)]
  catalog.map (fun f => (f.tag, f.bytesPerBlock, f.experimental)) = tags ∧
  ∀ (h : HostParams) (s : State) (f : HostFile), ¬(f.skipDetile = true ∧ f.skipSwap = true) →
    let c := convert h s f
    let tag := (f.bytes.drop 84).take 4
    (f.bytes.length < 128 → c = { warning := false, outcome := .error .malformedContainer, machine := s }) ∧
    (128 ≤ f.bytes.length → tag ∉ tags.map Prod.fst →
      c = { warning := false, outcome := .error (.unsupportedFormat (tags.map Prod.fst)), machine := s }) ∧
    ∀ (bpp : Nat) (experimental : Bool), 128 ≤ f.bytes.length → (tag, bpp, experimental) ∈ tags →
      c.warning = experimental ∧ (c.outcome = .error .hostFault ∨ ∃ out, c.outcome = .ok out)

/-- Every conversion that succeeds keeps the header and the length of the container (R214, R215, R223). -/
def Obligations.ConversionKeepsHeaderAndLength : Prop :=
  ∀ (h : HostParams) (s : State) (f : HostFile) (out : List Byte), (convert h s f).outcome = .ok out →
    out.take 128 = f.bytes.take 128 ∧ out.length = f.bytes.length

/-- The levels the walk processes lie one after the other from payload offset 0, none reaches past the payload, and there are
no more than the header's count; the walk ends only at that count or before the first level that does not fit (R203, R210,
R211). -/
def Obligations.LevelsLieContiguously : Prop :=
  ∀ (bpp : Nat) (file : List Byte),
    let levels := fileLevels bpp file
    let len := fun k : Nat =>
      (max 1 (headerWidth file / 2 ^ k) + 3) / 4 * ((max 1 (headerHeight file / 2 ^ k) + 3) / 4) * bpp
    let off := fun k : Nat => ((List.range k).map len).sum
    levels.length ≤ headerMips file ∧
    (∀ k lv, levels[k]? = some lv → lv.off = off k ∧ lv.len = len k ∧ off k + len k ≤ file.length - 128) ∧
    (levels.length = headerMips file ∨ file.length - 128 < off levels.length + len levels.length)
end

