-- ==== Sys2Proof/Laws/Decode.lean ====
section
/-! SUPPORT. The fields of a command word and of a bus header as numbers. -/

namespace Sys2Proof

theorem append_toNat {a b : Nat} (x : BitVec a) (y : BitVec b) : (x ++ y).toNat = x.toNat * 2 ^ b + y.toNat := by
  rw [BitVec.toNat_append, Nat.shiftLeft_eq, ← Nat.shiftLeft_eq, Nat.shiftLeft_add_eq_or_of_lt y.isLt]

theorem opField_toNat (w : Word) : (opField w).toNat = w.toNat % 16 := by
  simp [opField]

theorem classField_toNat (w : Word) : (classField w).toNat = w.toNat / 16 % 16 := by
  simp [classField, Nat.shiftRight_eq_div_pow]

theorem rsvdField_toNat (w : Word) : (rsvdField w).toNat = w.toNat / 256 := by
  have := w.isLt
  simp only [rsvdField, BitVec.extractLsb'_toNat, Nat.shiftRight_eq_div_pow]
  omega

theorem commandWord_toNat (rsvd : BitVec 24) (l op : BitVec 4) :
    (commandWord rsvd l op).toNat = rsvd.toNat * 256 + l.toNat * 16 + op.toNat := by
  simp only [commandWord, append_toNat]
  omega

@[simp] theorem opField_commandWord (rsvd : BitVec 24) (l op : BitVec 4) : opField (commandWord rsvd l op) = op := by
  apply BitVec.eq_of_toNat_eq
  have := op.isLt
  rw [opField_toNat, commandWord_toNat]
  omega

@[simp] theorem classField_commandWord (rsvd : BitVec 24) (l op : BitVec 4) :
    classField (commandWord rsvd l op) = l := by
  apply BitVec.eq_of_toNat_eq
  have := op.isLt
  have := l.isLt
  rw [classField_toNat, commandWord_toNat]
  omega

@[simp] theorem rsvdField_commandWord (rsvd : BitVec 24) (l op : BitVec 4) :
    rsvdField (commandWord rsvd l op) = rsvd := by
  apply BitVec.eq_of_toNat_eq
  have := op.isLt
  have := l.isLt
  rw [rsvdField_toNat, commandWord_toNat]
  omega

/-- A word is made of its three fields. -/
theorem commandWord_fields (w : Word) : commandWord (rsvdField w) (classField w) (opField w) = w := by
  apply BitVec.eq_of_toNat_eq
  rw [commandWord_toNat, rsvdField_toNat, classField_toNat, opField_toNat]
  omega

/-- A slot has its own number. -/
@[simp] theorem Slot.ofNumber_number (r : Slot) : Slot.ofNumber r.number = r := by
  cases r <;> rfl

/-- Every number is some slot's. -/
@[simp] theorem Slot.number_ofNumber (n : BitVec 4) : (Slot.ofNumber n).number = n := by
  revert n
  decide

end Sys2Proof
end

