-- ==== Sys2Proof/Laws/Memory.lean ====
section
/-! SUPPORT. BUF: a read after a write, the canonical form kept by every operation, and what `MemRead` and `MemWrite`
can do. -/

namespace Sys2Proof.Machine

/-! ### One byte -/

theorem Memory.erase_nil (a : Nat) : Memory.erase [] a = [] := rfl

theorem Memory.erase_cons (k a : Nat) (v : Byte) (rest : Memory) :
    Memory.erase ((k, v) :: rest) a = if k = a then rest.erase a else (k, v) :: rest.erase a := by
  by_cases hk : k = a <;> simp [Memory.erase, hk]

theorem Memory.byte_erase_other (m : Memory) (a b : Nat) (h : b ≠ a) : (m.erase a).byte b = m.byte b := by
  induction m with
  | nil => rfl
  | cons c rest ih =>
    obtain ⟨k, v⟩ := c
    rw [Memory.erase_cons]
    by_cases hk : k = a
    · have : b ≠ k := hk ▸ h
      simp [hk, Memory.byte, h, ih]
    · simp [hk, Memory.byte, ih]

theorem Memory.byte_erase_same (m : Memory) (a : Nat) : (m.erase a).byte a = Config.unlistedByte := by
  induction m with
  | nil => rfl
  | cons c rest ih =>
    obtain ⟨k, v⟩ := c
    rw [Memory.erase_cons]
    by_cases hk : k = a
    · simp [hk, ih]
    · simp [hk, Memory.byte, Ne.symm hk, ih]

theorem Memory.byte_insert_other (m : Memory) (a b : Nat) (v : Byte) (h : b ≠ a) :
    (m.insert a v).byte b = m.byte b := by
  induction m with
  | nil => simp [Memory.insert, Memory.byte, h]
  | cons c rest ih =>
    obtain ⟨k, w⟩ := c
    by_cases hk : a < k <;> simp [Memory.insert, hk, Memory.byte, h, ih]

theorem Memory.byte_insert_same (m : Memory) (a : Nat) (v : Byte) (h : ∀ c ∈ m, c.1 ≠ a) :
    (m.insert a v).byte a = v := by
  induction m with
  | nil => simp [Memory.insert, Memory.byte]
  | cons c rest ih =>
    obtain ⟨k, w⟩ := c
    have hk : k ≠ a := h (k, w) (by simp)
    have hr : ∀ c ∈ rest, c.1 ≠ a := fun c hc => h c (by simp [hc])
    by_cases hlt : a < k <;> simp [Memory.insert, hlt, Memory.byte, Ne.symm hk, ih hr]

theorem Memory.erase_absent (m : Memory) (a : Nat) : ∀ c ∈ m.erase a, c.1 ≠ a := by
  intro c hc
  simpa [Memory.erase] using (List.mem_filter.mp hc).2

/-- Reading a byte after writing one. It holds of every list of cells, canonical or not. -/
@[simp] theorem Memory.byte_set (m : Memory) (a b : Nat) (v : Byte) :
    (m.set a v).byte b = if b = a then v else m.byte b := by
  unfold Memory.set
  by_cases hb : b = a
  · subst hb
    by_cases hv : v = Config.unlistedByte
    · simp [hv, Memory.byte_erase_same]
    · simp [hv, Memory.byte_insert_same _ _ _ (Memory.erase_absent m b)]
  · by_cases hv : v = Config.unlistedByte
    · simp [hv, hb, Memory.byte_erase_other]
    · simp [hv, hb, Memory.byte_erase_other, Memory.byte_insert_other]

/-! ### The canonical form -/

theorem Memory.rising_cons (lo : Option Nat) (k : Nat) (v : Byte) (rest : Memory) :
    Memory.rising lo ((k, v) :: rest) = true ↔ (∀ l, lo = some l → l < k) ∧ Memory.rising (some k) rest = true := by
  cases lo <;> simp [Memory.rising]

/-- A rising list stays rising under a lower bound. -/
theorem Memory.rising_weaken (lo hi : Option Nat) (m : Memory) (h : ∀ l, lo = some l → ∃ u, hi = some u ∧ l ≤ u)
    (hm : Memory.rising hi m = true) : Memory.rising lo m = true := by
  cases m with
  | nil => cases lo <;> rfl
  | cons c rest =>
    obtain ⟨k, v⟩ := c
    rw [Memory.rising_cons] at hm ⊢
    refine ⟨fun l hl => ?_, hm.2⟩
    obtain ⟨u, hu, hlu⟩ := h l hl
    exact Nat.lt_of_le_of_lt hlu (hm.1 u hu)

theorem Memory.rising_erase (m : Memory) (a : Nat) (lo : Option Nat) (hm : Memory.rising lo m = true) :
    Memory.rising lo (m.erase a) = true := by
  induction m generalizing lo with
  | nil => cases lo <;> rfl
  | cons c rest ih =>
    obtain ⟨k, v⟩ := c
    rw [Memory.rising_cons] at hm
    rw [Memory.erase_cons]
    by_cases hk : k = a
    · simp only [hk, if_true]
      exact Memory.rising_weaken lo (some k) _ (fun l hl => ⟨k, rfl, Nat.le_of_lt (hm.1 l hl)⟩) (ih (some k) hm.2)
    · simp only [hk, if_false]
      rw [Memory.rising_cons]
      exact ⟨hm.1, ih (some k) hm.2⟩

theorem Memory.rising_insert (m : Memory) (a : Nat) (v : Byte) (lo : Option Nat) (hm : Memory.rising lo m = true)
    (hlo : ∀ l, lo = some l → l < a) (hne : ∀ c ∈ m, c.1 ≠ a) : Memory.rising lo (m.insert a v) = true := by
  induction m generalizing lo with
  | nil => cases lo <;> simp_all [Memory.insert, Memory.rising]
  | cons c rest ih =>
    obtain ⟨k, w⟩ := c
    have hk : k ≠ a := hne (k, w) (by simp)
    rw [Memory.rising_cons] at hm
    by_cases hlt : a < k
    · simp only [Memory.insert, hlt, if_true]
      rw [Memory.rising_cons, Memory.rising_cons]
      exact ⟨hlo, by simpa using hlt, hm.2⟩
    · simp only [Memory.insert, hlt, if_false]
      rw [Memory.rising_cons]
      exact ⟨hm.1, ih (some k) hm.2 (by rintro l ⟨⟩; omega) fun c hc => hne c (by simp [hc])⟩

theorem Memory.mem_insert (m : Memory) (a : Nat) (v : Byte) (c : Host.Cell) (h : c ∈ m.insert a v) :
    c = (a, v) ∨ c ∈ m := by
  induction m with
  | nil => simpa [Memory.insert] using h
  | cons d rest ih =>
    obtain ⟨k, w⟩ := d
    by_cases hlt : a < k
    · simpa [Memory.insert, hlt] using h
    · simp only [Memory.insert, hlt, if_false, List.mem_cons] at h
      rcases h with rfl | h
      · simp
      · rcases ih h with h | h <;> simp [h]

/-- Writing a byte keeps the canonical form. -/
theorem Memory.wf_set (m : Memory) (a : Nat) (v : Byte) (h : m.wf = true) : (m.set a v).wf = true := by
  simp only [Memory.wf, Bool.and_eq_true, List.all_eq_true, decide_eq_true_eq] at h ⊢
  unfold Memory.set
  by_cases hv : v = Config.unlistedByte
  · simp only [hv, if_true]
    exact ⟨Memory.rising_erase m a none h.1, fun c hc => h.2 c (List.mem_filter.mp hc).1⟩
  · simp only [hv, if_false]
    refine ⟨Memory.rising_insert _ a v none (Memory.rising_erase m a none h.1) (by simp)
      (Memory.erase_absent m a), fun c hc => ?_⟩
    rcases Memory.mem_insert _ _ _ _ hc with rfl | hc
    · exact hv
    · exact h.2 c (List.mem_filter.mp hc).1

/-- Writing a byte of BUF lists no address outside BUF. -/
theorem Memory.within_set (size : Nat) (m : Memory) (a : Nat) (v : Byte) (h : m.within size = true) (ha : a < size) :
    (m.set a v).within size = true := by
  simp only [Memory.within, List.all_eq_true, decide_eq_true_eq] at h ⊢
  unfold Memory.set
  intro c hc
  by_cases hv : v = Config.unlistedByte
  · simp only [hv, if_true] at hc
    exact h c (List.mem_filter.mp hc).1
  · simp only [hv, if_false] at hc
    rcases Memory.mem_insert _ _ _ _ hc with rfl | hc
    · exact ha
    · exact h c (List.mem_filter.mp hc).1

theorem Memory.byte_below (m : Memory) (lo : Option Nat) (a : Nat) (hm : Memory.rising lo m = true)
    (h : ∃ l, lo = some l ∧ a ≤ l) : m.byte a = Config.unlistedByte := by
  induction m generalizing lo with
  | nil => rfl
  | cons c rest ih =>
    obtain ⟨k, v⟩ := c
    rw [Memory.rising_cons] at hm
    obtain ⟨l, hl, hal⟩ := h
    have hk := hm.1 l hl
    have : a ≠ k := by omega
    simp only [Memory.byte, this, if_false]
    exact ih (some k) hm.2 ⟨k, rfl, by omega⟩

theorem Memory.ext_rising (m n : Memory) (lm ln : Option Nat) (hm : Memory.rising lm m = true)
    (hn : Memory.rising ln n = true) (cm : ∀ c ∈ m, c.2 ≠ Config.unlistedByte)
    (cn : ∀ c ∈ n, c.2 ≠ Config.unlistedByte) (h : ∀ a, m.byte a = n.byte a) : m = n := by
  induction m generalizing n lm ln with
  | nil =>
    cases n with
    | nil => rfl
    | cons c rest =>
      obtain ⟨k, v⟩ := c
      have := h k
      simp only [Memory.byte, if_true] at this
      exact absurd this.symm (cn (k, v) (by simp))
  | cons c rest ih =>
    obtain ⟨k, v⟩ := c
    rw [Memory.rising_cons] at hm
    cases n with
    | nil =>
      have := h k
      simp only [Memory.byte, if_true] at this
      exact absurd this (cm (k, v) (by simp))
    | cons d rest' =>
      obtain ⟨j, w⟩ := d
      rw [Memory.rising_cons] at hn
      have hkj : k = j := by
        rcases Nat.lt_trichotomy k j with hlt | heq | hgt
        · have h1 := h k
          have h2 : Memory.byte rest' k = Config.unlistedByte :=
            Memory.byte_below rest' (some j) k hn.2 ⟨j, rfl, by omega⟩
          have : k ≠ j := by omega
          simp only [Memory.byte, if_true, this, if_false, h2] at h1
          exact absurd h1 (cm (k, v) (by simp))
        · exact heq
        · have h1 := h j
          have h2 : Memory.byte rest j = Config.unlistedByte :=
            Memory.byte_below rest (some k) j hm.2 ⟨k, rfl, by omega⟩
          have : j ≠ k := by omega
          simp only [Memory.byte, if_true, this, if_false, h2] at h1
          exact absurd h1.symm (cn (j, w) (by simp))
      subst hkj
      have hv : v = w := by simpa [Memory.byte] using h k
      subst hv
      congr 1
      refine ih rest' (some k) (some k) hm.2 hn.2 (fun c hc => cm c (by simp [hc])) (fun c hc => cn c (by simp [hc])) ?_
      intro a
      by_cases ha : a = k
      · subst ha
        rw [Memory.byte_below rest (some a) a hm.2 ⟨a, rfl, le_refl a⟩,
          Memory.byte_below rest' (some a) a hn.2 ⟨a, rfl, le_refl a⟩]
      · simpa [Memory.byte, ha] using h a

/-- Two canonical memories that read alike at every address are the same data. -/
theorem Memory.ext_wf (m n : Memory) (hm : m.wf = true) (hn : n.wf = true) (h : ∀ a, m.byte a = n.byte a) : m = n := by
  simp only [Memory.wf, Bool.and_eq_true, List.all_eq_true, decide_eq_true_eq] at hm hn
  exact Memory.ext_rising m n none none hm.1 hn.1 hm.2 hn.2 h

/-! ### Byte strings -/

@[simp] theorem Memory.bytes_length (m : Memory) (a n : Nat) : (m.bytes a n).length = n := by
  induction n generalizing a with
  | zero => rfl
  | succ n ih => simp [Memory.bytes, ih]

theorem Memory.bytes_getElem (m : Memory) (a n i : Nat) (h : i < (m.bytes a n).length) :
    (m.bytes a n)[i] = m.byte (a + i) := by
  induction n generalizing a i with
  | zero => simp [Memory.bytes] at h
  | succ n ih =>
    cases i with
    | zero => simp [Memory.bytes]
    | succ i =>
      simp only [Memory.bytes, List.getElem_cons_succ]
      rw [ih]
      congr 1
      omega

/-- Reading a byte after writing a byte string. -/
theorem Memory.byte_setBytes (m : Memory) (a b : Nat) (bs : List Byte) :
    (m.setBytes a bs).byte b = if h : a ≤ b ∧ b < a + bs.length then bs[b - a]'(by omega) else m.byte b := by
  induction bs generalizing m a with
  | nil =>
    have : ¬(a ≤ b ∧ b < a + ([] : List Byte).length) := by simp
    rw [dif_neg this]
    rfl
  | cons v vs ih =>
    simp only [Memory.setBytes, ih, Memory.byte_set]
    by_cases hab : b = a
    · subst hab
      simp
    · by_cases h1 : a + 1 ≤ b ∧ b < a + 1 + vs.length
      · have h2 : a ≤ b ∧ b < a + (v :: vs).length := by simp; omega
        have h3 : b - a = (b - (a + 1)) + 1 := by omega
        simp only [h1, and_self, dite_true, h2]
        simp [h3]
      · have h2 : ¬(a ≤ b ∧ b < a + (v :: vs).length) := by simp; omega
        rw [dif_neg h1, dif_neg h2, if_neg hab]

theorem Memory.wf_setBytes (m : Memory) (a : Nat) (bs : List Byte) (h : m.wf = true) :
    (m.setBytes a bs).wf = true := by
  induction bs generalizing m a with
  | nil => exact h
  | cons v vs ih => exact ih _ _ (Memory.wf_set m a v h)

theorem Memory.within_setBytes (size : Nat) (m : Memory) (a : Nat) (bs : List Byte) (h : m.within size = true)
    (ha : a + bs.length ≤ size) : (m.setBytes a bs).within size = true := by
  induction bs generalizing m a with
  | nil => exact h
  | cons v vs ih =>
    simp only [List.length_cons] at ha
    exact ih _ _ (Memory.within_set size m a v h (by omega)) (by omega)

/-! ### `MemRead` and `MemWrite` -/

/-- All that `MemRead` can do. -/
theorem memRead_ok (size : Nat) (m : Memory) (a n : Nat) (bs : List Byte) :
    memRead size m a n = .ok bs ↔ a + n ≤ size ∧ bs = m.bytes a n := by
  unfold memRead
  split
  · rename_i h
    simp [h, eq_comm]
  · rename_i h
    simp [h]

/-- All that `MemWrite` can do. -/
theorem memWrite_ok (size : Nat) (m m' : Memory) (a : Nat) (bs : List Byte) :
    memWrite size m a bs = .ok m' ↔ a + bs.length ≤ size ∧ m' = m.setBytes a bs := by
  unfold memWrite
  split
  · rename_i h
    simp [h, eq_comm]
  · rename_i h
    simp [h]

end Sys2Proof.Machine
end

