-- ==== Sys2Proof/Laws/State.lean ====
section
/-! SUPPORT. One lemma per field per update of the state, so that no later proof unfolds a record update. -/

namespace Sys2Proof.Machine

/-! ### `State.accept` -/

@[simp] theorem State.accept_cmd (s : State) (w : Word) : (s.accept w).cmd = w := rfl
@[simp] theorem State.accept_status (s : State) (w : Word) : (s.accept w).status = Status.accepted := rfl
@[simp] theorem State.accept_x (s : State) (w : Word) : (s.accept w).x = s.x := rfl
@[simp] theorem State.accept_y (s : State) (w : Word) : (s.accept w).y = s.y := rfl
@[simp] theorem State.accept_pitch (s : State) (w : Word) : (s.accept w).pitch = s.pitch := rfl
@[simp] theorem State.accept_height (s : State) (w : Word) : (s.accept w).height = s.height := rfl
@[simp] theorem State.accept_srcBase (s : State) (w : Word) : (s.accept w).srcBase = s.srcBase := rfl
@[simp] theorem State.accept_srcLen (s : State) (w : Word) : (s.accept w).srcLen = s.srcLen := rfl
@[simp] theorem State.accept_dstBase (s : State) (w : Word) : (s.accept w).dstBase = s.dstBase := rfl
@[simp] theorem State.accept_dstLen (s : State) (w : Word) : (s.accept w).dstLen = s.dstLen := rfl
@[simp] theorem State.accept_result (s : State) (w : Word) : (s.accept w).result = s.result := rfl
@[simp] theorem State.accept_resultIndex (s : State) (w : Word) : (s.accept w).resultIndex = s.resultIndex := rfl
@[simp] theorem State.accept_skipCount (s : State) (w : Word) : (s.accept w).skipCount = s.skipCount := rfl
@[simp] theorem State.accept_irqEn (s : State) (w : Word) : (s.accept w).irqEn = s.irqEn := rfl
@[simp] theorem State.accept_pending (s : State) (w : Word) : (s.accept w).pending = some w := rfl
@[simp] theorem State.accept_resetAsserted (s : State) (w : Word) : (s.accept w).resetAsserted = s.resetAsserted := rfl
@[simp] theorem State.accept_memSize (s : State) (w : Word) : (s.accept w).memSize = s.memSize := rfl
@[simp] theorem State.accept_translator (s : State) (w : Word) : (s.accept w).translator = s.translator := rfl
@[simp] theorem State.accept_mem (s : State) (w : Word) : (s.accept w).mem = s.mem := rfl
@[simp] theorem State.accept_inputs (s : State) (w : Word) : (s.accept w).inputs = s.inputs := rfl
@[simp] theorem State.accept_readData (s : State) (w : Word) : (s.accept w).readData = s.readData := rfl
@[simp] theorem State.accept_hostBytes (s : State) (w : Word) : (s.accept w).hostBytes = s.hostBytes := rfl
@[simp] theorem State.accept_raced (s : State) (w : Word) : (s.accept w).raced = s.raced := rfl
@[simp] theorem State.accept_draws (s : State) (w : Word) : (s.accept w).draws = s.draws := rfl

/-! ### `State.completeDone` -/

@[simp] theorem State.completeDone_cmd (s : State) : s.completeDone.cmd = s.cmd := rfl
@[simp] theorem State.completeDone_status (s : State) : s.completeDone.status = s.status.completedDone := rfl
@[simp] theorem State.completeDone_x (s : State) : s.completeDone.x = s.x := rfl
@[simp] theorem State.completeDone_y (s : State) : s.completeDone.y = s.y := rfl
@[simp] theorem State.completeDone_pitch (s : State) : s.completeDone.pitch = s.pitch := rfl
@[simp] theorem State.completeDone_height (s : State) : s.completeDone.height = s.height := rfl
@[simp] theorem State.completeDone_srcBase (s : State) : s.completeDone.srcBase = s.srcBase := rfl
@[simp] theorem State.completeDone_srcLen (s : State) : s.completeDone.srcLen = s.srcLen := rfl
@[simp] theorem State.completeDone_dstBase (s : State) : s.completeDone.dstBase = s.dstBase := rfl
@[simp] theorem State.completeDone_dstLen (s : State) : s.completeDone.dstLen = s.dstLen := rfl
@[simp] theorem State.completeDone_result (s : State) : s.completeDone.result = s.result := rfl
@[simp] theorem State.completeDone_resultIndex (s : State) : s.completeDone.resultIndex = s.resultIndex := rfl
@[simp] theorem State.completeDone_skipCount (s : State) : s.completeDone.skipCount = s.skipCount := rfl
@[simp] theorem State.completeDone_irqEn (s : State) : s.completeDone.irqEn = s.irqEn := rfl
@[simp] theorem State.completeDone_pending (s : State) : s.completeDone.pending = none := rfl
@[simp] theorem State.completeDone_resetAsserted (s : State) : s.completeDone.resetAsserted = s.resetAsserted := rfl
@[simp] theorem State.completeDone_memSize (s : State) : s.completeDone.memSize = s.memSize := rfl
@[simp] theorem State.completeDone_translator (s : State) : s.completeDone.translator = s.translator := rfl
@[simp] theorem State.completeDone_mem (s : State) : s.completeDone.mem = s.mem := rfl
@[simp] theorem State.completeDone_inputs (s : State) : s.completeDone.inputs = s.inputs := rfl
@[simp] theorem State.completeDone_readData (s : State) : s.completeDone.readData = s.readData := rfl
@[simp] theorem State.completeDone_hostBytes (s : State) : s.completeDone.hostBytes = s.hostBytes := rfl
@[simp] theorem State.completeDone_raced (s : State) : s.completeDone.raced = s.raced := rfl
@[simp] theorem State.completeDone_draws (s : State) : s.completeDone.draws = s.draws := rfl

/-! ### `State.completeErr` -/

@[simp] theorem State.completeErr_cmd (s : State) (e : ErrCode) : (s.completeErr e).cmd = s.cmd := rfl
@[simp] theorem State.completeErr_status (s : State) (e : ErrCode) : (s.completeErr e).status = s.status.completedErr e := rfl
@[simp] theorem State.completeErr_x (s : State) (e : ErrCode) : (s.completeErr e).x = s.x := rfl
@[simp] theorem State.completeErr_y (s : State) (e : ErrCode) : (s.completeErr e).y = s.y := rfl
@[simp] theorem State.completeErr_pitch (s : State) (e : ErrCode) : (s.completeErr e).pitch = s.pitch := rfl
@[simp] theorem State.completeErr_height (s : State) (e : ErrCode) : (s.completeErr e).height = s.height := rfl
@[simp] theorem State.completeErr_srcBase (s : State) (e : ErrCode) : (s.completeErr e).srcBase = s.srcBase := rfl
@[simp] theorem State.completeErr_srcLen (s : State) (e : ErrCode) : (s.completeErr e).srcLen = s.srcLen := rfl
@[simp] theorem State.completeErr_dstBase (s : State) (e : ErrCode) : (s.completeErr e).dstBase = s.dstBase := rfl
@[simp] theorem State.completeErr_dstLen (s : State) (e : ErrCode) : (s.completeErr e).dstLen = s.dstLen := rfl
@[simp] theorem State.completeErr_result (s : State) (e : ErrCode) : (s.completeErr e).result = s.result := rfl
@[simp] theorem State.completeErr_resultIndex (s : State) (e : ErrCode) : (s.completeErr e).resultIndex = s.resultIndex := rfl
@[simp] theorem State.completeErr_skipCount (s : State) (e : ErrCode) : (s.completeErr e).skipCount = s.skipCount := rfl
@[simp] theorem State.completeErr_irqEn (s : State) (e : ErrCode) : (s.completeErr e).irqEn = s.irqEn := rfl
@[simp] theorem State.completeErr_pending (s : State) (e : ErrCode) : (s.completeErr e).pending = none := rfl
@[simp] theorem State.completeErr_resetAsserted (s : State) (e : ErrCode) : (s.completeErr e).resetAsserted = s.resetAsserted := rfl
@[simp] theorem State.completeErr_memSize (s : State) (e : ErrCode) : (s.completeErr e).memSize = s.memSize := rfl
@[simp] theorem State.completeErr_translator (s : State) (e : ErrCode) : (s.completeErr e).translator = s.translator := rfl
@[simp] theorem State.completeErr_mem (s : State) (e : ErrCode) : (s.completeErr e).mem = s.mem := rfl
@[simp] theorem State.completeErr_inputs (s : State) (e : ErrCode) : (s.completeErr e).inputs = s.inputs := rfl
@[simp] theorem State.completeErr_readData (s : State) (e : ErrCode) : (s.completeErr e).readData = s.readData := rfl
@[simp] theorem State.completeErr_hostBytes (s : State) (e : ErrCode) : (s.completeErr e).hostBytes = s.hostBytes := rfl
@[simp] theorem State.completeErr_raced (s : State) (e : ErrCode) : (s.completeErr e).raced = s.raced := rfl
@[simp] theorem State.completeErr_draws (s : State) (e : ErrCode) : (s.completeErr e).draws = s.draws := rfl

/-! ### `State.dropWrite` -/

@[simp] theorem State.dropWrite_cmd (s : State) : s.dropWrite.cmd = s.cmd := rfl
@[simp] theorem State.dropWrite_status (s : State) : s.dropWrite.status = s.status.dropped := rfl
@[simp] theorem State.dropWrite_x (s : State) : s.dropWrite.x = s.x := rfl
@[simp] theorem State.dropWrite_y (s : State) : s.dropWrite.y = s.y := rfl
@[simp] theorem State.dropWrite_pitch (s : State) : s.dropWrite.pitch = s.pitch := rfl
@[simp] theorem State.dropWrite_height (s : State) : s.dropWrite.height = s.height := rfl
@[simp] theorem State.dropWrite_srcBase (s : State) : s.dropWrite.srcBase = s.srcBase := rfl
@[simp] theorem State.dropWrite_srcLen (s : State) : s.dropWrite.srcLen = s.srcLen := rfl
@[simp] theorem State.dropWrite_dstBase (s : State) : s.dropWrite.dstBase = s.dstBase := rfl
@[simp] theorem State.dropWrite_dstLen (s : State) : s.dropWrite.dstLen = s.dstLen := rfl
@[simp] theorem State.dropWrite_result (s : State) : s.dropWrite.result = s.result := rfl
@[simp] theorem State.dropWrite_resultIndex (s : State) : s.dropWrite.resultIndex = s.resultIndex := rfl
@[simp] theorem State.dropWrite_skipCount (s : State) : s.dropWrite.skipCount = s.skipCount := rfl
@[simp] theorem State.dropWrite_irqEn (s : State) : s.dropWrite.irqEn = s.irqEn := rfl
@[simp] theorem State.dropWrite_pending (s : State) : s.dropWrite.pending = s.pending := rfl
@[simp] theorem State.dropWrite_resetAsserted (s : State) : s.dropWrite.resetAsserted = s.resetAsserted := rfl
@[simp] theorem State.dropWrite_memSize (s : State) : s.dropWrite.memSize = s.memSize := rfl
@[simp] theorem State.dropWrite_translator (s : State) : s.dropWrite.translator = s.translator := rfl
@[simp] theorem State.dropWrite_mem (s : State) : s.dropWrite.mem = s.mem := rfl
@[simp] theorem State.dropWrite_inputs (s : State) : s.dropWrite.inputs = s.inputs := rfl
@[simp] theorem State.dropWrite_readData (s : State) : s.dropWrite.readData = s.readData := rfl
@[simp] theorem State.dropWrite_hostBytes (s : State) : s.dropWrite.hostBytes = s.hostBytes := rfl
@[simp] theorem State.dropWrite_raced (s : State) : s.dropWrite.raced = s.raced := rfl
@[simp] theorem State.dropWrite_draws (s : State) : s.dropWrite.draws = s.draws := rfl

/-! ### `State.translated` -/

@[simp] theorem State.translated_cmd (s : State) (T : Word → Word → Word → Nat → Word) (l : BitVec 4) : (s.translated T l).cmd = s.cmd := rfl
@[simp] theorem State.translated_status (s : State) (T : Word → Word → Word → Nat → Word) (l : BitVec 4) : (s.translated T l).status = s.status := rfl
@[simp] theorem State.translated_x (s : State) (T : Word → Word → Word → Nat → Word) (l : BitVec 4) : (s.translated T l).x = s.x := rfl
@[simp] theorem State.translated_y (s : State) (T : Word → Word → Word → Nat → Word) (l : BitVec 4) : (s.translated T l).y = s.y := rfl
@[simp] theorem State.translated_pitch (s : State) (T : Word → Word → Word → Nat → Word) (l : BitVec 4) : (s.translated T l).pitch = s.pitch := rfl
@[simp] theorem State.translated_height (s : State) (T : Word → Word → Word → Nat → Word) (l : BitVec 4) : (s.translated T l).height = s.height := rfl
@[simp] theorem State.translated_srcBase (s : State) (T : Word → Word → Word → Nat → Word) (l : BitVec 4) : (s.translated T l).srcBase = s.srcBase := rfl
@[simp] theorem State.translated_srcLen (s : State) (T : Word → Word → Word → Nat → Word) (l : BitVec 4) : (s.translated T l).srcLen = s.srcLen := rfl
@[simp] theorem State.translated_dstBase (s : State) (T : Word → Word → Word → Nat → Word) (l : BitVec 4) : (s.translated T l).dstBase = s.dstBase := rfl
@[simp] theorem State.translated_dstLen (s : State) (T : Word → Word → Word → Nat → Word) (l : BitVec 4) : (s.translated T l).dstLen = s.dstLen := rfl
@[simp] theorem State.translated_result (s : State) (T : Word → Word → Word → Nat → Word) (l : BitVec 4) : (s.translated T l).result = T s.x s.y s.pitch l.toNat := rfl
@[simp] theorem State.translated_resultIndex (s : State) (T : Word → Word → Word → Nat → Word) (l : BitVec 4) : (s.translated T l).resultIndex = T s.x s.y s.pitch l.toNat >>> l.toNat := rfl
@[simp] theorem State.translated_skipCount (s : State) (T : Word → Word → Word → Nat → Word) (l : BitVec 4) : (s.translated T l).skipCount = s.skipCount := rfl
@[simp] theorem State.translated_irqEn (s : State) (T : Word → Word → Word → Nat → Word) (l : BitVec 4) : (s.translated T l).irqEn = s.irqEn := rfl
@[simp] theorem State.translated_pending (s : State) (T : Word → Word → Word → Nat → Word) (l : BitVec 4) : (s.translated T l).pending = s.pending := rfl
@[simp] theorem State.translated_resetAsserted (s : State) (T : Word → Word → Word → Nat → Word) (l : BitVec 4) : (s.translated T l).resetAsserted = s.resetAsserted := rfl
@[simp] theorem State.translated_memSize (s : State) (T : Word → Word → Word → Nat → Word) (l : BitVec 4) : (s.translated T l).memSize = s.memSize := rfl
@[simp] theorem State.translated_translator (s : State) (T : Word → Word → Word → Nat → Word) (l : BitVec 4) : (s.translated T l).translator = s.translator := rfl
@[simp] theorem State.translated_mem (s : State) (T : Word → Word → Word → Nat → Word) (l : BitVec 4) : (s.translated T l).mem = s.mem := rfl
@[simp] theorem State.translated_inputs (s : State) (T : Word → Word → Word → Nat → Word) (l : BitVec 4) : (s.translated T l).inputs = s.inputs := rfl
@[simp] theorem State.translated_readData (s : State) (T : Word → Word → Word → Nat → Word) (l : BitVec 4) : (s.translated T l).readData = s.readData := rfl
@[simp] theorem State.translated_hostBytes (s : State) (T : Word → Word → Word → Nat → Word) (l : BitVec 4) : (s.translated T l).hostBytes = s.hostBytes := rfl
@[simp] theorem State.translated_raced (s : State) (T : Word → Word → Word → Nat → Word) (l : BitVec 4) : (s.translated T l).raced = s.raced := rfl
@[simp] theorem State.translated_draws (s : State) (T : Word → Word → Word → Nat → Word) (l : BitVec 4) : (s.translated T l).draws = s.draws := rfl

/-! ### `State.drawAt` -/

@[simp] theorem State.drawAt_cmd (s : State) (a : Nat) : (s.drawAt a).cmd = s.cmd := rfl
@[simp] theorem State.drawAt_status (s : State) (a : Nat) : (s.drawAt a).status = s.status := rfl
@[simp] theorem State.drawAt_x (s : State) (a : Nat) : (s.drawAt a).x = s.x := rfl
@[simp] theorem State.drawAt_y (s : State) (a : Nat) : (s.drawAt a).y = s.y := rfl
@[simp] theorem State.drawAt_pitch (s : State) (a : Nat) : (s.drawAt a).pitch = s.pitch := rfl
@[simp] theorem State.drawAt_height (s : State) (a : Nat) : (s.drawAt a).height = s.height := rfl
@[simp] theorem State.drawAt_srcBase (s : State) (a : Nat) : (s.drawAt a).srcBase = s.srcBase := rfl
@[simp] theorem State.drawAt_srcLen (s : State) (a : Nat) : (s.drawAt a).srcLen = s.srcLen := rfl
@[simp] theorem State.drawAt_dstBase (s : State) (a : Nat) : (s.drawAt a).dstBase = s.dstBase := rfl
@[simp] theorem State.drawAt_dstLen (s : State) (a : Nat) : (s.drawAt a).dstLen = s.dstLen := rfl
@[simp] theorem State.drawAt_result (s : State) (a : Nat) : (s.drawAt a).result = s.result := rfl
@[simp] theorem State.drawAt_resultIndex (s : State) (a : Nat) : (s.drawAt a).resultIndex = s.resultIndex := rfl
@[simp] theorem State.drawAt_skipCount (s : State) (a : Nat) : (s.drawAt a).skipCount = s.skipCount := rfl
@[simp] theorem State.drawAt_irqEn (s : State) (a : Nat) : (s.drawAt a).irqEn = s.irqEn := rfl
@[simp] theorem State.drawAt_pending (s : State) (a : Nat) : (s.drawAt a).pending = s.pending := rfl
@[simp] theorem State.drawAt_resetAsserted (s : State) (a : Nat) : (s.drawAt a).resetAsserted = s.resetAsserted := rfl
@[simp] theorem State.drawAt_memSize (s : State) (a : Nat) : (s.drawAt a).memSize = s.memSize := rfl
@[simp] theorem State.drawAt_translator (s : State) (a : Nat) : (s.drawAt a).translator = s.translator := rfl
@[simp] theorem State.drawAt_mem (s : State) (a : Nat) : (s.drawAt a).mem = s.mem.set a (Config.freeByte s.draws) := rfl
@[simp] theorem State.drawAt_inputs (s : State) (a : Nat) : (s.drawAt a).inputs = s.inputs := rfl
@[simp] theorem State.drawAt_readData (s : State) (a : Nat) : (s.drawAt a).readData = s.readData := rfl
@[simp] theorem State.drawAt_hostBytes (s : State) (a : Nat) : (s.drawAt a).hostBytes = s.hostBytes := rfl
@[simp] theorem State.drawAt_raced (s : State) (a : Nat) : (s.drawAt a).raced = s.raced := rfl
@[simp] theorem State.drawAt_draws (s : State) (a : Nat) : (s.drawAt a).draws = s.draws + 1 := rfl

/-! ### `State.resetRegisters` -/

@[simp] theorem State.resetRegisters_cmd (s : State) : s.resetRegisters.cmd = 0#32 := rfl
@[simp] theorem State.resetRegisters_status (s : State) : s.resetRegisters.status = Status.reset := rfl
@[simp] theorem State.resetRegisters_x (s : State) : s.resetRegisters.x = 0#32 := rfl
@[simp] theorem State.resetRegisters_y (s : State) : s.resetRegisters.y = 0#32 := rfl
@[simp] theorem State.resetRegisters_pitch (s : State) : s.resetRegisters.pitch = 0#32 := rfl
@[simp] theorem State.resetRegisters_height (s : State) : s.resetRegisters.height = 0#32 := rfl
@[simp] theorem State.resetRegisters_srcBase (s : State) : s.resetRegisters.srcBase = 0#32 := rfl
@[simp] theorem State.resetRegisters_srcLen (s : State) : s.resetRegisters.srcLen = 0#32 := rfl
@[simp] theorem State.resetRegisters_dstBase (s : State) : s.resetRegisters.dstBase = 0#32 := rfl
@[simp] theorem State.resetRegisters_dstLen (s : State) : s.resetRegisters.dstLen = 0#32 := rfl
@[simp] theorem State.resetRegisters_result (s : State) : s.resetRegisters.result = 0#32 := rfl
@[simp] theorem State.resetRegisters_resultIndex (s : State) : s.resetRegisters.resultIndex = 0#32 := rfl
@[simp] theorem State.resetRegisters_skipCount (s : State) : s.resetRegisters.skipCount = 0#32 := rfl
@[simp] theorem State.resetRegisters_irqEn (s : State) : s.resetRegisters.irqEn = false := rfl
@[simp] theorem State.resetRegisters_pending (s : State) : s.resetRegisters.pending = none := rfl
@[simp] theorem State.resetRegisters_resetAsserted (s : State) : s.resetRegisters.resetAsserted = s.resetAsserted := rfl
@[simp] theorem State.resetRegisters_memSize (s : State) : s.resetRegisters.memSize = s.memSize := rfl
@[simp] theorem State.resetRegisters_translator (s : State) : s.resetRegisters.translator = s.translator := rfl
@[simp] theorem State.resetRegisters_mem (s : State) : s.resetRegisters.mem = s.mem := rfl
@[simp] theorem State.resetRegisters_inputs (s : State) : s.resetRegisters.inputs = s.inputs := rfl
@[simp] theorem State.resetRegisters_readData (s : State) : s.resetRegisters.readData = s.readData := rfl
@[simp] theorem State.resetRegisters_hostBytes (s : State) : s.resetRegisters.hostBytes = s.hostBytes := rfl
@[simp] theorem State.resetRegisters_raced (s : State) : s.resetRegisters.raced = s.raced := rfl
@[simp] theorem State.resetRegisters_draws (s : State) : s.resetRegisters.draws = s.draws := rfl

/-! ### `State.withInputs` -/

@[simp] theorem State.withInputs_cmd (s : State) (es : List Input) : (s.withInputs es).cmd = s.cmd := rfl
@[simp] theorem State.withInputs_status (s : State) (es : List Input) : (s.withInputs es).status = s.status := rfl
@[simp] theorem State.withInputs_x (s : State) (es : List Input) : (s.withInputs es).x = s.x := rfl
@[simp] theorem State.withInputs_y (s : State) (es : List Input) : (s.withInputs es).y = s.y := rfl
@[simp] theorem State.withInputs_pitch (s : State) (es : List Input) : (s.withInputs es).pitch = s.pitch := rfl
@[simp] theorem State.withInputs_height (s : State) (es : List Input) : (s.withInputs es).height = s.height := rfl
@[simp] theorem State.withInputs_srcBase (s : State) (es : List Input) : (s.withInputs es).srcBase = s.srcBase := rfl
@[simp] theorem State.withInputs_srcLen (s : State) (es : List Input) : (s.withInputs es).srcLen = s.srcLen := rfl
@[simp] theorem State.withInputs_dstBase (s : State) (es : List Input) : (s.withInputs es).dstBase = s.dstBase := rfl
@[simp] theorem State.withInputs_dstLen (s : State) (es : List Input) : (s.withInputs es).dstLen = s.dstLen := rfl
@[simp] theorem State.withInputs_result (s : State) (es : List Input) : (s.withInputs es).result = s.result := rfl
@[simp] theorem State.withInputs_resultIndex (s : State) (es : List Input) : (s.withInputs es).resultIndex = s.resultIndex := rfl
@[simp] theorem State.withInputs_skipCount (s : State) (es : List Input) : (s.withInputs es).skipCount = s.skipCount := rfl
@[simp] theorem State.withInputs_irqEn (s : State) (es : List Input) : (s.withInputs es).irqEn = s.irqEn := rfl
@[simp] theorem State.withInputs_pending (s : State) (es : List Input) : (s.withInputs es).pending = s.pending := rfl
@[simp] theorem State.withInputs_resetAsserted (s : State) (es : List Input) : (s.withInputs es).resetAsserted = s.resetAsserted := rfl
@[simp] theorem State.withInputs_memSize (s : State) (es : List Input) : (s.withInputs es).memSize = s.memSize := rfl
@[simp] theorem State.withInputs_translator (s : State) (es : List Input) : (s.withInputs es).translator = s.translator := rfl
@[simp] theorem State.withInputs_mem (s : State) (es : List Input) : (s.withInputs es).mem = s.mem := rfl
@[simp] theorem State.withInputs_inputs (s : State) (es : List Input) : (s.withInputs es).inputs = es := rfl
@[simp] theorem State.withInputs_readData (s : State) (es : List Input) : (s.withInputs es).readData = s.readData := rfl
@[simp] theorem State.withInputs_hostBytes (s : State) (es : List Input) : (s.withInputs es).hostBytes = s.hostBytes := rfl
@[simp] theorem State.withInputs_raced (s : State) (es : List Input) : (s.withInputs es).raced = s.raced := rfl
@[simp] theorem State.withInputs_draws (s : State) (es : List Input) : (s.withInputs es).draws = s.draws := rfl

/-! ### `State.writeSlot`: what no WRREG changes -/

@[simp] theorem State.writeSlot_result (s : State) (r : Slot) (v : Word) : (s.writeSlot r v).result = s.result := by
  cases r <;> rfl
@[simp] theorem State.writeSlot_resultIndex (s : State) (r : Slot) (v : Word) : (s.writeSlot r v).resultIndex = s.resultIndex := by
  cases r <;> rfl
@[simp] theorem State.writeSlot_skipCount (s : State) (r : Slot) (v : Word) : (s.writeSlot r v).skipCount = s.skipCount := by
  cases r <;> rfl
@[simp] theorem State.writeSlot_resetAsserted (s : State) (r : Slot) (v : Word) : (s.writeSlot r v).resetAsserted = s.resetAsserted := by
  cases r <;> rfl
@[simp] theorem State.writeSlot_memSize (s : State) (r : Slot) (v : Word) : (s.writeSlot r v).memSize = s.memSize := by
  cases r <;> rfl
@[simp] theorem State.writeSlot_translator (s : State) (r : Slot) (v : Word) : (s.writeSlot r v).translator = s.translator := by
  cases r <;> rfl
@[simp] theorem State.writeSlot_mem (s : State) (r : Slot) (v : Word) : (s.writeSlot r v).mem = s.mem := by
  cases r <;> rfl
@[simp] theorem State.writeSlot_inputs (s : State) (r : Slot) (v : Word) : (s.writeSlot r v).inputs = s.inputs := by
  cases r <;> rfl
@[simp] theorem State.writeSlot_readData (s : State) (r : Slot) (v : Word) : (s.writeSlot r v).readData = s.readData := by
  cases r <;> rfl
@[simp] theorem State.writeSlot_hostBytes (s : State) (r : Slot) (v : Word) : (s.writeSlot r v).hostBytes = s.hostBytes := by
  cases r <;> rfl
@[simp] theorem State.writeSlot_raced (s : State) (r : Slot) (v : Word) : (s.writeSlot r v).raced = s.raced := by
  cases r <;> rfl
@[simp] theorem State.writeSlot_draws (s : State) (r : Slot) (v : Word) : (s.writeSlot r v).draws = s.draws := by
  cases r <;> rfl

/-! ### STATUS -/

@[simp] theorem Status.completedDone_busy (st : Status) : st.completedDone.busy = false := rfl
@[simp] theorem Status.completedDone_done (st : Status) : st.completedDone.done = true := rfl
@[simp] theorem Status.completedDone_err (st : Status) : st.completedDone.err = st.err := rfl
@[simp] theorem Status.completedDone_drop (st : Status) : st.completedDone.drop = st.drop := rfl
@[simp] theorem Status.completedDone_errcode (st : Status) : st.completedDone.errcode = st.errcode := rfl
@[simp] theorem Status.completedErr_busy (st : Status) (e : ErrCode) : (st.completedErr e).busy = false := rfl
@[simp] theorem Status.completedErr_done (st : Status) (e : ErrCode) : (st.completedErr e).done = st.done := rfl
@[simp] theorem Status.completedErr_err (st : Status) (e : ErrCode) : (st.completedErr e).err = true := rfl
@[simp] theorem Status.completedErr_drop (st : Status) (e : ErrCode) : (st.completedErr e).drop = st.drop := rfl
@[simp] theorem Status.completedErr_errcode (st : Status) (e : ErrCode) : (st.completedErr e).errcode = e.code := rfl
@[simp] theorem Status.dropped_busy (st : Status) : st.dropped.busy = st.busy := rfl
@[simp] theorem Status.dropped_done (st : Status) : st.dropped.done = st.done := rfl
@[simp] theorem Status.dropped_err (st : Status) : st.dropped.err = st.err := rfl
@[simp] theorem Status.dropped_drop (st : Status) : st.dropped.drop = true := rfl
@[simp] theorem Status.dropped_errcode (st : Status) : st.dropped.errcode = st.errcode := rfl
@[simp] theorem Status.accepted_busy : Status.accepted.busy = true := rfl
@[simp] theorem Status.accepted_done : Status.accepted.done = false := rfl
@[simp] theorem Status.accepted_err : Status.accepted.err = false := rfl
@[simp] theorem Status.accepted_drop : Status.accepted.drop = false := rfl
@[simp] theorem Status.accepted_errcode : Status.accepted.errcode = 0#4 := rfl
@[simp] theorem Status.reset_busy : Status.reset.busy = false := rfl
@[simp] theorem Status.reset_done : Status.reset.done = false := rfl
@[simp] theorem Status.reset_err : Status.reset.err = false := rfl
@[simp] theorem Status.reset_drop : Status.reset.drop = false := rfl
@[simp] theorem Status.reset_errcode : Status.reset.errcode = 0#4 := rfl

/-- Every code that an error writes is one of R251's, and none is 0. -/
theorem ErrCode.code_range (e : ErrCode) : e.code ≠ 0#4 ∧ e.code.toNat ≤ 4 := by
  cases e <;> decide

/-- Two error codes with the same number are the same. -/
theorem ErrCode.code_injective (e f : ErrCode) (h : e.code = f.code) : e = f := by
  revert h
  cases e <;> cases f <;> decide

end Sys2Proof.Machine
end

