-- ==== Sys2Proof/Laws/Ops.lean ====
section
/-! SUPPORT. What the shared operations can do: the checks of R253, transfers in BUF, and the pair swap. -/

namespace Sys2Proof.Machine

/-! ### Checks -/

theorem State.runChecked_none (s : State) (r : Result) : s.runChecked none r = r := rfl

theorem State.runChecked_some (s : State) (e : ErrCode) (r : Result) :
    s.runChecked (some e) r = .next (s.completeErr e) := rfl

/-- All that a checked command can do: its effect after every check passed, or completion with the first error. -/
theorem State.runChecked_cases (s t : State) (c : Option ErrCode) (r : Result) (h : s.runChecked c r = .next t) :
    (c = none ∧ r = .next t) ∨ ∃ e, c = some e ∧ t = s.completeErr e := by
  cases c with
  | none => exact .inl ⟨rfl, h⟩
  | some e =>
    simp only [State.runChecked_some, Host.Outcome.next.injEq] at h
    exact .inr ⟨e, rfl, h.symm⟩

theorem firstError_none_iff (cs : List (Option ErrCode)) : firstError cs = none ↔ ∀ c ∈ cs, c = none := by
  induction cs with
  | nil => simp [firstError]
  | cons c rest ih => cases c <;> simp [firstError, ih]

theorem busCheck_none_iff (size : Nat) (r : Region) : busCheck size r = none ↔ r.base + r.len ≤ size := by
  simp [busCheck, Region.inBounds]

theorem busCheck_some (size : Nat) (r : Region) (h : size < r.base + r.len) : busCheck size r = some .bus := by
  simp [busCheck, Region.inBounds, h]

theorem overlaps_iff (src dst : Region) :
    src.overlaps dst = true ↔
      src.len ≠ 0 ∧ dst.len ≠ 0 ∧ src.base < dst.base + dst.len ∧ dst.base < src.base + src.len := by
  simp [Region.overlaps, and_assoc]

theorem overlapCheck_none_iff (src dst : Region) : overlapCheck src dst = none ↔ src.overlaps dst = false := by
  simp [overlapCheck]

theorem legalClass_iff (l : BitVec 4) : legalClass l = true ↔ l = 3#4 ∨ l = 4#4 := by
  simp [legalClass]

theorem fieldCheck_classed_none_iff (l : BitVec 4) (rsvd : BitVec 24) :
    fieldCheck true l rsvd = none ↔ rsvd = 0#24 ∧ (l = 3#4 ∨ l = 4#4) := by
  rw [← legalClass_iff]
  by_cases hr : rsvd = 0#24 <;> simp [fieldCheck, hr]

theorem fieldCheck_plain_none_iff (l : BitVec 4) (rsvd : BitVec 24) :
    fieldCheck false l rsvd = none ↔ rsvd = 0#24 ∧ l = 0#4 := by
  by_cases hr : rsvd = 0#24 <;> simp [fieldCheck, hr]

/-- A field check gives no code but BAD_FIELD. -/
theorem fieldCheck_some (classed : Bool) (l : BitVec 4) (rsvd : BitVec 24) (e : ErrCode)
    (h : fieldCheck classed l rsvd = some e) : e = .badField := by
  unfold fieldCheck at h
  split at h
  · simpa using h.symm
  · split at h <;> split at h <;> simp_all

theorem bytesPerBlock_legal (l : BitVec 4) (h : l = 3#4 ∨ l = 4#4) : bytesPerBlock l = 8 ∨ bytesPerBlock l = 16 := by
  rcases h with rfl | rfl
  · exact .inl rfl
  · exact .inr rfl

/-! ### Transfers -/

/-- A transfer inside BUF. -/
def Transfer.Inside (size : Nat) (t : Transfer) : Prop := t.src + t.len ≤ size ∧ t.dst + t.len ≤ size

/-- The transfer writes the byte at `a`. -/
def Transfer.Writes (t : Transfer) (a : Nat) : Prop := t.dst ≤ a ∧ a < t.dst + t.len

/-- A transfer's result. -/
def Transfer.apply (m : Memory) (t : Transfer) : Memory := m.setBytes t.dst (m.bytes t.src t.len)

/-- All that one transfer can do. -/
theorem moveBytes_ok (size : Nat) (m m' : Memory) (t : Transfer) :
    moveBytes size m t = .ok m' ↔ t.Inside size ∧ m' = Transfer.apply m t := by
  unfold moveBytes memRead memWrite Transfer.Inside Transfer.apply
  by_cases h1 : t.src + t.len ≤ size
  · by_cases h2 : t.dst + t.len ≤ size <;> simp [h1, h2, eq_comm]
  · simp [h1]

/-- All that a list of transfers can do. -/
theorem moveAll_ok (size : Nat) (ts : List Transfer) (m m' : Memory) :
    moveAll size ts m = .ok m' ↔ (∀ t ∈ ts, t.Inside size) ∧ m' = ts.foldl Transfer.apply m := by
  induction ts generalizing m with
  | nil => simp [moveAll, eq_comm]
  | cons t ts ih =>
    simp only [moveAll]
    cases hb : moveBytes size m t with
    | ok m1 =>
      rw [moveBytes_ok] at hb
      obtain ⟨hi, rfl⟩ := hb
      simp [ih, hi]
    | error f =>
      have : ¬t.Inside size := fun hi => by
        have := (moveBytes_ok size m (Transfer.apply m t) t).mpr ⟨hi, rfl⟩
        rw [hb] at this
        cases this
      simp [this]

theorem Transfer.byte_apply (m : Memory) (t : Transfer) (a : Nat) :
    (t.apply m).byte a = if t.dst ≤ a ∧ a < t.dst + t.len then m.byte (t.src + (a - t.dst)) else m.byte a := by
  unfold Transfer.apply
  rw [Memory.byte_setBytes]
  by_cases h : t.dst ≤ a ∧ a < t.dst + t.len
  · rw [dif_pos (by simpa using h), if_pos h, Memory.bytes_getElem]
  · rw [dif_neg (by simpa using h), if_neg h]

theorem Transfer.byte_apply_written (m : Memory) (t : Transfer) (a : Nat) (h : t.Writes a) :
    (t.apply m).byte a = m.byte (t.src + (a - t.dst)) :=
  (Transfer.byte_apply m t a).trans (if_pos h)

theorem Transfer.byte_apply_unwritten (m : Memory) (t : Transfer) (a : Nat) (h : ¬t.Writes a) :
    (t.apply m).byte a = m.byte a :=
  (Transfer.byte_apply m t a).trans (if_neg h)

/-- A byte that no transfer writes is unchanged. -/
theorem foldl_apply_unwritten (ts : List Transfer) (m : Memory) (a : Nat) (h : ∀ t ∈ ts, ¬t.Writes a) :
    (ts.foldl Transfer.apply m).byte a = m.byte a := by
  induction ts generalizing m with
  | nil => rfl
  | cons t ts ih =>
    rw [List.foldl_cons, ih _ fun u hu => h u (by simp [hu]),
      Transfer.byte_apply_unwritten m t a (h t (by simp))]

/-- When no transfer writes a byte that any transfer reads, and no two transfers write the same byte, a transfer's bytes
arrive as they were at the start. -/
theorem foldl_apply_written (ts : List Transfer) (m : Memory) (t : Transfer) (ht : t ∈ ts) (a : Nat) (ha : t.Writes a)
    (hsrc : ∀ u ∈ ts, ¬u.Writes (t.src + (a - t.dst))) (hdst : ∀ u ∈ ts, u.Writes a → u = t) :
    (ts.foldl Transfer.apply m).byte a = m.byte (t.src + (a - t.dst)) := by
  induction ts generalizing m with
  | nil => cases ht
  | cons u us ih =>
    have hs' : ∀ v ∈ us, ¬v.Writes (t.src + (a - t.dst)) := fun v hv => hsrc v (by simp [hv])
    have hread : ((u.apply m)).byte (t.src + (a - t.dst)) = m.byte (t.src + (a - t.dst)) :=
      Transfer.byte_apply_unwritten m u _ (hsrc u (by simp))
    rw [List.foldl_cons]
    by_cases hmem : t ∈ us
    · rw [ih (u.apply m) hmem hs' fun v hv => hdst v (by simp [hv]), hread]
    · have hut : u = t := by
        rcases List.mem_cons.mp ht with h | h
        · exact h.symm
        · exact absurd h hmem
      rw [foldl_apply_unwritten us _ a fun v hv hw => hmem (hdst v (by simp [hv]) hw ▸ hv), hut,
        Transfer.byte_apply_written m t a ha]

theorem foldl_apply_wf (ts : List Transfer) (m : Memory) (h : m.wf = true) :
    (ts.foldl Transfer.apply m).wf = true := by
  induction ts generalizing m with
  | nil => exact h
  | cons t ts ih => exact ih _ (Memory.wf_setBytes m t.dst _ h)

theorem foldl_apply_within (size : Nat) (ts : List Transfer) (m : Memory) (h : m.within size = true)
    (hi : ∀ t ∈ ts, t.Inside size) : (ts.foldl Transfer.apply m).within size = true := by
  induction ts generalizing m with
  | nil => exact h
  | cons t ts ih =>
    refine ih _ (Memory.within_setBytes size m t.dst _ h ?_) fun u hu => hi u (by simp [hu])
    simpa using (hi t (by simp)).2

/-! ### The pair swap -/

/-- The other byte of the pair that `a` is in, pairs counted from `base`. -/
def pairPartner (base a : Nat) : Nat := if (a - base) % 2 = 0 then a + 1 else a - 1

/-- All that the pair swap can do: inside BUF it exchanges the bytes of each pair and leaves every other byte alone. -/
theorem swapPairs_ok (size n a : Nat) (m : Memory) (h : a + 2 * n ≤ size) :
    ∃ m', swapPairs size n a m = .ok m' ∧
      (∀ b, m'.byte b = if a ≤ b ∧ b < a + 2 * n then m.byte (pairPartner a b) else m.byte b) ∧
      (m.wf = true → m'.wf = true) ∧ (m.within size = true → m'.within size = true) := by
  induction n generalizing a m with
  | zero =>
    refine ⟨m, rfl, fun b => ?_, id, id⟩
    have : ¬(a ≤ b ∧ b < a + 2 * 0) := by omega
    rw [if_neg this]
  | succ n ih =>
    have hr : memRead size m a 2 = .ok [m.byte a, m.byte (a + 1)] := (memRead_ok ..).mpr ⟨by omega, rfl⟩
    have hw : memWrite size m a [m.byte (a + 1), m.byte a] = .ok (m.setBytes a [m.byte (a + 1), m.byte a]) :=
      (memWrite_ok ..).mpr ⟨by simp; omega, rfl⟩
    obtain ⟨m', h1, h2, h3, h4⟩ := ih (a + 2) (m.setBytes a [m.byte (a + 1), m.byte a]) (by omega)
    refine ⟨m', ?_, fun b => ?_, fun hwf => h3 (Memory.wf_setBytes _ _ _ hwf), fun hin => h4 ?_⟩
    · simp only [swapPairs, hr, List.reverse_cons, List.reverse_nil, List.nil_append, List.cons_append, hw, h1]
    · rw [h2]
      simp only [Memory.setBytes, Memory.byte_set]
      have hp : a + 2 ≤ b → pairPartner (a + 2) b = pairPartner a b := fun hb => by
        unfold pairPartner
        have : (b - (a + 2)) % 2 = (b - a) % 2 := by omega
        rw [this]
      by_cases hb : a + 2 ≤ b ∧ b < a + 2 + 2 * n
      · have h5 : a ≤ b ∧ b < a + 2 * (n + 1) := by omega
        rw [if_pos hb, if_pos h5, hp hb.1]
        have h6 : a + 2 ≤ pairPartner a b := by
          unfold pairPartner
          split <;> omega
        rw [if_neg (by omega), if_neg (by omega)]
      · rw [if_neg hb]
        by_cases h0 : b = a
        · subst h0
          rw [if_neg (by omega), if_pos rfl, if_pos (by omega)]
          simp [pairPartner]
        · by_cases h1' : b = a + 1
          · subst h1'
            rw [if_pos rfl, if_pos (by omega)]
            simp [pairPartner]
          · rw [if_neg h1', if_neg h0, if_neg (by omega)]
    · exact Memory.within_setBytes _ _ _ _ hin (by simp; omega)

end Sys2Proof.Machine
end

