-- ==== Sys2Proof/Laws/Commands.lean ====
section
/-! SUPPORT. What each command can do: when its checks pass, its one outcome; otherwise completion with the error. -/

namespace Sys2Proof.Machine

/-! ### When the checks pass -/

theorem commandCheck_detile_none_iff (l : BitVec 4) (rsvd : BitVec 24) (s : State) :
    commandCheck (.detile l rsvd) s = none ↔
      (rsvd = 0#24 ∧ (l = 3#4 ∨ l = 4#4)) ∧ s.srcBase.toNat + s.srcLen.toNat ≤ s.memSize ∧
        s.dstBase.toNat + s.dstLen.toNat ≤ s.memSize ∧ s.srcRegion.overlaps s.dstRegion = false := by
  simp [commandCheck, decodeError, firstError_none_iff, busCheck_none_iff, overlapCheck_none_iff,
    fieldCheck_classed_none_iff, State.srcRegion, State.dstRegion]

theorem commandCheck_copy_none_iff (l : BitVec 4) (rsvd : BitVec 24) (s : State) :
    commandCheck (.copy l rsvd) s = none ↔
      (rsvd = 0#24 ∧ l = 0#4) ∧ s.srcBase.toNat + s.srcLen.toNat ≤ s.memSize ∧
        s.dstBase.toNat + s.dstLen.toNat ≤ s.memSize ∧ s.srcRegion.overlaps s.dstRegion = false := by
  simp [commandCheck, decodeError, firstError_none_iff, busCheck_none_iff, overlapCheck_none_iff,
    fieldCheck_plain_none_iff, State.srcRegion, State.dstRegion]

theorem commandCheck_swap_none_iff (l : BitVec 4) (rsvd : BitVec 24) (s : State) :
    commandCheck (.swap l rsvd) s = none ↔
      (rsvd = 0#24 ∧ l = 0#4) ∧ s.dstBase.toNat + s.dstLen.toNat ≤ s.memSize := by
  simp [commandCheck, decodeError, firstError_none_iff, busCheck_none_iff, fieldCheck_plain_none_iff, State.dstRegion]

/-- Regions that do not overlap share no byte (R57). -/
theorem not_overlaps_disjoint (src dst : Region) (h : src.overlaps dst = false) (a : Nat)
    (ha : src.base ≤ a ∧ a < src.base + src.len) : ¬(dst.base ≤ a ∧ a < dst.base + dst.len) := by
  intro hd
  have : src.overlaps dst = true := (overlaps_iff src dst).mpr (by omega)
  rw [h] at this
  cases this

/-! ### DETILE -/

theorem mem_blockGrid (p h : Nat) (b : Nat × Nat) : b ∈ blockGrid p h ↔ b.1 < p ∧ b.2 < h := by
  obtain ⟨x, y⟩ := b
  simp [blockGrid, and_comm]

theorem mem_detileTransfers (T : Word → Word → Word → Nat → Word) (l : BitVec 4) (s : State) (t : Transfer) :
    t ∈ detileTransfers T l s ↔
      ∃ b : Nat × Nat, (b.1 < s.pitch.toNat ∧ b.2 < s.height.toNat) ∧ blockFits T l s b = true ∧
        t = blockTransfer T l s b := by
  simp only [detileTransfers, List.mem_map, List.mem_filter, mem_blockGrid]
  constructor
  · rintro ⟨b, ⟨hb, hf⟩, rfl⟩
    exact ⟨b, hb, hf, rfl⟩
  · rintro ⟨b, hb, hf, rfl⟩
    exact ⟨b, ⟨hb, hf⟩, rfl⟩

theorem blockFits_iff (T : Word → Word → Word → Nat → Word) (l : BitVec 4) (s : State) (b : Nat × Nat) :
    blockFits T l s b = true ↔
      tiledBlockOffset T l s b + bytesPerBlock l ≤ s.srcLen.toNat ∧
        linearBlockOffset l s b + bytesPerBlock l ≤ s.dstLen.toNat := by
  simp [blockFits]

/-- A transferred block lies inside both regions (R131). -/
theorem detileTransfers_bounds (T : Word → Word → Word → Nat → Word) (l : BitVec 4) (s : State) (t : Transfer)
    (ht : t ∈ detileTransfers T l s) :
    (s.srcBase.toNat ≤ t.src ∧ t.src + t.len ≤ s.srcBase.toNat + s.srcLen.toNat) ∧
      (s.dstBase.toNat ≤ t.dst ∧ t.dst + t.len ≤ s.dstBase.toNat + s.dstLen.toNat) := by
  obtain ⟨b, -, hf, rfl⟩ := (mem_detileTransfers T l s t).mp ht
  rw [blockFits_iff] at hf
  simp only [blockTransfer]
  omega

/-- DETILE after its checks (R130). -/
theorem execDetile_ok (l : BitVec 4) (rsvd : BitVec 24) (s : State) (h : commandCheck (.detile l rsvd) s = none) :
    execDetile l rsvd s =
      .next { s with
        mem := (detileTransfers s.tiled l s).foldl Transfer.apply s.mem
        skipCount := BitVec.ofNat 32 (detileSkipped s.tiled l s) }.completeDone := by
  obtain ⟨-, hs, hd, -⟩ := (commandCheck_detile_none_iff l rsvd s).mp h
  have hm : moveAll s.memSize (detileTransfers s.tiled l s) s.mem =
      .ok ((detileTransfers s.tiled l s).foldl Transfer.apply s.mem) := by
    rw [moveAll_ok]
    refine ⟨fun t ht => ?_, rfl⟩
    have := detileTransfers_bounds s.tiled l s t ht
    exact ⟨by omega, by omega⟩
  simp only [execDetile, h, State.runChecked_none, hm, withMemory]

/-! ### COPY -/

/-- COPY after its checks (R135). -/
theorem execCopy_ok (l : BitVec 4) (rsvd : BitVec 24) (s : State) (h : commandCheck (.copy l rsvd) s = none) :
    execCopy l rsvd s = .next { s with mem := Transfer.apply s.mem (copyTransfer s) }.completeDone := by
  obtain ⟨-, hs, hd, -⟩ := (commandCheck_copy_none_iff l rsvd s).mp h
  have hm : moveAll s.memSize [copyTransfer s] s.mem = .ok (Transfer.apply s.mem (copyTransfer s)) := by
    rw [moveAll_ok]
    refine ⟨fun t ht => ?_, rfl⟩
    rw [List.mem_singleton.mp ht]
    constructor <;> simp only [copyTransfer] <;> omega
  simp only [execCopy, h, State.runChecked_none, hm, withMemory]

/-! ### SWAP -/

/-- SWAP after its checks (R160): each byte of the whole pairs becomes its partner, every other byte stays. -/
theorem execSwap_ok (l : BitVec 4) (rsvd : BitVec 24) (s : State) (h : commandCheck (.swap l rsvd) s = none) :
    ∃ m, execSwap l rsvd s = .next { s with mem := m }.completeDone ∧
      (∀ a, m.byte a =
        if s.dstBase.toNat ≤ a ∧ a < s.dstBase.toNat + 2 * (s.dstLen.toNat / 2)
        then s.mem.byte (pairPartner s.dstBase.toNat a) else s.mem.byte a) ∧
      (s.mem.wf = true → m.wf = true) ∧ (s.mem.within s.memSize = true → m.within s.memSize = true) := by
  obtain ⟨-, hd⟩ := (commandCheck_swap_none_iff l rsvd s).mp h
  obtain ⟨m, h1, h2, h3, h4⟩ := swapPairs_ok s.memSize (s.dstLen.toNat / 2) s.dstBase.toNat s.mem (by omega)
  refine ⟨m, ?_, h2, h3, h4⟩
  simp only [execSwap, h, State.runChecked_none, h1, withMemory]

/-! ### Every command -/

/-- All that a command can do: it ends with the first error of its checks, and then changes STATUS and PENDING only; or
every check passed, it ends with DONE, and it may have changed BUF, RESULT, RESULT_INDEX and SKIPCOUNT (R37). -/
theorem exec_command_cases (i : Instr) (s t : State) (hc : i.isCommand = true) (h : exec i s = .next t) :
    (∃ e, commandCheck i s = some e ∧ t = s.completeErr e) ∨
      (commandCheck i s = none ∧ ∃ m r ri k,
        t = { s with mem := m, result := r, resultIndex := ri, skipCount := k }.completeDone) := by
  cases i with
  | nop l rsvd =>
    rcases State.runChecked_cases _ _ _ _ h with ⟨hn, ht⟩ | he
    · cases ht
      exact .inr ⟨hn, s.mem, s.result, s.resultIndex, s.skipCount, rfl⟩
    · exact .inl he
  | xlate l rsvd =>
    rcases State.runChecked_cases _ _ _ _ h with ⟨hn, ht⟩ | he
    · cases ht
      exact .inr ⟨hn, s.mem, _, _, s.skipCount, rfl⟩
    · exact .inl he
  | detile l rsvd =>
    rcases State.runChecked_cases _ _ _ _ h with ⟨hn, -⟩ | he
    · have h' : execDetile l rsvd s = .next t := h
      rw [execDetile_ok l rsvd s hn] at h'
      cases h'
      exact .inr ⟨hn, _, s.result, s.resultIndex, _, rfl⟩
    · exact .inl he
  | copy l rsvd =>
    rcases State.runChecked_cases _ _ _ _ h with ⟨hn, -⟩ | he
    · have h' : execCopy l rsvd s = .next t := h
      rw [execCopy_ok l rsvd s hn] at h'
      cases h'
      exact .inr ⟨hn, _, s.result, s.resultIndex, s.skipCount, rfl⟩
    · exact .inl he
  | swap l rsvd =>
    rcases State.runChecked_cases _ _ _ _ h with ⟨hn, -⟩ | he
    · obtain ⟨m, hm, -⟩ := execSwap_ok l rsvd s hn
      have h' : execSwap l rsvd s = .next t := h
      rw [hm] at h'
      cases h'
      exact .inr ⟨hn, m, s.result, s.resultIndex, s.skipCount, rfl⟩
    · exact .inl he
  | reservedOp op l rsvd =>
    cases h
    exact .inl ⟨.illegalOp, rfl, rfl⟩
  | rdreg r => cases hc
  | wrreg r v => cases hc

/-- A command keeps BUF canonical and inside its size. -/
theorem exec_command_memory (i : Instr) (s t : State) (hc : i.isCommand = true) (h : exec i s = .next t) :
    (s.mem.wf = true → t.mem.wf = true) ∧ (s.mem.within s.memSize = true → t.mem.within s.memSize = true) := by
  cases hck : commandCheck i s with
  | some e =>
    rcases exec_command_cases i s t hc h with ⟨e, -, rfl⟩ | ⟨h0, -⟩
    · exact ⟨id, id⟩
    · rw [h0] at hck
      cases hck
  | none =>
    cases i with
    | nop l rsvd =>
      simp only [exec, execNop, hck, State.runChecked_none] at h
      cases h
      exact ⟨id, id⟩
    | xlate l rsvd =>
      simp only [exec, execXlate, hck, State.runChecked_none] at h
      cases h
      exact ⟨id, id⟩
    | detile l rsvd =>
      simp only [exec, execDetile_ok l rsvd s hck] at h
      cases h
      refine ⟨foldl_apply_wf _ _, fun hw => foldl_apply_within _ _ _ hw fun t ht => ?_⟩
      have := detileTransfers_bounds _ _ _ t ht
      obtain ⟨-, a, b, -⟩ := (commandCheck_detile_none_iff ..).mp hck
      exact ⟨by omega, by omega⟩
    | copy l rsvd =>
      simp only [exec, execCopy_ok l rsvd s hck] at h
      cases h
      obtain ⟨-, a, b, -⟩ := (commandCheck_copy_none_iff ..).mp hck
      refine ⟨Memory.wf_setBytes _ _ _, fun hw => Memory.within_setBytes _ _ _ _ hw ?_⟩
      simp only [copyTransfer, Memory.bytes_length]
      omega
    | swap l rsvd =>
      obtain ⟨m, h', -, h3, h4⟩ := execSwap_ok l rsvd s hck
      simp only [exec, h'] at h
      cases h
      exact ⟨h3, h4⟩
    | reservedOp op l rsvd => cases hck
    | rdreg r => cases hc
    | wrreg r v => cases hc

/-- A command does the same whatever events wait, whatever the host read last and whatever DROP is, and keeps all three. -/
theorem exec_command_other_events (i : Instr) (s c : State) (hc : i.isCommand = true) (h : exec i s = .next c)
    (es : List Input) (v : Word) (d : Bool) :
    exec i { s with inputs := es, readData := v, status := { s.status with drop := d } } =
      .next { c with inputs := es, readData := v, status := { c.status with drop := d } } := by
  cases hck : commandCheck i s with
  | some e =>
    rcases exec_command_cases i s c hc h with ⟨e', he, rfl⟩ | ⟨h0, -⟩
    · have h2 : commandCheck i { s with inputs := es, readData := v, status := { s.status with drop := d } } = some e' := by
        rw [← he]
        cases i <;> rfl
      cases i <;>
        first
        | (simp only [exec, execNop, execXlate, execDetile, execCopy, execSwap, execReservedOp, h2]; rfl)
        | cases hc
    · rw [h0] at hck
      cases hck
  | none =>
    have h2 : commandCheck i { s with inputs := es, readData := v, status := { s.status with drop := d } } = none := by
      rw [← hck]
      cases i <;> rfl
    cases i with
    | nop l rsvd =>
      simp only [exec, execNop, hck, h2, State.runChecked_none] at h ⊢
      cases h
      rfl
    | xlate l rsvd =>
      simp only [exec, execXlate, hck, h2, State.runChecked_none] at h ⊢
      cases h
      rfl
    | detile l rsvd =>
      simp only [exec, execDetile_ok l rsvd s hck] at h
      simp only [exec, execDetile_ok l rsvd _ h2]
      cases h
      rfl
    | copy l rsvd =>
      simp only [exec, execCopy_ok l rsvd s hck] at h
      simp only [exec, execCopy_ok l rsvd _ h2]
      cases h
      rfl
    | swap l rsvd =>
      simp only [exec, execSwap, hck, h2, State.runChecked_none] at h ⊢
      cases hm : swapPairs s.memSize (s.dstLen.toNat / 2) s.dstBase.toNat s.mem with
      | error f =>
        rw [hm] at h
        cases h
      | ok m =>
        rw [hm] at h
        cases h
        rfl
    | reservedOp op l rsvd => cases hck
    | rdreg r => cases hc
    | wrreg r v => cases hc

/-- A decoded command word is a command. -/
theorem decodeCommand_isCommand (w : Word) : (decodeCommand w).isCommand = true := by
  unfold decodeCommand
  split <;> rfl

end Sys2Proof.Machine
end

