-- ==== Sys2Proof/Laws/Step.lean ====
section
/-! SUPPORT. What one step can do: one lemma for the races, for reset, and for the event fetched. -/

namespace Sys2Proof.Machine

/-! ### Free bytes -/

@[simp] theorem State.drawAll_nil (s : State) : s.drawAll [] = s := rfl

/-- Drawing free bytes changes BUF and the count of draws, and nothing else. -/
theorem State.drawAll_frame (s : State) (as : List Nat) :
    ∃ m n, s.drawAll as = { s with mem := m, draws := n } := by
  induction as generalizing s with
  | nil => exact ⟨s.mem, s.draws, rfl⟩
  | cons a as ih =>
    obtain ⟨m, n, h⟩ := ih (s.drawAt a)
    exact ⟨m, n, h⟩

/-- A byte at no drawn address is unchanged. -/
theorem State.byte_drawAll_other (s : State) (as : List Nat) (b : Nat) (h : b ∉ as) :
    (s.drawAll as).mem.byte b = s.mem.byte b := by
  induction as generalizing s with
  | nil => rfl
  | cons a as ih =>
    simp only [List.mem_cons, not_or] at h
    simp only [State.drawAll]
    rw [ih _ h.2]
    simp [h.1]

/-- A byte at a drawn address is a free byte, drawn from here on. -/
theorem State.byte_drawAll_mem (s : State) (as : List Nat) (b : Nat) (h : b ∈ as) :
    ∃ k, s.draws ≤ k ∧ (s.drawAll as).mem.byte b = Config.freeByte k := by
  induction as generalizing s with
  | nil => cases h
  | cons a as ih =>
    simp only [State.drawAll]
    by_cases hb : b ∈ as
    · obtain ⟨k, hk, hv⟩ := ih (s.drawAt a) hb
      exact ⟨k, by simp at hk; omega, hv⟩
    · have hba : b = a := by
        rcases List.mem_cons.mp h with h | h
        · exact h
        · exact absurd h hb
      rw [State.byte_drawAll_other _ _ _ hb]
      exact ⟨s.draws, le_refl _, by simp [hba]⟩

theorem State.drawAll_wf (s : State) (as : List Nat) (h : s.mem.wf = true) : (s.drawAll as).mem.wf = true := by
  induction as generalizing s with
  | nil => exact h
  | cons a as ih => exact ih _ (Memory.wf_set _ _ _ h)

theorem State.drawAll_within (s : State) (as : List Nat) (size : Nat) (h : s.mem.within size = true)
    (ha : ∀ a ∈ as, a < size) : (s.drawAll as).mem.within size = true := by
  induction as generalizing s with
  | nil => exact h
  | cons a as ih =>
    exact ih _ (Memory.within_set _ _ _ _ h (ha a (by simp))) fun b hb => ha b (by simp [hb])

/-! ### Races -/

/-- A flight without races ends as the command left it. -/
theorem settle_of_no_races (i : Instr) (before : State) (r : Result) (h : before.raced = []) :
    settle i before r = r := by
  cases r <;> simp [settle, settleRaces, h]

/-- All that settling races can do: it changes BUF, the count of draws and the list of raced addresses. -/
theorem settleRaces_frame (i : Instr) (before after : State) :
    ∃ m n rs, settleRaces i before after = { after with mem := m, draws := n, raced := rs } := by
  unfold settleRaces
  cases hb : before.raced with
  | nil => exact ⟨after.mem, after.draws, after.raced, rfl⟩
  | cons a as =>
    obtain ⟨m, n, h⟩ := State.drawAll_frame after (racedBytes i before)
    simp only [h]
    exact ⟨m, n, [], rfl⟩

/-! ### Where free bytes can stand -/

/-- The addresses of the part of a region inside BUF. -/
theorem mem_clip_addresses (size : Nat) (r : Region) (a : Nat) :
    a ∈ (r.clip size).addresses ↔ (r.base ≤ a ∧ a < r.base + r.len) ∧ a < size := by
  simp only [Region.addresses, Region.clip, List.mem_map, List.mem_range]
  constructor
  · rintro ⟨i, hi, rfl⟩
    omega
  · rintro ⟨⟨h1, h2⟩, h3⟩
    exact ⟨a - r.base, by omega, by omega⟩

/-- What a command in flight has for a destination. -/
theorem destinationOf_cases (i : Instr) (s : State) : destinationOf i s = none ∨ destinationOf i s = some s.dstRegion := by
  cases i <;> first | exact .inl rfl | exact .inr rfl

/-- The bytes that a command whose checks pass writes lie inside BUF. -/
theorem byteMoves_inside (i : Instr) (s : State) (hck : commandCheck i s = none) (d : Nat × Nat)
    (h : d ∈ byteMoves i s) : d.1 < s.memSize := by
  cases i with
  | nop l rsvd => cases h
  | xlate l rsvd => cases h
  | detile l rsvd =>
    obtain ⟨-, -, b, -⟩ := (commandCheck_detile_none_iff ..).mp hck
    simp only [byteMoves, List.mem_flatMap, List.mem_map, List.mem_range] at h
    obtain ⟨t, ht, j, hj, rfl⟩ := h
    have := detileTransfers_bounds _ _ _ t ht
    simp only
    omega
  | copy l rsvd =>
    obtain ⟨-, -, b, -⟩ := (commandCheck_copy_none_iff ..).mp hck
    simp only [byteMoves, List.mem_map, List.mem_range, copyTransfer] at h
    obtain ⟨j, hj, rfl⟩ := h
    simp only
    omega
  | swap l rsvd =>
    obtain ⟨-, b⟩ := (commandCheck_swap_none_iff ..).mp hck
    simp only [byteMoves, List.mem_flatMap, List.mem_range, List.mem_cons, List.not_mem_nil, or_false] at h
    obtain ⟨j, hj, rfl | rfl⟩ := h <;> simp only <;> omega
  | reservedOp op l rsvd => cases h
  | rdreg r => cases h
  | wrreg r v => cases h

/-- The bytes that races leave unspecified lie inside BUF, when the host's writes did. -/
theorem racedBytes_inside (i : Instr) (s : State) (hr : ∀ a ∈ s.raced, a < s.memSize) :
    ∀ a ∈ racedBytes i s, a < s.memSize := by
  intro a ha
  simp only [racedBytes, List.mem_append, List.mem_filter] at ha
  rcases ha with ha | ha
  · split at ha
    · rename_i h
      simp only [List.mem_map, List.mem_filter] at ha
      obtain ⟨d, ⟨hd, -⟩, rfl⟩ := ha
      exact byteMoves_inside i s (by simpa using h) d hd
    · cases ha
  · exact hr a ha.1

/-- All that a reset leaves unspecified: bytes of BUF, in the destination region of the command in flight (R301). -/
theorem mem_abortedBytes (s : State) (a : Nat) :
    a ∈ abortedBytes s ↔
      (∃ i, s.inFlight = some i ∧ destinationOf i s = some s.dstRegion) ∧ s.dstRegion.contains a = true ∧ a < s.memSize := by
  unfold abortedBytes
  cases hi : s.inFlight with
  | none => simp
  | some i =>
    rcases destinationOf_cases i s with hd | hd <;>
      simp [hd, mem_clip_addresses, Region.contains]

/-- The bytes that a reset leaves unspecified lie inside BUF. -/
theorem abortedBytes_inside (s : State) : ∀ a ∈ abortedBytes s, a < s.memSize :=
  fun a ha => ((mem_abortedBytes s a).mp ha).2.2

/-! ### Regions of a command in flight -/

/-- The destination of a decoded word by its OP: DETILE's, COPY's and SWAP's (R82, R305 H2). -/
theorem destinationOf_decodeCommand (w : Word) (s : State) :
    destinationOf (decodeCommand w) s =
      if w.toNat % 16 = 2 ∨ w.toNat % 16 = 3 ∨ w.toNat % 16 = 4 then some s.dstRegion else none := by
  have h := opField_toNat w
  have hlt : w.toNat % 16 < 16 := Nat.mod_lt _ (by norm_num)
  unfold decodeCommand
  rw [h]
  generalize w.toNat % 16 = k at *
  interval_cases k <;> rfl

/-- The source of a decoded word by its OP: DETILE's and COPY's (R82, R305 H2). -/
theorem sourceOf_decodeCommand (w : Word) (s : State) :
    sourceOf (decodeCommand w) s = if w.toNat % 16 = 2 ∨ w.toNat % 16 = 3 then some s.srcRegion else none := by
  have h := opField_toNat w
  have hlt : w.toNat % 16 < 16 := Nat.mod_lt _ (by norm_num)
  unfold decodeCommand
  rw [h]
  generalize w.toNat % 16 = k at *
  interval_cases k <;> rfl

theorem Region.contains_iff (r : Region) (a : Nat) : r.contains a = true ↔ r.base ≤ a ∧ a < r.base + r.len := by
  simp [Region.contains]

/-- The host races exactly with the regions that R305 names. -/
theorem State.touches_iff (s : State) (a : Nat) : s.touches a = true ↔ s.InFlightRegion a := by
  unfold State.touches State.inFlight State.InFlightRegion
  cases hb : s.status.busy with
  | false => simp
  | true =>
    cases hp : s.pending with
    | none => simp
    | some w =>
      simp only [if_true, Option.map_some, true_and, Option.some.injEq, exists_eq_left', Bool.or_eq_true,
        sourceOf_decodeCommand, destinationOf_decodeCommand]
      by_cases h1 : w.toNat % 16 = 2 ∨ w.toNat % 16 = 3
      · have h2 : w.toNat % 16 = 2 ∨ w.toNat % 16 = 3 ∨ w.toNat % 16 = 4 := by omega
        rw [if_pos h1, if_pos h2]
        simp only [holds, Region.contains_iff, State.srcRegion, State.dstRegion, h1, h2, true_and]
      · by_cases h2 : w.toNat % 16 = 2 ∨ w.toNat % 16 = 3 ∨ w.toNat % 16 = 4
        · rw [if_neg h1, if_pos h2]
          simp only [holds, Region.contains_iff, State.dstRegion, h1, h2, true_and, false_and, false_or,
            Bool.false_eq_true]
        · rw [if_neg h1, if_neg h2]
          simp only [holds, h1, h2, false_and, or_self, Bool.false_eq_true]

/-! ### The end of a flight -/

/-- All that races leave unspecified: destination bytes made from a raced byte, and raced destination bytes. -/
theorem mem_racedBytes (i : Instr) (s : State) (a : Nat) :
    a ∈ racedBytes i s ↔
      (commandCheck i s = none ∧ ∃ b, (a, b) ∈ byteMoves i s ∧ (a ∈ s.raced ∨ b ∈ s.raced)) ∨
        (a ∈ s.raced ∧ holds (destinationOf i s) a = true) := by
  simp only [racedBytes, List.mem_append, List.mem_filter, Option.isNone_iff_eq_none]
  apply or_congr _ Iff.rfl
  by_cases h : commandCheck i s = none
  · simp [h]
  · simp [h]

/-- A byte of BUF after the races of a flight are settled: a free byte where a race reaches, what the command left elsewhere. -/
theorem settleRaces_byte (i : Instr) (before after : State) (a : Nat) :
    (a ∉ racedBytes i before → (settleRaces i before after).mem.byte a = after.mem.byte a) ∧
      (a ∈ racedBytes i before →
        ∃ k, after.draws ≤ k ∧ (settleRaces i before after).mem.byte a = Config.freeByte k) := by
  unfold settleRaces
  cases hr : before.raced with
  | nil =>
    refine ⟨fun _ => rfl, fun h => ?_⟩
    rw [mem_racedBytes, hr] at h
    simp at h
  | cons c cs =>
    exact ⟨State.byte_drawAll_other _ _ _, State.byte_drawAll_mem _ _ _⟩

/-! ### One step -/

/-- All that a step can do when it answers a next state: the engine runs the command in flight, a bus transaction runs, or
one of the other events happens. -/
theorem step_cases (s t : State) (h : step s = .next t) :
    (∃ w rest, (s.inputs = [] ∧ rest = [] ∨ s.inputs = .engine :: rest) ∧ s.status.busy = true ∧ s.pending = some w ∧
        settle (decodeCommand w) (s.withInputs rest) (exec (decodeCommand w) (s.withInputs rest)) =
          .next t) ∨
      (∃ rest, (s.inputs = [] ∧ rest = [] ∨ s.inputs = .engine :: rest) ∧ s.status.busy = false ∧
        t = s.withInputs rest) ∨
      (∃ header width data rest i, s.inputs = .bus header width data :: rest ∧
        decodeBus header width data = .ok i ∧ exec i (s.withInputs rest) = .next t) ∨
      (∃ a bs rest, s.inputs = .bufWrite a bs :: rest ∧ hostWrite (s.withInputs rest) a bs = .next t) ∨
      (∃ a n rest, s.inputs = .bufRead a n :: rest ∧ hostRead (s.withInputs rest) a n = .next t) ∨
      (∃ rest, s.inputs = .resetAssert :: rest ∧ t = (s.withInputs rest).assertReset) ∨
      (∃ rest, s.inputs = .resetRelease :: rest ∧ t = (s.withInputs rest).releaseReset) := by
  have engine : ∀ u : State, perform (engineTurn u) = .next t →
      (∃ w, u.status.busy = true ∧ u.pending = some w ∧
        settle (decodeCommand w) u (exec (decodeCommand w) u) = .next t) ∨ (u.status.busy = false ∧ t = u) := by
    intro u hu
    unfold engineTurn at hu
    cases hb : u.status.busy with
    | false =>
      simp only [hb, Bool.false_eq_true, if_false, perform, Host.Outcome.next.injEq] at hu
      exact .inr ⟨rfl, hu.symm⟩
    | true =>
      cases hp : u.pending with
      | none =>
        rw [hb, hp] at hu
        cases hu
      | some w =>
        rw [hb, hp] at hu
        exact .inl ⟨w, rfl, rfl, hu⟩
  unfold step fetch at h
  split at h
  · rename_i hi
    have hs : s = s.withInputs [] := by rw [← hi]; rfl
    rcases engine s h with ⟨w, hb, hp, ht⟩ | ⟨hb, ht⟩
    · exact .inl ⟨w, [], .inl ⟨hi, rfl⟩, hb, hp, hs ▸ ht⟩
    · exact .inr (.inl ⟨[], .inl ⟨hi, rfl⟩, hb, ht.trans hs⟩)
  · rename_i rest hi
    rcases engine (s.withInputs rest) h with ⟨w, hb, hp, ht⟩ | ⟨hb, ht⟩
    · exact .inl ⟨w, rest, .inr hi, hb, hp, ht⟩
    · exact .inr (.inl ⟨rest, .inr hi, hb, ht⟩)
  · rename_i header width data rest hi
    cases hd : decodeBus header width data with
    | error e =>
      simp only [busTurn, decode, hd, perform, reduceCtorEq] at h
    | ok i =>
      simp only [busTurn, decode, hd, perform] at h
      exact .inr (.inr (.inl ⟨header, width, data, rest, i, hi, hd, h⟩))
  · rename_i a bs rest hi
    exact .inr (.inr (.inr (.inl ⟨a, bs, rest, hi, h⟩)))
  · rename_i a n rest hi
    exact .inr (.inr (.inr (.inr (.inl ⟨a, n, rest, hi, h⟩))))
  · rename_i rest hi
    simp only [perform, Host.Outcome.next.injEq] at h
    exact .inr (.inr (.inr (.inr (.inr (.inl ⟨rest, hi, h.symm⟩)))))
  · rename_i rest hi
    simp only [perform, Host.Outcome.next.injEq] at h
    exact .inr (.inr (.inr (.inr (.inr (.inr ⟨rest, hi, h.symm⟩)))))

end Sys2Proof.Machine
end

