-- ==== Sys2Proof/Laws/HostAssembly.lean ====
section
/-! SUPPORT. What running a host's operation, a WAIT and a program can do: one lemma for each event, one for an operation
after the engine's turn and without it, and the ends of a WAIT. -/

namespace Sys2Proof.Machine

@[simp] theorem HostResult.andThen_next (t : State) (sched : Schedule) (f : Schedule → State → HostResult) :
    HostResult.andThen (.next (t, sched)) f = f sched t := rfl

/-! ### The host's events -/

theorem step_writeEvent (s : State) (r : Slot) (v : Word) (rest : List Input) :
    step (s.withInputs (writeEvent r v :: rest)) = execWrreg r v (s.withInputs rest) := by
  cases r <;> rfl

theorem step_readEvent (s : State) (r : Slot) (rest : List Input) :
    step (s.withInputs (readEvent r :: rest)) = execRdreg r (s.withInputs rest) := by
  cases r <;> rfl

/-- Bit 0 of STATUS is BUSY (R23). -/
theorem Status.word_busy (st : Status) : st.word.getLsbD 0 = st.busy := by
  simp only [Status.word, BitVec.getLsbD_append]
  simp

/-! ### The engine's turn -/

theorem engineTurn_idle (s : State) (h : s.status.busy = false) : engineTurn s = .event (.next s) := by
  simp [engineTurn, h]

theorem engineTurn_busy (s : State) (w : Word) (h : s.status.busy = true) (hp : s.pending = some w) :
    engineTurn s = .command (decodeCommand w) s := by
  simp [engineTurn, h, hp]

/-- The idle engine's turn passes (R264). -/
theorem step_engine_idle (s : State) (rest : List Input) (h : s.status.busy = false) :
    step (s.withInputs (.engine :: rest)) = .next (s.withInputs rest) :=
  congrArg perform (engineTurn_idle (s.withInputs rest) h)

/-- All that the engine's turn can do: nothing while the engine is idle, and else it ends the command in flight, with its
races settled. -/
theorem engineTurn_cases (s t : State) (h : perform (engineTurn s) = .next t) :
    (s.status.busy = false ∧ t = s) ∨
      ∃ w c, s.status.busy = true ∧ s.pending = some w ∧ exec (decodeCommand w) s = .next c ∧
        t = settleRaces (decodeCommand w) s c := by
  cases hb : s.status.busy with
  | false =>
    rw [engineTurn_idle s hb] at h
    exact .inl ⟨rfl, (Host.Outcome.next.inj h).symm⟩
  | true =>
    cases hp : s.pending with
    | none => simp [engineTurn, hb, hp, perform] at h
    | some w =>
      rw [engineTurn_busy s w hb hp] at h
      cases hc : exec (decodeCommand w) s with
      | fault f => simp [perform, hc, settle] at h
      | refused f => simp [perform, hc, settle] at h
      | next c =>
        simp only [perform, hc, settle, Host.Outcome.next.injEq] at h
        exact .inr ⟨w, c, rfl, rfl, hc, h.symm⟩

/-- After the engine's turn the engine is idle (R254), and the events waiting and the reset input are as before. -/
theorem engineTurn_ends (s t : State) (h : perform (engineTurn s) = .next t) :
    t.status.busy = false ∧ t.inputs = s.inputs ∧ t.resetAsserted = s.resetAsserted := by
  rcases engineTurn_cases s t h with ⟨hb, rfl⟩ | ⟨w, c, -, -, hc, rfl⟩
  · exact ⟨hb, rfl, rfl⟩
  · obtain ⟨m, n, rs, hf⟩ := settleRaces_frame (decodeCommand w) s c
    rw [hf]
    rcases exec_command_cases _ _ _ (decodeCommand_isCommand w) hc with ⟨e, -, rfl⟩ | ⟨-, _, _, _, _, rfl⟩ <;>
      exact ⟨rfl, rfl, rfl⟩

theorem State.drawAll_other (as : List Nat) (c : State) (es : List Input) (v : Word) :
    ({ c with inputs := es, readData := v } : State).drawAll as =
      { c.drawAll as with inputs := es, readData := v } := by
  induction as generalizing c with
  | nil => rfl
  | cons a as ih => exact ih (c.drawAt a)

/-- Settling races does not depend on the events waiting or on what the host read. -/
theorem settleRaces_other (i : Instr) (b a : State) (es es' : List Input) (v v' : Word) :
    settleRaces i { b with inputs := es, readData := v } { a with inputs := es', readData := v' } =
      { settleRaces i b a with inputs := es', readData := v' } := by
  have hr : racedBytes i { b with inputs := es, readData := v } = racedBytes i b := by cases i <;> rfl
  unfold settleRaces
  rw [hr]
  cases hb : b.raced with
  | nil => rfl
  | cons x xs => simp only [State.drawAll_other]

/-- The engine's turn is the same whatever events wait and whatever the host read last, and keeps both. -/
theorem engineTurn_other (s c : State) (es : List Input) (v : Word) (h : perform (engineTurn s) = .next c) :
    perform (engineTurn { s with inputs := es, readData := v }) = .next { c with inputs := es, readData := v } := by
  rcases engineTurn_cases s c h with ⟨hb, rfl⟩ | ⟨w, d, hb, hp, hc, rfl⟩
  · rw [engineTurn_idle { c with inputs := es, readData := v } hb]
    rfl
  · have hd : d.status.drop = s.status.drop := by
      rcases exec_command_cases _ _ _ (decodeCommand_isCommand w) hc with ⟨e, -, rfl⟩ | ⟨-, _, _, _, _, rfl⟩ <;> rfl
    have hx := exec_command_other_events _ _ _ (decodeCommand_isCommand w) hc es v d.status.drop
    rw [hd] at hx
    have hx' : exec (decodeCommand w) { s with inputs := es, readData := v } =
        .next { d with inputs := es, readData := v, status := { d.status with drop := s.status.drop } } := hx
    rw [← hd] at hx'
    rw [engineTurn_busy { s with inputs := es, readData := v } w hb hp]
    simp only [perform, hx', settle]
    exact congrArg Host.Outcome.next (settleRaces_other _ s d es es v v)

/-! ### One operation -/

/-- Whether the engine has the turn before the first operation of a schedule. -/
def engineFirst (sched : Schedule) : Bool := sched.head?.getD true

theorem operationEvents_eq (sched : Schedule) (e : Input) :
    operationEvents sched e = if engineFirst sched then [.engine, e] else [e] := by
  rcases sched with _ | ⟨_ | _, _⟩ <;> rfl

/-- All that an operation can do: it is the step of its event, after the engine's turn where the schedule says so. -/
theorem runOperation_cases (e : Input) (sched rest : Schedule) (s t : State)
    (h : runOperation e sched s = .next (t, rest)) :
    rest = sched.tail ∧
      ((engineFirst sched = false ∧ step (s.withInputs [e]) = .next t) ∨
        (engineFirst sched = true ∧ ∃ c, step (s.withInputs [.engine, e]) = .next c ∧ step c = .next t)) := by
  rw [runOperation, operationEvents_eq] at h
  cases hf : engineFirst sched with
  | false =>
    simp only [hf, Bool.false_eq_true, if_false, List.length_cons, List.length_nil, runSteps] at h
    cases hs : step (s.withInputs [e]) with
    | next u =>
      simp only [hs, Host.Outcome.next.injEq, Prod.mk.injEq] at h
      exact ⟨h.2.symm, .inl ⟨rfl, congrArg _ h.1⟩⟩
    | fault f => simp [hs] at h
    | refused f => simp [hs] at h
  | true =>
    simp only [hf, if_true, List.length_cons, List.length_nil, runSteps] at h
    cases hs : step (s.withInputs [.engine, e]) with
    | next c =>
      cases hu : step c with
      | next u =>
        simp only [hs, hu, Host.Outcome.next.injEq, Prod.mk.injEq] at h
        exact ⟨h.2.symm, .inr ⟨rfl, c, rfl, hu.trans (congrArg _ h.1)⟩⟩
      | fault f => simp [hs, hu] at h
      | refused f => simp [hs, hu] at h
    | fault f => simp [hs] at h
    | refused f => simp [hs] at h

/-- An operation without the engine's turn before it, and one on an idle machine, is the step of its event. -/
theorem runOperation_plain (e : Input) (sched : Schedule) (s t : State)
    (h : engineFirst sched = false ∨ s.status.busy = false) (ht : step (s.withInputs [e]) = .next t) :
    runOperation e sched s = .next (t, sched.tail) := by
  rw [runOperation, operationEvents_eq]
  cases hf : engineFirst sched with
  | false => simp [runSteps, ht]
  | true =>
    have hb : s.status.busy = false := by simpa [hf] using h
    simp [runSteps, step_engine_idle s [e] hb, ht]

/-- An operation after the engine's turn is the step of its event in the state that the turn leaves. -/
theorem runOperation_engine (e : Input) (sched : Schedule) (s c t : State) (hf : engineFirst sched = true)
    (hc : step (s.withInputs [.engine, e]) = .next c) (ht : step c = .next t) :
    runOperation e sched s = .next (t, sched.tail) := by
  rw [runOperation, operationEvents_eq]
  simp [hf, runSteps, hc, ht]

/-- A register write on an idle machine takes effect, whenever the engine has its turns. -/
theorem runOperation_write (r : Slot) (v : Word) (sched : Schedule) (s : State) (hr : s.resetAsserted = false)
    (hb : s.status.busy = false) :
    runOperation (writeEvent r v) sched s = .next ((s.withInputs []).writeSlot r v, sched.tail) := by
  apply runOperation_plain _ _ _ _ (.inr hb)
  rw [step_writeEvent, execWrreg]
  simp [State.withInputs, hr, hb]

/-- A register read without the engine's turn before it, or on an idle machine. -/
theorem runOperation_read (r : Slot) (sched : Schedule) (s : State) (hr : s.resetAsserted = false)
    (h : engineFirst sched = false ∨ s.status.busy = false) :
    runOperation (readEvent r) sched s = .next ({ s with inputs := [], readData := s.readSlot r }, sched.tail) := by
  apply runOperation_plain _ _ _ _ h
  rw [step_readEvent, execRdreg]
  cases r <;> simp [State.withInputs, hr, State.readSlot]

/-- A register read after the turn in which the engine ends its command. -/
theorem runOperation_read_engine (r : Slot) (sched : Schedule) (s c : State) (hr : s.resetAsserted = false)
    (hf : engineFirst sched = true) (hc : step (s.withInputs []) = .next c) :
    runOperation (readEvent r) sched s = .next ({ c with readData := c.readSlot r }, sched.tail) := by
  have hs := engineTurn_other _ _ [readEvent r] s.readData hc
  obtain ⟨-, hci, hra⟩ := engineTurn_ends _ _ hc
  apply runOperation_engine _ _ s _ _ hf hs
  change step ({ c with readData := s.readData }.withInputs (readEvent r :: [])) = _
  rw [step_readEvent, execRdreg]
  have hra' : c.resetAsserted = false := hra.trans hr
  have hci' : c.inputs = [] := hci
  cases r <;> simp [State.withInputs, hra', ← hci', State.readSlot]

/-! ### WAIT -/

/-- On an idle machine WAIT reads STATUS once (R177). -/
theorem runWait_idle (sched : Schedule) (s : State) (hr : s.resetAsserted = false) (hb : s.status.busy = false) :
    runWait sched s = .next ({ s with inputs := [], readData := s.readSlot .status }, sched.tail) := by
  have h := runOperation_read .status sched s hr (.inr hb)
  cases sched with
  | nil => exact h
  | cons b rest =>
    have hw : (s.readSlot .status).getLsbD 0 = false := (Status.word_busy _).trans hb
    rw [runWait, h, HostResult.andThen_next, if_neg (by rw [hw]; exact Bool.false_ne_true)]
    rfl

/-- With a command in flight WAIT ends at the first read after the engine's turn (R177). -/
theorem runWait_busy (sched : Schedule) (s c : State) (hr : s.resetAsserted = false) (hb : s.status.busy = true)
    (hc : step (s.withInputs []) = .next c) :
    runWait sched s =
      .next ({ c with readData := c.readSlot .status }, (sched.dropWhile fun engineFirst => !engineFirst).tail) := by
  induction sched generalizing s c with
  | nil => exact runOperation_read_engine .status [] s c hr rfl hc
  | cons b rest ih =>
    cases b with
    | true =>
      have hw : (c.readSlot .status).getLsbD 0 = false := (Status.word_busy _).trans (engineTurn_ends _ _ hc).1
      rw [runWait, runOperation_read_engine .status _ s c hr rfl hc, HostResult.andThen_next,
        if_neg (by rw [hw]; exact Bool.false_ne_true)]
      rfl
    | false =>
      have hw : (s.readSlot .status).getLsbD 0 = true := (Status.word_busy _).trans hb
      rw [runWait, runOperation_read .status _ s hr (.inl rfl), HostResult.andThen_next, if_pos hw]
      have hci : c.inputs = [] := (engineTurn_ends _ _ hc).2.1
      have hk := engineTurn_other _ c [] (s.readSlot .status) hc
      refine (ih { s with inputs := [], readData := s.readSlot .status } _ hr hb hk).trans ?_
      cases c
      cases hci
      rfl

/-- Wherever a WAIT ends, its last read returned BUSY = 0 (R177). -/
theorem runWait_reads_idle (sched rest : Schedule) (s t : State) (h : runWait sched s = .next (t, rest)) :
    t.readData.getLsbD 0 = false := by
  induction sched generalizing s with
  | nil =>
    rcases (runOperation_cases _ _ _ _ _ h).2 with ⟨hf, -⟩ | ⟨-, c, hc, ht⟩
    · cases hf
    · obtain ⟨hb, hi, -⟩ := engineTurn_ends _ _ hc
      have ht' : step (c.withInputs (readEvent .status :: [])) = .next t := by
        rw [← show c.inputs = [readEvent .status] from hi]
        exact ht
      rw [step_readEvent, execRdreg] at ht'
      split at ht'
      · cases ht'
      · cases ht'
        exact (Status.word_busy _).trans hb
  | cons b rest' ih =>
    rw [runWait] at h
    cases hr : runOperation (readEvent .status) (b :: rest') s with
    | fault f => rw [hr] at h; cases h
    | refused f => rw [hr] at h; cases h
    | next r =>
      rw [hr] at h
      change (if r.1.readData.getLsbD 0 = true then _ else _) = _ at h
      split at h
      · exact ih _ h
      · rename_i hn
        cases h
        exact Bool.eq_false_iff.mpr hn

end Sys2Proof.Machine
end

