-- ==== Sys2Proof/Laws/PerInstr.lean ====
section
/-! SUPPORT. Facts about every instruction as syntax, one lemma per constructor: the row of the opcode table that its
encoding falls in. -/

namespace Sys2Proof.Laws.TableRow

/-- OP of a command row (R82). -/
def opcode : Instr → Option (BitVec 4)
  | .nop _ _ => some 0#4
  | .xlate _ _ => some 1#4
  | .detile _ _ => some 2#4
  | .copy _ _ => some 3#4
  | .swap _ _ => some 4#4
  | .reservedOp op _ _ => some op
  | .rdreg _ => none
  | .wrreg _ _ => none

/-- The encoding of an instruction lies in its own row of the opcode table: a command's word has the row's OP, and a bus
transaction's header has W, OFFSET[1:0] = 00 and a 32-bit access. -/
def Statement (i : Instr) : Prop :=
  match encode i with
  | .command w => some (opField w) = opcode i
  | .bus header width _ =>
    opcode i = none ∧ width = 32 ∧ header.extractLsb' 0 2 = 0#2 ∧
      header.getLsbD 6 = (match i with | .wrreg _ _ => true | _ => false)

theorem nop (l : BitVec 4) (rsvd : BitVec 24) : Statement (.nop l rsvd) :=
  congrArg some (opField_commandWord rsvd l 0#4)

theorem xlate (l : BitVec 4) (rsvd : BitVec 24) : Statement (.xlate l rsvd) :=
  congrArg some (opField_commandWord rsvd l 1#4)

theorem detile (l : BitVec 4) (rsvd : BitVec 24) : Statement (.detile l rsvd) :=
  congrArg some (opField_commandWord rsvd l 2#4)

theorem copy (l : BitVec 4) (rsvd : BitVec 24) : Statement (.copy l rsvd) :=
  congrArg some (opField_commandWord rsvd l 3#4)

theorem swap (l : BitVec 4) (rsvd : BitVec 24) : Statement (.swap l rsvd) :=
  congrArg some (opField_commandWord rsvd l 4#4)

theorem reservedOp (op l : BitVec 4) (rsvd : BitVec 24) : Statement (.reservedOp op l rsvd) :=
  congrArg some (opField_commandWord rsvd l op)

theorem rdreg (r : Slot) : Statement (.rdreg r) := by
  cases r <;> exact ⟨rfl, rfl, rfl, rfl⟩

theorem wrreg (r : Slot) (data : Word) : Statement (.wrreg r data) := by
  cases r <;> exact ⟨rfl, rfl, rfl, rfl⟩

end Sys2Proof.Laws.TableRow
end

