-- ==== Sys2Proof/Laws/Translate.lean ====
section
/-! SUPPORT. The translator of R102 in closed form: which bit of x and y lands where, and the macro-tile term above them. -/

namespace Sys2Proof.Machine

/-! ### The parameter TILED_OFFSET -/

/-- The default translator is the formula of R102. -/
@[simp] theorem translate_default : translate Config.defaultTranslator = tiledOffset := rfl

theorem State.tiled_default (s : State) (h : s.translator = Config.defaultTranslator) : s.tiled = tiledOffset := by
  rw [State.tiled, h, translate_default]

/-- A list of rows gives each listed point the value of a function that its rows are taken from. -/
theorem translate_rows (f : Word → Word → Word → Nat → Word) (pts : List (Word × Word × Word × Nat))
    (x y p : Word) (l : Nat) (h : (x, y, p, l) ∈ pts) :
    translate (pts.map fun q =>
      { x := q.1, y := q.2.1, p := q.2.2.1, l := q.2.2.2, offset := f q.1 q.2.1 q.2.2.1 q.2.2.2 }) x y p l = f x y p l := by
  induction pts with
  | nil => cases h
  | cons q rest ih =>
    simp only [List.map_cons, translate]
    split
    · rename_i hq
      obtain ⟨h1, h2, h3, h4⟩ := hq
      rw [← h1, ← h2, ← h3, ← h4]
    · rename_i hq
      refine ih ?_
      rcases List.mem_cons.mp h with rfl | h
      · exact absurd ⟨rfl, rfl, rfl, rfl⟩ hq
      · exact h

/-- Every translator is a value of the parameter: whatever function gives the offsets for L = 3 and L = 4, some plain data
stands for it (R6, R100). -/
theorem every_translator (f : Word → Word → Word → Nat → Word) :
    ∃ rows : Config.Translator, ∀ (x y p : Word) (l : Nat), l = 3 ∨ l = 4 → translate rows x y p l = f x y p l := by
  have words : ∃ ws : List Word, ∀ w, w ∈ ws :=
    ⟨(List.range (2 ^ 32)).map (BitVec.ofNat 32), fun w =>
      List.mem_map.mpr ⟨w.toNat, List.mem_range.mpr w.isLt, by simp⟩⟩
  obtain ⟨ws, hw⟩ := words
  refine ⟨(ws ×ˢ ws ×ˢ ws ×ˢ [3, 4]).map fun q =>
    { x := q.1, y := q.2.1, p := q.2.2.1, l := q.2.2.2, offset := f q.1 q.2.1 q.2.2.1 q.2.2.2 }, fun x y p l hl => ?_⟩
  exact translate_rows f _ x y p l (by simp [List.mem_product, hw, hl])

/-! ### The bits of a word -/

/-- A field of bits, masked in place. -/
theorem Nat.and_field (n j k : Nat) : n &&& ((2 ^ k - 1) * 2 ^ j) = n / 2 ^ j % 2 ^ k * 2 ^ j := by
  apply Nat.eq_of_testBit_eq
  intro i
  rw [← Nat.shiftLeft_eq, ← Nat.shiftLeft_eq, ← Nat.shiftRight_eq_div_pow]
  simp only [Nat.testBit_and, Nat.testBit_shiftLeft, Nat.testBit_two_pow_sub_one, Nat.testBit_mod_two_pow,
    Nat.testBit_shiftRight]
  by_cases hij : i ≥ j
  · have : j + (i - j) = i := by omega
    simp [hij, this, Bool.and_comm]
  · simp [hij]

/-- Bit `i` of a word, as a number. -/
def bitOf (w : Word) (i : Nat) : Nat := w.toNat / 2 ^ i % 2

/-- The macro-tile number of R102's step 2, in nat: `(x >> 5) + (y >> 5) * (aw >> 5)`. -/
def macroTile (x y p : Word) : Nat := x.toNat / 32 + y.toNat / 32 * ((alignedPitch p).toNat / 32)

/-- Where the micro-tile bits land for L = 4. -/
def microBits4 (x y : Word) : Nat :=
  bitOf y 3 * 2 ^ 13 + bitOf y 2 * 2 ^ 12 + bitOf y 4 * 2 ^ 11 + bitOf y 1 * 2 ^ 10 + bitOf x 2 * 2 ^ 9
    + bitOf x 1 * 2 ^ 8 + (2 * bitOf y 3 + x.toNat / 8) % 4 * 2 ^ 6 + bitOf x 0 * 2 ^ 5 + bitOf y 0 * 2 ^ 4

/-- Where the micro-tile bits land for L = 3. -/
def microBits3 (x y : Word) : Nat :=
  bitOf y 3 * 2 ^ 12 + bitOf y 4 * 2 ^ 11 + bitOf y 2 * 2 ^ 10 + bitOf y 1 * 2 ^ 9 + bitOf x 2 * 2 ^ 8
    + (2 * bitOf y 3 + x.toNat / 8) % 4 * 2 ^ 6 + bitOf x 1 * 2 ^ 5 + bitOf y 0 * 2 ^ 4 + bitOf x 0 * 2 ^ 3

/-- The masks of R102, as fields. -/
theorem mask_fields (n : Nat) (hn : n < 2 ^ 32) :
    n &&& 7 = n % 8 ∧ n &&& 6 = n / 2 % 4 * 2 ∧ n &&& 8 = n / 8 % 2 * 8 ∧ n &&& 1 = n % 2 ∧
    n &&& 16 = n / 16 % 2 * 16 ∧ n &&& 3 = n % 4 ∧ n &&& 15 = n % 16 ∧ n &&& 63 = n % 64 ∧
    n &&& 448 = n / 64 % 8 * 64 ∧ n &&& 4294967280 = n / 16 * 16 ∧ n &&& 4294966784 = n / 512 * 512 ∧
    n &&& 4294967264 = n / 32 * 32 := by
  have h1 := Nat.and_field n 0 3
  have h2 := Nat.and_field n 1 2
  have h3 := Nat.and_field n 3 1
  have h4 := Nat.and_one_is_mod n
  have h5 := Nat.and_field n 4 1
  have h6 := Nat.and_field n 0 2
  have h7 := Nat.and_field n 0 4
  have h8 := Nat.and_field n 0 6
  have h9 := Nat.and_field n 6 3
  have h10 := Nat.and_field n 4 28
  have h11 := Nat.and_field n 9 23
  have h12 := Nat.and_field n 5 27
  norm_num at h1 h2 h3 h5 h6 h7 h8 h9 h10 h11 h12 hn
  refine ⟨h1, h2, h3, h4, h5, h6, h7, h8, h9, ?_, ?_, ?_⟩
  · rw [h10]; omega
  · rw [h11]; omega
  · rw [h12]; omega

/-- The pitch rounded up to a multiple of 32, modulo 2^32 (R102, step 1). -/
theorem alignedPitch_toNat (p : Word) : (alignedPitch p).toNat = (p.toNat + 31) % 2 ^ 32 / 32 * 32 := by
  unfold alignedPitch
  have h := (mask_fields ((p.toNat + 31) % 2 ^ 32) (Nat.mod_lt _ (by norm_num))).2.2.2.2.2.2.2.2.2.2.2
  simpa [BitVec.toNat_and, BitVec.toNat_add] using h

/-- The macro-tile offset (R102, step 2). -/
theorem macroOffset_toNat (x y p : Word) (l : Nat) :
    (macroOffset x y p l).toNat = macroTile x y p * 2 ^ (l + 7) % 2 ^ 32 := by
  unfold macroOffset macroTile
  simp only [BitVec.toNat_shiftLeft, BitVec.toNat_add, BitVec.toNat_mul, BitVec.toNat_ushiftRight,
    Nat.shiftLeft_eq, Nat.shiftRight_eq_div_pow]
  norm_num [Nat.add_mod, Nat.mul_mod]

/-! ### The summands of `off` and `byte` as numbers -/

theorem and_toNat_of (w m : Word) (n : Nat) (h : w.toNat &&& m.toNat = n) : (w &&& m).toNat = n := by
  rw [BitVec.toNat_and, h]

theorem shiftLeft_toNat_of (w : Word) (k n : Nat) (h : w.toNat = n) (hn : n * 2 ^ k < 2 ^ 32) :
    (w <<< k).toNat = n * 2 ^ k := by
  rw [BitVec.toNat_shiftLeft, h, Nat.shiftLeft_eq, Nat.mod_eq_of_lt hn]

theorem add_toNat_five (a b c d e : Word) :
    (a + b + c + d + e).toNat = (a.toNat + b.toNat + c.toNat + d.toNat + e.toNat) % 2 ^ 32 := by
  simp only [BitVec.toNat_add]
  omega

/-- `micro` (R102, step 3) for a class of at most 4. -/
theorem microOffset_toNat (x y : Word) (l : Nat) (hl : l ≤ 4) :
    (microOffset x y l).toNat = (x.toNat % 8 + y.toNat / 2 % 4 * 8) * 2 ^ l := by
  have hx : (x &&& 7#32).toNat = x.toNat % 8 := and_toNat_of _ _ _ (mask_fields x.toNat x.isLt).1
  have hy : (y &&& 6#32).toNat = y.toNat / 2 % 4 * 2 := and_toNat_of _ _ _ (mask_fields y.toNat y.isLt).2.1
  have hs : ((x &&& 7#32) + ((y &&& 6#32) <<< 2)).toNat = x.toNat % 8 + y.toNat / 2 % 4 * 8 := by
    rw [BitVec.toNat_add, hx, shiftLeft_toNat_of _ 2 _ hy (by omega)]
    omega
  unfold microOffset
  rw [shiftLeft_toNat_of _ l _ hs]
  have : 2 ^ l ≤ 2 ^ 4 := Nat.pow_le_pow_right (by norm_num) hl
  have h2 : x.toNat % 8 + y.toNat / 2 % 4 * 8 < 32 := by omega
  calc (x.toNat % 8 + y.toNat / 2 % 4 * 8) * 2 ^ l ≤ 31 * 2 ^ 4 := Nat.mul_le_mul (by omega) this
    _ < 2 ^ 32 := by norm_num

/-- `off` (R102, step 4a) for a class of at most 4, before its two micro summands are split. -/
theorem combinedOffset_toNat (x y p : Word) (l : Nat) (hl : l ≤ 4) :
    (combinedOffset x y p l).toNat =
      (macroTile x y p * 2 ^ (l + 7) + (microOffset x y l).toNat / 16 * 32 + (microOffset x y l).toNat % 16
        + bitOf y 3 * 2 ^ (l + 6) + bitOf y 0 * 16) % 2 ^ 32 := by
  have hmlt : (microOffset x y l).toNat < 512 := by
    rw [microOffset_toNat x y l hl]
    have : 2 ^ l ≤ 2 ^ 4 := Nat.pow_le_pow_right (by norm_num) hl
    calc (x.toNat % 8 + y.toNat / 2 % 4 * 8) * 2 ^ l ≤ 31 * 2 ^ 4 := Nat.mul_le_mul (by omega) this
      _ < 512 := by norm_num
  have hm := mask_fields (microOffset x y l).toNat (microOffset x y l).isLt
  have h1 : (microOffset x y l &&& 0xFFFFFFF0#32).toNat = (microOffset x y l).toNat / 16 * 16 :=
    and_toNat_of _ _ _ hm.2.2.2.2.2.2.2.2.2.1
  have h2 : (microOffset x y l &&& 0xF#32).toNat = (microOffset x y l).toNat % 16 :=
    and_toNat_of _ _ _ hm.2.2.2.2.2.2.1
  have h3 : (y &&& 8#32).toNat = bitOf y 3 * 8 := and_toNat_of _ _ _ (mask_fields y.toNat y.isLt).2.2.1
  have h4 : (y &&& 1#32).toNat = bitOf y 0 := by
    unfold bitOf
    rw [pow_zero, Nat.div_one]
    exact and_toNat_of _ _ _ (mask_fields y.toNat y.isLt).2.2.2.1
  have hb3 : bitOf y 3 < 2 := Nat.mod_lt _ (by norm_num)
  have hb0 : bitOf y 0 < 2 := Nat.mod_lt _ (by norm_num)
  have h3' : ((y &&& 8#32) <<< (3 + l)).toNat = bitOf y 3 * 2 ^ (l + 6) := by
    have hp : 2 ^ (3 + l) ≤ 2 ^ 7 := Nat.pow_le_pow_right (by norm_num) (by omega)
    rw [shiftLeft_toNat_of _ _ _ h3]
    · rw [mul_assoc, show (8 : Nat) = 2 ^ 3 from rfl, ← pow_add]
      congr 2
      omega
    · calc bitOf y 3 * 8 * 2 ^ (3 + l) ≤ 8 * 2 ^ 7 := Nat.mul_le_mul (by omega) hp
        _ < 2 ^ 32 := by norm_num
  unfold combinedOffset
  rw [add_toNat_five, macroOffset_toNat, shiftLeft_toNat_of _ 1 _ h1 (by omega), h2, h3',
    shiftLeft_toNat_of _ 4 _ h4 (by omega)]
  generalize macroTile x y p * 2 ^ (l + 7) = A
  generalize bitOf y 3 * 2 ^ (l + 6) = B
  omega

/-- `byte` (R102, step 4b) in terms of `off`. -/
theorem tiledOffset_of_combined (x y p : Word) (l : Nat) :
    (tiledOffset x y p l).toNat =
      ((combinedOffset x y p l).toNat / 512 * 4096 + (combinedOffset x y p l).toNat / 64 % 8 * 256
        + (combinedOffset x y p l).toNat % 64 + bitOf y 4 * 2 ^ 11 + (2 * bitOf y 3 + x.toNat / 8) % 4 * 2 ^ 6)
        % 2 ^ 32 := by
  have ho := mask_fields (combinedOffset x y p l).toNat (combinedOffset x y p l).isLt
  have h1 : (combinedOffset x y p l &&& 0xFFFFFE00#32).toNat = (combinedOffset x y p l).toNat / 512 * 512 :=
    and_toNat_of _ _ _ ho.2.2.2.2.2.2.2.2.2.2.1
  have h2 : (combinedOffset x y p l &&& 0x1C0#32).toNat = (combinedOffset x y p l).toNat / 64 % 8 * 64 :=
    and_toNat_of _ _ _ ho.2.2.2.2.2.2.2.2.1
  have h3 : (combinedOffset x y p l &&& 0x3F#32).toNat = (combinedOffset x y p l).toNat % 64 :=
    and_toNat_of _ _ _ ho.2.2.2.2.2.2.2.1
  have h4 : (y &&& 16#32).toNat = bitOf y 4 * 16 := and_toNat_of _ _ _ (mask_fields y.toNat y.isLt).2.2.2.2.1
  have h5 : (y &&& 8#32).toNat = bitOf y 3 * 8 := and_toNat_of _ _ _ (mask_fields y.toNat y.isLt).2.2.1
  have hb4 : bitOf y 4 < 2 := Nat.mod_lt _ (by norm_num)
  have hb3 : bitOf y 3 < 2 := Nat.mod_lt _ (by norm_num)
  have h6 : (((y &&& 8#32) >>> 2) + (x >>> 3)).toNat = 2 * bitOf y 3 + x.toNat / 8 := by
    have := x.isLt
    rw [BitVec.toNat_add, BitVec.toNat_ushiftRight, BitVec.toNat_ushiftRight, h5, Nat.shiftRight_eq_div_pow,
      Nat.shiftRight_eq_div_pow]
    omega
  have h7 : ((((y &&& 8#32) >>> 2) + (x >>> 3)) &&& 3#32).toNat = (2 * bitOf y 3 + x.toNat / 8) % 4 := by
    apply and_toNat_of
    rw [h6]
    exact (mask_fields _ (by have := x.isLt; omega)).2.2.2.2.2.1
  have hc := (combinedOffset x y p l).isLt
  unfold tiledOffset
  rw [add_toNat_five, BitVec.toNat_shiftLeft, h1, shiftLeft_toNat_of _ 2 _ h2 (by omega), h3,
    shiftLeft_toNat_of _ 7 _ h4 (by omega), shiftLeft_toNat_of _ 6 _ h7 (by omega), Nat.shiftLeft_eq]
  generalize (combinedOffset x y p l).toNat / 512 = A
  generalize (combinedOffset x y p l).toNat / 64 % 8 = B
  generalize (combinedOffset x y p l).toNat % 64 = C
  generalize (2 * bitOf y 3 + x.toNat / 8) % 4 = D
  omega

/-! ### The closed form -/

/-- The low three bits of x and bits 2:1 of y, bit by bit. -/
theorem low_bits (x : Word) : x.toNat % 8 = bitOf x 0 + 2 * bitOf x 1 + 4 * bitOf x 2 := by
  unfold bitOf
  omega

theorem mid_bits (y : Word) : y.toNat / 2 % 4 = bitOf y 1 + 2 * bitOf y 2 := by
  unfold bitOf
  omega

theorem bitOf_lt (w : Word) (i : Nat) : bitOf w i < 2 := Nat.mod_lt _ (by norm_num)

/-- The translator for L = 4: the macro-tile number times 2^14 plus the micro-tile bits, modulo 2^32. -/
theorem tiledOffset_four (x y p : Word) :
    (tiledOffset x y p 4).toNat = (macroTile x y p * 2 ^ 14 + microBits4 x y) % 2 ^ 32 := by
  rw [tiledOffset_of_combined, combinedOffset_toNat x y p 4 (le_refl 4), microOffset_toNat x y 4 (le_refl 4),
    low_bits, mid_bits]
  unfold microBits4
  have hx0 := bitOf_lt x 0
  have hx1 := bitOf_lt x 1
  have hx2 := bitOf_lt x 2
  have hy0 := bitOf_lt y 0
  have hy1 := bitOf_lt y 1
  have hy2 := bitOf_lt y 2
  have hy3 := bitOf_lt y 3
  have hD : (2 * bitOf y 3 + x.toNat / 8) % 4 < 4 := Nat.mod_lt _ (by norm_num)
  generalize (2 * bitOf y 3 + x.toNat / 8) % 4 = D at hD ⊢
  generalize macroTile x y p = M
  generalize bitOf x 0 = x0 at *
  generalize bitOf x 1 = x1 at *
  generalize bitOf x 2 = x2 at *
  generalize bitOf y 0 = y0 at *
  generalize bitOf y 1 = y1 at *
  generalize bitOf y 2 = y2 at *
  generalize bitOf y 3 = y3 at *
  generalize bitOf y 4 = y4
  have ho : (M * 2 ^ (4 + 7) + (x0 + 2 * x1 + 4 * x2 + (y1 + 2 * y2) * 8) * 2 ^ 4 / 16 * 32
      + (x0 + 2 * x1 + 4 * x2 + (y1 + 2 * y2) * 8) * 2 ^ 4 % 16 + y3 * 2 ^ (4 + 6) + y0 * 16)
      = (4 * M + 2 * y3 + y2) * 512 + ((x1 + 2 * x2 + 4 * y1) * 64 + (x0 * 32 + y0 * 16)) := by omega
  rw [ho]
  generalize hQ : 4 * M + 2 * y3 + y2 = Q
  generalize hR : x1 + 2 * x2 + 4 * y1 = R
  generalize hS : x0 * 32 + y0 * 16 = S
  have hRlt : R < 8 := by omega
  have hSlt : S < 64 := by omega
  have e1 : (Q * 512 + (R * 64 + S)) % 2 ^ 32 / 512 = Q % 2 ^ 23 := by omega
  have e2 : (Q * 512 + (R * 64 + S)) % 2 ^ 32 / 64 % 8 = R := by omega
  have e3 : (Q * 512 + (R * 64 + S)) % 2 ^ 32 % 64 = S := by omega
  rw [e1, e2, e3]
  have e4 : M * 2 ^ 14 + (y3 * 2 ^ 13 + y2 * 2 ^ 12 + y4 * 2 ^ 11 + y1 * 2 ^ 10 + x2 * 2 ^ 9 + x1 * 2 ^ 8 + D * 2 ^ 6
      + x0 * 2 ^ 5 + y0 * 2 ^ 4) = Q * 4096 + (R * 256 + S + y4 * 2 ^ 11 + D * 2 ^ 6) := by
    subst hQ hR hS
    ring
  rw [e4]
  norm_num
  omega

/-- The translator for L = 3: the macro-tile number times 2^13 plus the micro-tile bits, modulo 2^32. -/
theorem tiledOffset_three (x y p : Word) :
    (tiledOffset x y p 3).toNat = (macroTile x y p * 2 ^ 13 + microBits3 x y) % 2 ^ 32 := by
  rw [tiledOffset_of_combined, combinedOffset_toNat x y p 3 (by norm_num), microOffset_toNat x y 3 (by norm_num),
    low_bits, mid_bits]
  unfold microBits3
  have hx0 := bitOf_lt x 0
  have hx1 := bitOf_lt x 1
  have hx2 := bitOf_lt x 2
  have hy0 := bitOf_lt y 0
  have hy1 := bitOf_lt y 1
  have hy2 := bitOf_lt y 2
  have hy3 := bitOf_lt y 3
  have hD : (2 * bitOf y 3 + x.toNat / 8) % 4 < 4 := Nat.mod_lt _ (by norm_num)
  generalize (2 * bitOf y 3 + x.toNat / 8) % 4 = D at hD ⊢
  generalize macroTile x y p = M
  generalize bitOf x 0 = x0 at *
  generalize bitOf x 1 = x1 at *
  generalize bitOf x 2 = x2 at *
  generalize bitOf y 0 = y0 at *
  generalize bitOf y 1 = y1 at *
  generalize bitOf y 2 = y2 at *
  generalize bitOf y 3 = y3 at *
  generalize bitOf y 4 = y4
  have ho : (M * 2 ^ (3 + 7) + (x0 + 2 * x1 + 4 * x2 + (y1 + 2 * y2) * 8) * 2 ^ 3 / 16 * 32
      + (x0 + 2 * x1 + 4 * x2 + (y1 + 2 * y2) * 8) * 2 ^ 3 % 16 + y3 * 2 ^ (3 + 6) + y0 * 16)
      = (2 * M + y3) * 512 + ((x2 + 2 * y1 + 4 * y2) * 64 + (x1 * 32 + y0 * 16 + x0 * 8)) := by omega
  rw [ho]
  generalize hQ : 2 * M + y3 = Q
  generalize hR : x2 + 2 * y1 + 4 * y2 = R
  generalize hS : x1 * 32 + y0 * 16 + x0 * 8 = S
  have hRlt : R < 8 := by omega
  have hSlt : S < 64 := by omega
  have e1 : (Q * 512 + (R * 64 + S)) % 2 ^ 32 / 512 = Q % 2 ^ 23 := by omega
  have e2 : (Q * 512 + (R * 64 + S)) % 2 ^ 32 / 64 % 8 = R := by omega
  have e3 : (Q * 512 + (R * 64 + S)) % 2 ^ 32 % 64 = S := by omega
  rw [e1, e2, e3]
  have e4 : M * 2 ^ 13 + (y3 * 2 ^ 12 + y4 * 2 ^ 11 + y2 * 2 ^ 10 + y1 * 2 ^ 9 + x2 * 2 ^ 8 + D * 2 ^ 6
      + x1 * 2 ^ 5 + y0 * 2 ^ 4 + x0 * 2 ^ 3) = Q * 4096 + (R * 256 + S + y4 * 2 ^ 11 + D * 2 ^ 6) := by
    subst hQ hR hS
    ring
  rw [e4]
  norm_num
  omega

end Sys2Proof.Machine
end

