-- ==== Sys2Proof/Tests/Slice0.lean ====
section
/-! SUPPORT. Tests against the words and vectors of the spec (95_test_vectors.md and the encodings of 30_encoding.md), and for
every statement with hypotheses a witness that meets them. -/

namespace Sys2Proof.Tests
open Sys2Proof.Machine

/-! ### Helpers -/

/-- An idle machine right after reset with 4096 bytes of BUF, the least MEM_SIZE of the spec's vectors. -/
def machine : State := { State.reset with memSize := 0x1000 }

/-- The machine with a source and a destination region. -/
def regions (sb sl db dl : Word) : State := { machine with srcBase := sb, srcLen := sl, dstBase := db, dstLen := dl }

/-- The machine with a word accepted. -/
def flying (s : State) (w : Word) : State := s.accept w

/-- The state an outcome gives, if any. -/
def stateOf : Result → Option State
  | .next t => some t
  | .fault _ => none
  | .refused _ => none

/-- STATUS after an instruction ran. -/
def statusAfter (i : Instr) (s : State) : Option Word := (stateOf (exec i s)).map fun t => t.status.word

/-- Bytes of BUF after an instruction ran. -/
def bytesAfter (i : Instr) (s : State) (a n : Nat) : Option (List Byte) :=
  (stateOf (exec i s)).map fun t => t.mem.bytes a n

/-- The machine with events to come, run for all of them. -/
def runEvents (es : List Input) (s : State) : Option State := stateOf (runSteps es.length (s.withInputs es))

/-! ### Well-formedness -/

/-- R82: a reserved OP is 0x5 .. 0xF; NOP's .. SWAP's are refused by the check. -/
theorem test_wellFormed_refuses_a_defined_op : (Instr.reservedOp 4#4 0#4 0#24).wellFormed = false := by decide
theorem test_wellFormed_takes_the_reserved_ops :
    (Instr.reservedOp 5#4 0#4 0#24).wellFormed = true ∧ (Instr.reservedOp 15#4 15#4 1#24).wellFormed = true := by decide

/-! ### Decoding: words written out bit by bit from R81 and R86 -/

theorem test_decode_nop : decodeCommand 0b000000000000000000000000_0000_0000#32 = .nop 0#4 0#24 := by decide
theorem test_decode_xlate : decodeCommand 0b000000000000000000000000_0011_0001#32 = .xlate 3#4 0#24 := by decide
theorem test_decode_detile : decodeCommand 0b000000000000000000000000_0100_0010#32 = .detile 4#4 0#24 := by decide
theorem test_decode_copy : decodeCommand 0b000000000000000000000000_0000_0011#32 = .copy 0#4 0#24 := by decide
theorem test_decode_swap : decodeCommand 0b000000000000000000000000_0000_0100#32 = .swap 0#4 0#24 := by decide
theorem test_decode_reserved :
    decodeCommand 0b100000000000000000000001_0010_1111#32 = .reservedOp 15#4 2#4 0x800001#24 := by decide
/-- R86: header `0oooo00`, slot 13 is IRQ_EN (offset 0x34). -/
theorem test_decode_rdreg : decodeTableWord 7 0b0_1101_00 = some (.rdreg .irqEn) := by decide
/-- R86: header `1oooo00`, slot 6 is SRC_BASE (offset 0x18). -/
theorem test_decode_wrreg : decodeTableWord 7 0b1_0110_00 = some (.wrreg .srcBase 0#32) := by decide
/-- V-B10: a 16-bit access and an access at offset 0x06 are refused. -/
theorem test_decode_refuses :
    decode (.bus 0x04#7 16 0#32) = .error (.accessWidth 16) ∧
      decode (.bus 0x06#7 32 0#32) = .error (.misalignedOffset 0x06#6) := by
  constructor <;> rfl

/-! ### Placing an instruction for the next step -/

theorem test_fetch_command : step (machine.withFetchWord 32 0x00000041) =
    exec (.xlate 4#4 0#24) (machine.accept 0x00000041#32) := rfl
theorem test_fetch_bus : step (machine.withFetchWord 7 0b1_0110_00) = exec (.wrreg .srcBase 0#32) machine := rfl

/-! ### XLATE -/

/-- V-X15, the worked example of R108. -/
theorem test_xlate_example :
    (stateOf (exec (.xlate 4#4 0#24) { machine with x := 9#32, y := 3#32, pitch := 64#32 })).map
      (fun t => (t.result, t.resultIndex, t.status.word)) = some (0x470#32, 0x47#32, 0x2#32) := by decide
/-- R6, R100: a platform with another translator, which gives (9, 3) the offset 0x480. -/
theorem test_xlate_other_translator :
    (stateOf (exec (.xlate 4#4 0#24)
      { machine with
        x := 9#32, y := 3#32, pitch := 64#32
        translator := [{ x := 9#32, y := 3#32, p := 64#32, l := 4, offset := 0x480#32 }] })).map
      (fun t => (t.result, t.resultIndex)) = some (0x480#32, 0x48#32) := by decide
/-- V-X16, V-X17, V-X21, V-X22 and V-X24. -/
theorem test_translator_vectors :
    tiledOffset 0xFFFFFFFF#32 0#32 0x20#32 4 = 0xFFFFC3E0#32 ∧ tiledOffset 5#32 0xA#32 0x14#32 3 = 0x1388#32 ∧ tiledOffset 0x3F#32 0x3F#32 0x40#32 4 = 0xFF70#32 ∧
      tiledOffset 0#32 0xFFFFFFFF#32 0xFFFFFFFF#32 4 = 0x3C90#32 ∧
      tiledOffset 0x64#32 0x64#32 0x80#32 3 = 0x1E500#32 := by decide

/-! ### DETILE -/

/-- The state of V-D14 with one mark byte at the start of each source block. -/
def detileStart : State :=
  { regions 0#32 64#32 64#32 64#32 with
    pitch := 2#32, height := 2#32, mem := [(1, 0x01#8), (17, 0x11#8), (33, 0x21#8), (49, 0x31#8)] }

/-- V-D14: block (1, 0) comes from source offset 32, block (0, 1) from 16. -/
theorem test_detile_example :
    (stateOf (exec (.detile 4#4 0#24) detileStart)).map
      (fun t => (t.mem.byte 65, t.mem.byte 81, t.mem.byte 97, t.mem.byte 113, t.skipCount, t.status.word)) =
      some (0x01#8, 0x21#8, 0x11#8, 0x31#8, 0#32, 0x2#32) := by decide
/-- V-D16: p = h = 3, L = 3, both lengths 72: the three blocks of row 2 are skipped. -/
theorem test_detile_skips :
    (stateOf (exec (.detile 3#4 0#24) { regions 0#32 72#32 72#32 72#32 with pitch := 3#32, height := 3#32 })).map
      (fun t => t.skipCount) = some 3#32 := by decide

/-! ### COPY -/

/-- V-C1: the destination's last two bytes stay. -/
theorem test_copy_shorter_source :
    bytesAfter (.copy 0#4 0#24)
      { regions 0x100#32 4#32 0x200#32 6#32 with
        mem := [(0x100, 0xAA#8), (0x101, 0xBB#8), (0x102, 0xCC#8), (0x103, 0xDD#8), (0x200, 1#8), (0x201, 2#8),
          (0x202, 3#8), (0x203, 4#8), (0x204, 5#8), (0x205, 6#8)] } 0x200 6 =
      some [0xAA#8, 0xBB#8, 0xCC#8, 0xDD#8, 5#8, 6#8] := by decide
/-- V-C4, V-C5 and V-C6: overlap, two empty regions at one address, and a source past the end. -/
theorem test_copy_checks :
    statusAfter (.copy 0#4 0#24) (regions 0x100#32 8#32 0x104#32 8#32) = some 0x44#32 ∧
      statusAfter (.copy 0#4 0#24) (regions 0x100#32 0#32 0x100#32 0#32) = some 0x2#32 ∧
      statusAfter (.copy 0#4 0#24) (regions 0xFFFFFFFF#32 2#32 0x200#32 2#32) = some 0x34#32 := by decide

/-! ### SWAP -/

/-- V-SW2: the odd last byte is untouched. -/
theorem test_swap_odd_length :
    bytesAfter (.swap 0#4 0#24)
      { regions 0#32 0#32 0x300#32 5#32 with
        mem := [(0x300, 0x11#8), (0x301, 0x22#8), (0x302, 0x33#8), (0x303, 0x44#8), (0x304, 0x55#8), (0x305, 0x99#8)] }
      0x300 6 = some [0x22#8, 0x11#8, 0x44#8, 0x33#8, 0x55#8, 0x99#8] := by decide
/-- V-SW5: pairs start at the odd base. -/
theorem test_swap_odd_base :
    bytesAfter (.swap 0#4 0#24)
      { regions 0#32 0#32 0x301#32 4#32 with
        mem := [(0x301, 0xA1#8), (0x302, 0xA2#8), (0x303, 0xA3#8), (0x304, 0xA4#8), (0x305, 0xFF#8)] }
      0x300 6 = some [0x00#8, 0xA2#8, 0xA1#8, 0xA4#8, 0xA3#8, 0xFF#8] := by decide

/-! ### NOP and the reserved operations -/

/-- The worked example of R170: NOP after an error leaves STATUS = 0x00000002. -/
theorem test_nop_clears_an_error :
    (runEvents [writeEvent .cmd 0#32, .engine]
      { machine with status := { Status.reset with err := true, errcode := 1#4, drop := true } }).map
      (fun t => t.status.word) = some 0x2#32 := by decide
/-- V-X28 for NOP's fields, and R85's order: OP before RSVD. -/
theorem test_decode_errors :
    statusAfter (decodeCommand 0x00000010#32) machine = some 0x24#32 ∧
      statusAfter (decodeCommand 0x00000131#32) machine = some 0x24#32 ∧
      statusAfter (decodeCommand 0x00000105#32) machine = some 0x14#32 := by decide

/-! ### RDREG and WRREG -/

/-- V-B2 to V-B5: IRQ_EN keeps bit 0, RO and reserved slots ignore writes, an RW register keeps 32 bits. -/
theorem test_write_then_read :
    (runEvents [writeEvent .irqEn 0xFFFFFFFF#32, readEvent .irqEn] machine).map (fun t => t.readData) = some 1#32 ∧
      (runEvents [writeEvent .result 0x1234#32, readEvent .result] machine).map (fun t => t.readData) = some 0#32 ∧
      (runEvents [writeEvent .rsvd38 0x55#32, readEvent .rsvd38] machine).map (fun t => t.readData) = some 0#32 ∧
      (runEvents [writeEvent .srcLen 0xDEADBEEF#32, readEvent .srcLen] machine).map (fun t => t.readData) =
        some 0xDEADBEEF#32 := by decide
/-- V-B6 and V-B7: the same two events in either order. -/
theorem test_busy_write :
    (runEvents [writeEvent .cmd 0#32, writeEvent .x 7#32, .engine] machine).map (fun t => (t.x, t.status.word)) =
        some (0#32, 0xA#32) ∧
      (runEvents [writeEvent .cmd 0#32, .engine, writeEvent .x 7#32] machine).map (fun t => (t.x, t.status.word)) =
        some (7#32, 0x2#32) := by decide
/-- V-B9: an error raises an enabled IRQ, and the next acceptance lowers it. -/
theorem test_irq :
    (runEvents [writeEvent .irqEn 1#32, writeEvent .cmd 5#32, .engine] machine).map (fun t => (t.status.word, t.irq)) =
        some (0x14#32, true) ∧
      (runEvents [writeEvent .irqEn 1#32, writeEvent .cmd 5#32, .engine, writeEvent .cmd 0#32] machine).map
        (fun t => t.irq) = some false := by decide

/-! ### The host's programs -/

/-- R175 and R176: a written line stands for its expansion. -/
theorem test_parse_line :
    parseLine "WR SRC_LEN, 0x10 ; length".toList = some [.wr .srcLen 16#32] ∧
      parseLine "SWAP 0x300, 5".toList =
        some [.wr .dstBase 0x300#32, .wr .dstLen 5#32, .cmd .swap, .wait] := by decide

/-- The `MEM` lines of programs P2 and P3, and bytes on both sides of a repeated one. -/
theorem test_parse_mem :
    parseLine "MEM 0x300: 11 22 33 44 55 99".toList = some [.mem 0x300 [0x11#8, 0x22#8, 0x33#8, 0x44#8, 0x55#8, 0x99#8]] ∧
      parseLine "MEM 0x200: 00 × 64".toList = some [.mem 0x200 (List.replicate 64 0#8)] ∧
      parseLine "MEM 1: AA 00 × 2 BB".toList = some [.mem 1 [0xAA#8, 0#8, 0#8, 0xBB#8]] := by decide

/-- What a program leaves in X and in STATUS, and the schedule left. -/
def xAndStatus (ls : List Line) (sched : Schedule) : Option (Word × Word × Schedule) :=
  match runProgram ls sched machine with
  | .next (t, rest) => some (t.x, t.readData, rest)
  | _ => none

/-- V-B6 and V-B7 as a program: the engine's step after the write of X, or before it. The WAIT of V-B6 reads twice (R177). -/
theorem test_program_schedules :
    xAndStatus [.cmd .nop, .wr .x 7#32, .wait] [false, false, false, true, true] = some (0#32, 0xA#32, [true]) ∧
      xAndStatus [.cmd .nop, .wr .x 7#32, .wait] [false, true, false] = some (7#32, 0x2#32, []) := by decide

/-- R177: on an idle machine WAIT reads STATUS once. -/
theorem test_wait_idle : xAndStatus [.wait] [false, false] = some (0#32, 0#32, [false]) := by decide

/-! ### Witnesses: for every statement with hypotheses, values that meet all of them together -/

theorem witness_DecodeOfEncodeIsTheInstruction :
    (Instr.reservedOp 5#4 15#4 0xFFFFFF#24).wellFormed = true ∧ (Instr.wrreg .rsvd3C 0xFFFFFFFF#32).wellFormed = true := by
  decide

/-- A listed word, and words on either side of the list. -/
theorem witness_LegalCommandWordsAreTheSeven :
    (0x00000042#32 ∈
        [0x00000000#32, 0x00000031#32, 0x00000041#32, 0x00000032#32, 0x00000042#32, 0x00000003#32, 0x00000004#32]) ∧
      (0x00000005#32 ∉
        [0x00000000#32, 0x00000031#32, 0x00000041#32, 0x00000032#32, 0x00000042#32, 0x00000003#32, 0x00000004#32]) ∧
      (0x00000052#32 ∉
        [0x00000000#32, 0x00000031#32, 0x00000041#32, 0x00000032#32, 0x00000042#32, 0x00000003#32, 0x00000004#32]) := by
  decide

theorem witness_DecodeErrorsInTheirOrder :
    decodeError (decodeCommand 0x00000004#32) = none ∧ decodeError (decodeCommand 0x00000042#32) = none := by decide

/-- One header for each clause: a 16-bit access, offset 0x3D, and the last slot. -/
theorem witness_BusTransactionsDecodeByHeader :
    (16 ≠ 32) ∧ (0x3D#7).toNat % 4 ≠ 0 ∧ (0x7C#7).toNat % 4 = 0 := by decide

/-- The two values of L that the statements about the translator take. -/
theorem witness_TiledOffsetIsMultipleOfBlockSize : (3 = 3 ∨ 3 = 4) ∧ (4 = 3 ∨ 4 = 4) := by decide
theorem witness_BlockIndexShiftedBackIsTheOffset : (3 = 3 ∨ 3 = 4) ∧ (4 = 3 ∨ 4 = 4) := by decide
theorem witness_XlateTranslates :
    ((3#4 = 3#4 ∨ 3#4 = 4#4) ∧ (4#4 = 3#4 ∨ 4#4 = 4#4)) ∧ machine.translator = Config.defaultTranslator ∧
      ∃ t, exec (.xlate 4#4 0#24) machine = .next t := ⟨by decide, rfl, _, rfl⟩

/-- The largest pitch of a one-tile-high grid, and its last block. -/
theorem witness_TranslatorInjectiveOnValidDomain :
    (2 ^ 24 < 2 ^ 32 ∧ ((2 ^ 24 + 31) / 32 * 32) * ((32 + 31) / 32 * 32) * 2 ^ 3 ≤ 2 ^ 32) ∧
      (0xFFFFFF#32).toNat < 2 ^ 24 ∧ (31#32).toNat < 32 := by decide

/-- A level of exactly 2^32 bytes. -/
theorem witness_AlignedLevelFillsItsLength :
    2 ^ 24 < 2 ^ 32 ∧ 32 < 2 ^ 32 ∧ 2 ^ 24 % 32 = 0 ∧ 32 % 32 = 0 ∧ 2 ^ 24 * 32 * 2 ^ 3 ≤ 2 ^ 32 := by decide

theorem witness_ReservedBitsEndWithBadField : (0x800000#24 ≠ 0#24) ∧ 5 ≤ (5#4).toNat ∧ 5 ≤ (15#4).toNat := by decide

theorem witness_IllegalClassEndsWithBadField :
    ((2#4 ≠ 3#4) ∧ (2#4 ≠ 4#4)) ∧ ((5#4 ≠ 3#4) ∧ (5#4 ≠ 4#4)) ∧ (1#4 ≠ 0#4) := by decide

/-- Each code at the edge of its range: the first reserved OP, a destination one byte too long and one that ends with BUF,
regions that share one byte and regions that touch. -/
theorem witness_ChecksReportTheFirstFailure :
    commandCheck (decodeCommand 0x00000005#32) machine = some .illegalOp ∧
      commandCheck (decodeCommand 0x00000051#32) machine = some .badField ∧
      commandCheck (decodeCommand 0x00000004#32) (regions 0#32 0#32 0xFFF#32 2#32) = some .bus ∧
      commandCheck (decodeCommand 0x00000004#32) (regions 0#32 0#32 0xFFF#32 1#32) = none ∧
      commandCheck (decodeCommand 0x00000032#32) (regions 0x100#32 0x40#32 0x13F#32 0x40#32) = some .overlap ∧
      commandCheck (decodeCommand 0x00000032#32) (regions 0x100#32 0x40#32 0x140#32 0x40#32) = none := by decide

theorem witness_FailedCommandsChangeStatusOnly :
    let s := regions 0#32 0#32 0xFFF#32 2#32
    ((Instr.swap 0#4 0#24).isCommand = true ∧ s.status.err = false ∧
        ∃ t, exec (.swap 0#4 0#24) s = .next t ∧ t.status.err = true) ∧
      s.resetAsserted = false ∧ s.status.busy = false ∧
      ∃ t u, exec (.wrreg .cmd 4#32) s = .next t ∧ exec (decodeCommand 4#32) t = .next u ∧ u.status.err = true :=
  ⟨⟨rfl, rfl, _, rfl, rfl⟩, rfl, rfl, _, _, rfl, rfl, rfl⟩

theorem witness_EngineNeverLeavesBuf :
    (Instr.detile 3#4 0#24).isCommand = true ∧ (Instr.reservedOp 5#4 0#4 0#24).isCommand = true := by decide

/-- Both regions end where they may: the source touches the destination, which ends with BUF. -/
theorem witness_DetileGathersTheBlocksThatFit :
    let s := { regions 0xF00#32 0x80#32 0xF80#32 0x80#32 with pitch := 4#32, height := 4#32 }
    s.srcBase.toNat + s.srcLen.toNat ≤ s.memSize ∧ s.dstBase.toNat + s.dstLen.toNat ≤ s.memSize ∧
      ¬(s.srcLen.toNat ≠ 0 ∧ s.dstLen.toNat ≠ 0 ∧ s.srcBase.toNat < s.dstBase.toNat + s.dstLen.toNat ∧
        s.dstBase.toNat < s.srcBase.toNat + s.srcLen.toNat) := by decide

theorem witness_DetileOfAnEmptyGrid :
    { machine with pitch := 0#32, height := 5#32 }.pitch = 0#32 ∧
      { machine with pitch := 5#32, height := 0#32 }.height = 0#32 := by decide

/-- An aligned level of one macro-tile, whose regions touch. -/
theorem witness_AlignedDetilePermutesTheBlocks :
    let s := { regions 0#32 8192#32 8192#32 8192#32 with memSize := 16384, pitch := 32#32, height := 32#32 }
    (s.translator = Config.defaultTranslator ∧ s.pitch.toNat % 32 = 0 ∧ s.height.toNat % 32 = 0 ∧ s.srcLen.toNat = s.pitch.toNat * s.height.toNat * 2 ^ 3 ∧
        s.dstLen.toNat = s.pitch.toNat * s.height.toNat * 2 ^ 3 ∧ s.status.done = false) ∧
      ∃ t, exec (.detile 3#4 0#24) s = .next t ∧ t.status.done = true :=
  ⟨by decide, _, execDetile_ok 3#4 0#24 _ (by decide), rfl⟩

theorem witness_CopyMovesTheCommonLength :
    let s := regions 0xF00#32 0x80#32 0xF80#32 0x80#32
    s.srcBase.toNat + s.srcLen.toNat ≤ s.memSize ∧ s.dstBase.toNat + s.dstLen.toNat ≤ s.memSize ∧
      ¬(s.srcLen.toNat ≠ 0 ∧ s.dstLen.toNat ≠ 0 ∧ s.srcBase.toNat < s.dstBase.toNat + s.dstLen.toNat ∧
        s.dstBase.toNat < s.srcBase.toNat + s.srcLen.toNat) := by decide

theorem witness_SwapExchangesThePairs :
    let s := regions 0#32 0#32 0xFFB#32 5#32
    s.dstBase.toNat + s.dstLen.toNat ≤ s.memSize ∧ 1 < s.dstLen.toNat / 2 := by decide

/-- The second SWAP starts in the state the first one left. -/
theorem witness_SwapTwiceRestoresTheRegion :
    let s := { regions 0#32 0#32 0xFFB#32 5#32 with mem := [(0xFFB, 0x11#8), (0xFFF, 0x55#8)] }
    ∃ t u, exec (.swap 0#4 0#24) s = .next t ∧ t.dstBase = s.dstBase ∧ t.dstLen = s.dstLen ∧ t.memSize = s.memSize ∧
      exec (.swap 0#4 0#24) t = .next u ∧ s.dstRegion.contains 0xFFB = true :=
  ⟨_, _, rfl, rfl, rfl, rfl, rfl, rfl⟩

/-- A 2 by 2 grid whose destination has one pair more than the grid, of equal bytes. -/
def commuting : State :=
  { regions 0x100#32 32#32 0x200#32 34#32 with
    pitch := 2#32, height := 2#32, mem := [(0x100, 0x11#8), (0x220, 0x5A#8), (0x221, 0x5A#8)] }

theorem witness_SwapCommutesWithDetile :
    (∀ x y : Word, x.toNat < commuting.pitch.toNat → y.toNat < commuting.height.toNat →
        (commuting.tiled x y commuting.pitch (3#4).toNat).toNat % 2 = 0) ∧
      (∀ i, i < commuting.dstLen.toNat / 2 →
        (∀ tr ∈ detileTransfers commuting.tiled 3#4 commuting,
          ¬(tr.dst ≤ commuting.dstBase.toNat + 2 * i ∧ commuting.dstBase.toNat + 2 * i < tr.dst + tr.len)) →
        commuting.mem.byte (commuting.dstBase.toNat + 2 * i) =
          commuting.mem.byte (commuting.dstBase.toNat + 2 * i + 1)) ∧
      (commuting.srcBase.toNat + commuting.srcLen.toNat ≤ commuting.memSize ∧
        commuting.dstBase.toNat + commuting.dstLen.toNat ≤ commuting.memSize ∧
        commuting.srcRegion.overlaps commuting.dstRegion = false) ∧
      (∃ t1 u1, exec (.detile 3#4 0#24) commuting = .next t1 ∧ exec (.swap 0#4 0#24) t1 = .next u1) ∧
      ∃ t2 u2, exec (.swap 0#4 0#24) { commuting with dstBase := commuting.srcBase, dstLen := commuting.srcLen } =
          .next t2 ∧
        exec (.detile 3#4 0#24) { t2 with dstBase := commuting.dstBase, dstLen := commuting.dstLen } = .next u2 :=
  ⟨fun x y _ _ => by
      have h := tiledOffset_three x y commuting.pitch
      unfold microBits3 at h
      exact (show (tiledOffset x y commuting.pitch 3).toNat % 2 = 0 by omega),
    by decide, by decide, ⟨_, _, rfl, rfl⟩, _, _, rfl, rfl⟩

/-- The bytes next to the destination on either side, and a command without a destination. -/
theorem witness_OnlyTheDestinationRegionIsWritten :
    let s := regions 0x100#32 4#32 0x200#32 4#32
    (∃ t, exec (.copy 0#4 0#24) s = .next t) ∧ s.dstRegion.contains 0x1FF = false ∧
      s.dstRegion.contains 0x204 = false ∧ destinationOf (.xlate 3#4 0#24) s = none :=
  ⟨⟨_, rfl⟩, by decide⟩

theorem witness_SourceRegionIsNeverWritten :
    let s := regions 0x100#32 4#32 0x104#32 4#32
    (Instr.copy 0#4 0#24).isCommand = true ∧ sourceOf (.copy 0#4 0#24) s = some s.srcRegion ∧
      (∃ t, exec (.copy 0#4 0#24) s = .next t) ∧ s.srcRegion.contains 0x100 = true ∧
      s.srcRegion.contains 0x103 = true :=
  ⟨rfl, rfl, ⟨_, rfl⟩, rfl, rfl⟩

/-- For COPY two states that differ in the byte right after those it reads, in PITCH, STATUS, RESULT and IRQ_EN; for NOP two
that differ in the regions too. -/
theorem witness_CommandsReadOnlyWhatIsListed :
    let s := regions 0x100#32 4#32 0x200#32 4#32
    let s' := { s with
      pitch := 9#32, irqEn := true, result := 5#32, status := Status.dropped s.status, mem := s.mem.set 0x104 1#8 }
    let n := { machine with srcBase := 7#32, dstLen := 9#32 }
    (ReadsAgree (.copy 0#4 0#24) s s' ∧ (Instr.copy 0#4 0#24).isCommand = true ∧ s'.mem ≠ s.mem ∧
        (∃ t, exec (.copy 0#4 0#24) s = .next t) ∧ ∃ t', exec (.copy 0#4 0#24) s' = .next t') ∧
      ReadsAgree (.nop 0#4 0#24) s n ∧ (∃ t, exec (.nop 0#4 0#24) s = .next t) ∧
      ∃ t', exec (.nop 0#4 0#24) n = .next t' := by
  refine ⟨⟨⟨by decide, fun a _ ha => ?_⟩, rfl, by decide, ⟨_, rfl⟩, _, rfl⟩, trivial, ⟨_, rfl⟩, _, rfl⟩
  have ha : a < 0x100 + 4 := ha
  simp only [Memory.byte_set]
  rw [if_neg (by omega)]

theorem witness_RdregReturnsTheSlot : machine.resetAsserted = false ∧ (flying machine 0#32).resetAsserted = false := by
  decide

/-- One state for each value of BUSY. -/
theorem witness_WrregWritesOrDrops :
    (machine.resetAsserted = false ∧ machine.status.busy = false) ∧
      (flying machine 0#32).resetAsserted = false ∧ (flying machine 0#32).status.busy = true := by decide

theorem witness_CmdWriteAcceptsEveryWord :
    machine.resetAsserted = false ∧ machine.status.busy = false ∧ decodeError (decodeCommand 5#32) ≠ none := by decide

theorem witness_IrqEnKeepsBitZero :
    machine.resetAsserted = false ∧ machine.status.busy = false ∧
      ∃ t, exec (.wrreg .irqEn 0xFFFFFFFF#32) machine = .next t := ⟨rfl, rfl, _, rfl⟩

theorem witness_ReadAfterRegisterWrite :
    (machine.resetAsserted = false ∧ machine.status.busy = false ∧ Slot.irqEn ≠ Slot.cmd) ∧
      ∃ t u, exec (.wrreg .irqEn 0xFFFFFFFF#32) machine = .next t ∧ exec (.rdreg .irqEn) t = .next u :=
  ⟨by decide, _, _, rfl, rfl⟩

theorem witness_ReservedSlotsReadZero :
    machine.resetAsserted = false ∧ (Slot.rsvd38 = .rsvd38 ∨ Slot.rsvd38 = .rsvd3C) ∧
      (Slot.rsvd3C = .rsvd38 ∨ Slot.rsvd3C = .rsvd3C) := by decide

/-- A command that ends with DONE and one that ends with an error. -/
theorem witness_CompletionRaisesEnabledIrq :
    (∃ t, exec (.nop 0#4 0#24) { flying machine 0#32 with irqEn := true } = .next t) ∧
      ∃ t, exec (.reservedOp 5#4 0#4 0#24) { flying machine 5#32 with irqEn := true } = .next t :=
  ⟨⟨_, rfl⟩, _, rfl⟩

/-- A flight without races, with no event waiting and with the engine's turn next, and one with a race. -/
theorem witness_EngineTurnRunsPending :
    let s := flying machine 3#32
    let r := { s with raced := [0x100], inputs := [.engine] }
    (s.status.busy = true ∧ s.pending = some 3#32 ∧ s.raced = [] ∧ s.inputs = []) ∧
      r.status.busy = true ∧ r.pending = some 3#32 ∧ r.inputs = .engine :: [] ∧
      ∃ c, exec (decodeCommand 3#32) { r with inputs := [] } = .next c :=
  ⟨⟨rfl, rfl, rfl, rfl⟩, rfl, rfl, rfl, _, rfl⟩

/-- A transaction for each clause. -/
theorem witness_BusTurnRunsTheTransaction :
    (machine.withInputs [.bus 0x7C#7 32 1#32]).inputs = .bus 0x7C#7 32 1#32 :: [] ∧
      decode (.bus 0x7C#7 32 1#32) = .ok (.wrreg .rsvd3C 1#32) ∧ (8 ≠ 32) ∧ (0x3F#7).toNat % 4 ≠ 0 :=
  ⟨rfl, rfl, by decide, by decide⟩

theorem witness_IdleEngineChangesNothing :
    machine.status.busy = false ∧ machine.inputs = [] ∧ (machine.withInputs [.engine]).inputs = .engine :: [] := by
  decide

theorem witness_BusDuringResetIsRefused : machine.assertReset.resetAsserted = true := by decide

/-- A command in flight between regions that touch, with one event waiting. -/
def copying : State :=
  { flying (regions 0x100#32 4#32 0x104#32 4#32) 0x00000003#32 with inputs := [readEvent .status] }

theorem copying_inv : copying.Inv :=
  ⟨⟨by decide, by decide, by decide, by decide⟩, rfl, fun _ h => (Option.some.inj h).symm,
    (by decide : 1 ≤ 0x1000 ∧ 0x1000 ≤ 2 ^ 32), rfl, rfl, fun _ => rfl, fun _ h => absurd h List.not_mem_nil,
    fun h => absurd h (by decide)⟩

theorem witness_StepKeepsTheInvariant : copying.Inv ∧ ∃ t, step copying = .next t := ⟨copying_inv, _, rfl⟩

theorem reachable_reset : Reachable { State.reset with mem := [], inputs := [writeEvent .cmd 0#32] } :=
  .reset [] [] _ rfl rfl

/-- A reachable state with BUSY = 1, before the first command completes. -/
theorem witness_StatusFieldsStayConsistent :
    ∃ t, Reachable t ∧ BeforeFirstCompletion t ∧ t.status.busy = true :=
  ⟨_, .step _ _ reachable_reset rfl, .step _ _ (.reset [] [] [writeEvent .cmd 0#32]) rfl (fun h => by cases h), rfl⟩

theorem witness_DefinedEventsAlwaysStep :
    copying.Inv ∧ ∀ e rest, copying.inputs = e :: rest → e.Defined copying := by
  refine ⟨copying_inv, fun e rest h => ?_⟩
  cases h
  exact ⟨rfl, by decide, rfl⟩

theorem witness_AcceptedCommandCompletes :
    copying.Inv ∧ copying.status.busy = true ∧
      ∀ e ∈ copying.inputs, e.Defined copying ∧ e ≠ .resetAssert ∧ e ≠ .resetRelease := by
  refine ⟨copying_inv, rfl, fun e h => ?_⟩
  have he : e = readEvent .status := List.mem_singleton.mp h
  subst he
  exact ⟨⟨rfl, by decide, rfl⟩, by decide, by decide⟩

theorem witness_OperandsHoldDuringTheFlight :
    copying.status.busy = true ∧ ∃ t, step copying = .next t ∧ t.status.busy = true := ⟨rfl, _, rfl, rfl⟩

theorem witness_ResultsChangeOnlyByXlateOrReset :
    let s := flying { machine with x := 1#32, pitch := 32#32 } 0x00000041#32
    ∃ t, step s = .next t ∧ t.result ≠ s.result := ⟨_, rfl, by decide⟩

theorem witness_SkipCountChangesOnlyByDetileOrReset :
    let s := flying { machine with pitch := 1#32, height := 1#32 } 0x00000032#32
    ∃ t, step s = .next t ∧ t.skipCount ≠ s.skipCount := ⟨_, rfl, by decide⟩

theorem witness_BufChangesOnlyByItsWriters :
    let s := { copying with mem := [(0x100, 0xAA#8)], inputs := [] }
    ∃ t, step s = .next t ∧ t.mem ≠ s.mem := ⟨_, rfl, by decide⟩

theorem witness_BusyWriteRaceHasBothOutcomes :
    let s := flying machine 0#32
    s.resetAsserted = false ∧ s.status.busy = true ∧ s.pending = some 0#32 ∧ s.raced = [] ∧ s.inputs = [] ∧
      ∃ c, exec (decodeCommand 0#32) s = .next c := ⟨rfl, rfl, rfl, rfl, rfl, _, rfl⟩

theorem witness_NopClearsAnError :
    let s := { machine with
      status := { Status.reset with err := true, errcode := 4#4 }
      inputs := [.bus (busHeader true .cmd) 32 0#32, .engine] }
    s.resetAsserted = false ∧ s.status.busy = false ∧ s.pending = none ∧ s.raced = [] ∧
      s.inputs = [.bus (busHeader true .cmd) 32 0#32, .engine] := by decide

/-- Reset asserted and released, on an idle machine. -/
theorem witness_ResetClearsEveryRegister :
    let s := { machine with x := 7#32, inputs := [.resetAssert, .resetRelease] }
    s.inputs = .resetAssert :: [.resetRelease] ∧ s.status.busy = false ∧
      ∃ t u, step s = .next t ∧ t.inputs = .resetRelease :: [] ∧ step t = .next u :=
  ⟨rfl, rfl, _, _, rfl, rfl, rfl⟩

/-- A reset in the flight of a command without a destination, of one whose checks pass, and of one whose destination is one
byte too long for BUF; the bytes at the ends of the destination and next to it. -/
theorem witness_ResetInFlightFreesTheDestination :
    let s := { copying with inputs := [.resetAssert] }
    let n := { flying machine 0#32 with inputs := [.resetAssert] }
    let b := { flying (regions 0#32 0#32 0xFFF#32 2#32) 4#32 with inputs := [.resetAssert] }
    (s.inputs = .resetAssert :: [] ∧ s.status.busy = true ∧ s.pending = some 3#32 ∧ (∃ t, step s = .next t) ∧
        (s.dstBase.toNat = 0x104 ∧ s.dstLen.toNat = 4) ∧ 0x107 < s.memSize) ∧
      (n.status.busy = true ∧ n.pending = some 0#32 ∧ (∃ t, step n = .next t) ∧ (0#32).toNat % 16 = 0) ∧
      (b.status.busy = true ∧ b.pending = some 4#32 ∧ (∃ t, step b = .next t) ∧
        commandCheck (decodeCommand 4#32) b = some .bus ∧ 0xFFF < b.memSize ∧ ¬0x1000 < b.memSize) :=
  ⟨⟨rfl, rfl, rfl, ⟨_, rfl⟩, ⟨rfl, rfl⟩, by decide⟩, ⟨rfl, rfl, ⟨_, rfl⟩, rfl⟩, rfl, rfl, ⟨_, rfl⟩, rfl, by decide,
    by decide⟩

/-- The bytes of a COPY's regions, in flight. -/
theorem copying_region (a : Nat) : copying.InFlightRegion a ↔ 0x100 ≤ a ∧ a < 0x108 := by
  have h1 : copying.srcBase.toNat = 0x100 ∧ copying.srcLen.toNat = 4 ∧ copying.dstBase.toNat = 0x104 ∧
    copying.dstLen.toNat = 4 := ⟨rfl, rfl, rfl, rfl⟩
  obtain ⟨e1, e2, e3, e4⟩ := h1
  unfold State.InFlightRegion
  rw [e1, e2, e3, e4]
  constructor
  · rintro ⟨-, w, -, h⟩
    omega
  · intro h
    exact ⟨rfl, 3#32, rfl, by simp; omega⟩

/-- A write and a read that end with BUF; the bytes at either end of the in-flight regions, and next to them. -/
theorem witness_HostAccessesReachBuf :
    ((machine.withInputs [.bufWrite 0xFFE [1#8, 2#8]]).inputs = .bufWrite 0xFFE [1#8, 2#8] :: [] ∧
        0xFFE + [1#8, 2#8].length ≤ machine.memSize) ∧
      ({ copying with inputs := [.bufRead 0xFF 10] }.inputs = .bufRead 0xFF 10 :: [] ∧ 0xFF + 10 ≤ copying.memSize) ∧
      copying.InFlightRegion (0xFF + 1) ∧ copying.InFlightRegion (0xFF + 8) ∧ ¬copying.InFlightRegion (0xFF + 0) ∧
      ¬copying.InFlightRegion (0xFF + 9) := by
  simp only [copying_region]
  decide

/-- A raced flight of each kind: a COPY whose first source byte and last destination byte the host wrote, with no event
waiting; a SWAP of an odd length with its first byte raced; a DETILE of a 2 by 2 grid with a source byte of its last block raced
and a destination two bytes longer than its blocks; and a COPY that ends with an error. -/
theorem witness_RacedBytesAreFree :
    let c := { copying with inputs := [], raced := [0x100, 0x107] }
    let w := { flying (regions 0#32 0#32 0x300#32 5#32) 4#32 with inputs := [.engine], raced := [0x300] }
    let d := { flying { regions 0x100#32 32#32 0x200#32 34#32 with pitch := 2#32, height := 2#32 } 0x32#32 with
      inputs := [.engine], raced := [0x118, 0x221] }
    let e := { flying (regions 0x100#32 4#32 0x102#32 4#32) 3#32 with inputs := [.engine], raced := [0x105] }
    (c.status.busy = true ∧ c.status.done = false ∧ c.pending = some 3#32 ∧ c.inputs = [] ∧
        ∃ t, step c = .next t ∧ t.status.done = true) ∧
      (w.status.busy = true ∧ w.status.done = false ∧ w.pending = some 4#32 ∧ w.inputs = .engine :: [] ∧
        ∃ t, step w = .next t ∧ t.status.done = true) ∧
      (d.status.busy = true ∧ d.status.done = false ∧ d.pending = some 0x32#32 ∧ d.inputs = .engine :: [] ∧
        (∃ t, step d = .next t ∧ t.status.done = true) ∧
        (d.tiled 1#32 1#32 d.pitch 3).toNat = 0x18) ∧
      (e.status.busy = true ∧ e.status.done = false ∧ e.pending = some 3#32 ∧ e.inputs = .engine :: [] ∧
        ∃ t, step e = .next t ∧ t.status.done = false) :=
  ⟨⟨rfl, rfl, rfl, rfl, _, rfl, rfl⟩, ⟨rfl, rfl, rfl, rfl, _, rfl, rfl⟩, ⟨rfl, rfl, rfl, rfl, ⟨_, rfl, rfl⟩, by decide⟩,
    rfl, rfl, rfl, rfl, _, rfl, rfl⟩

theorem witness_CommandsRightAfterResetMoveNothing :
    decodeError (decodeCommand 0x00000042#32) = none ∧ decodeError (decodeCommand 0x00000004#32) = none := by decide

/-- An idle machine, and a COPY in flight. -/
theorem witness_PseudoInstructionsRunToCompletion :
    (machine.resetAsserted = false ∧ machine.status.busy = false ∧ machine.raced = []) ∧
      copying.resetAsserted = false ∧ copying.status.busy = true ∧ ∃ c, step { copying with inputs := [] } = .next c :=
  ⟨⟨rfl, rfl, rfl⟩, rfl, rfl, _, rfl⟩

theorem witness_BothSkipFlagsAreRejected :
    ∃ f : HostFile, f.skipDetile = true ∧ f.skipSwap = true := ⟨⟨[], true, true, []⟩, rfl, rfl⟩

/-- A container of one 4 by 4 DXT1 level: height and width 4, one level, the tag, and eight payload bytes. -/
def smallFile : List Byte :=
  List.replicate 12 0#8 ++ [4#8, 0#8, 0#8, 0#8] ++ [4#8, 0#8, 0#8, 0#8] ++ List.replicate 8 0#8 ++ [1#8, 0#8, 0#8, 0#8]
    ++ List.replicate 52 0#8 ++ [0x44#8, 0x58#8, 0x54#8, 0x31#8] ++ List.replicate 40 0#8
    ++ [1#8, 2#8, 3#8, 4#8, 5#8, 6#8, 7#8, 8#8]

/-- A file one byte too short, one of exactly a header with the tag ZZZZ (S8), and one with the tag DXT1. -/
theorem witness_HostErrorsComeInTheirOrder :
    ¬(true = true ∧ false = true) ∧ (List.replicate 127 0#8 : List Byte).length < 128 ∧
      128 ≤ (List.replicate 128 0x5A#8 : List Byte).length ∧
      ((List.replicate 128 0x5A#8 : List Byte).drop 84).take 4 ∉ supportedTags ∧
      128 ≤ smallFile.length ∧ (smallFile.drop 84).take 4 = [0x44#8, 0x58#8, 0x54#8, 0x31#8] := by decide +kernel

/-- S4: a small level is copied, and its pairs swapped. -/
theorem witness_ConversionKeepsHeaderAndLength :
    (convert { tailFill := .zero, inAddr := 0, outAddr := 0x100 } machine
      { bytes := smallFile, skipDetile := false, skipSwap := false }).outcome.toOption.map
      (fun out => out.drop 128) = some [2#8, 1#8, 4#8, 3#8, 6#8, 5#8, 8#8, 7#8] := by
  decide +kernel

theorem witness_LevelsLieContiguously :
    0 < (fileLevels 8 smallFile).length ∧
      (fileLevels 8 smallFile)[0]? = some { width := 4, height := 4, gridW := 1, gridH := 1, len := 8, off := 0 } := by
  decide +kernel

end Sys2Proof.Tests
end

/-! PROOFS. The state family (10_state.md): what a command whose checks pass does to the state, what one step does, and the
obligations on STATUS, the result registers, BUF and the invariant. -/

namespace Sys2Proof.Machine

/-! ### What a command whose checks pass does -/

/-- The state that a command's own effect leaves, after its checks and before `complete DONE` (R37, R108, R130, R135, R160).
A reserved operation never comes so far. -/
inductive CommandEffect (s : State) : Instr → State → Prop
  | nop (l : BitVec 4) (rsvd : BitVec 24) : CommandEffect s (.nop l rsvd) s
  | xlate (l : BitVec 4) (rsvd : BitVec 24) : CommandEffect s (.xlate l rsvd) (s.translated s.tiled l)
  | detile (l : BitVec 4) (rsvd : BitVec 24) :
      CommandEffect s (.detile l rsvd)
        { s with
          mem := (detileTransfers s.tiled l s).foldl Transfer.apply s.mem
          skipCount := BitVec.ofNat 32 (detileSkipped s.tiled l s) }
  | copy (l : BitVec 4) (rsvd : BitVec 24) :
      CommandEffect s (.copy l rsvd) { s with mem := Transfer.apply s.mem (copyTransfer s) }
  | swap (l : BitVec 4) (rsvd : BitVec 24) (m : Memory)
      (hm : ∀ a, m.byte a =
        if s.dstBase.toNat ≤ a ∧ a < s.dstBase.toNat + 2 * (s.dstLen.toNat / 2)
        then s.mem.byte (pairPartner s.dstBase.toNat a) else s.mem.byte a) :
      CommandEffect s (.swap l rsvd) { s with mem := m }

/-- A command ends with the first error of its checks and no effect, or with DONE and its effect. -/
theorem exec_command_effect (i : Instr) (s t : State) (hc : i.isCommand = true) (h : exec i s = .next t) :
    (∃ e, commandCheck i s = some e ∧ t = s.completeErr e) ∨
      (commandCheck i s = none ∧ ∃ u, CommandEffect s i u ∧ t = u.completeDone) := by
  rcases exec_command_cases i s t hc h with he | ⟨hn, -⟩
  · exact .inl he
  refine .inr ⟨hn, ?_⟩
  cases i with
  | nop l rsvd =>
    simp only [exec, execNop, hn, State.runChecked_none, Host.Outcome.next.injEq] at h
    exact ⟨_, .nop l rsvd, h.symm⟩
  | xlate l rsvd =>
    simp only [exec, execXlate, hn, State.runChecked_none, Host.Outcome.next.injEq] at h
    exact ⟨_, .xlate l rsvd, h.symm⟩
  | detile l rsvd =>
    simp only [exec, execDetile_ok l rsvd s hn, Host.Outcome.next.injEq] at h
    exact ⟨_, .detile l rsvd, h.symm⟩
  | copy l rsvd =>
    simp only [exec, execCopy_ok l rsvd s hn, Host.Outcome.next.injEq] at h
    exact ⟨_, .copy l rsvd, h.symm⟩
  | swap l rsvd =>
    obtain ⟨m, hx, hm, -⟩ := execSwap_ok l rsvd s hn
    simp only [exec, hx, Host.Outcome.next.injEq] at h
    exact ⟨_, .swap l rsvd m hm, h.symm⟩
  | reservedOp op l rsvd => cases hn
  | rdreg r => cases hc
  | wrreg r v => cases hc

theorem commandCheck_xlate_none_iff (l : BitVec 4) (rsvd : BitVec 24) (s : State) :
    commandCheck (.xlate l rsvd) s = none ↔ rsvd = 0#24 ∧ (l = 3#4 ∨ l = 4#4) :=
  fieldCheck_classed_none_iff l rsvd

/-- COPY's transfer stays inside both regions (R135). -/
theorem copyTransfer_bounds (s : State) :
    (s.srcBase.toNat ≤ (copyTransfer s).src ∧
        (copyTransfer s).src + (copyTransfer s).len ≤ s.srcBase.toNat + s.srcLen.toNat) ∧
      (s.dstBase.toNat ≤ (copyTransfer s).dst ∧
        (copyTransfer s).dst + (copyTransfer s).len ≤ s.dstBase.toNat + s.dstLen.toNat) := by
  simp only [copyTransfer]
  omega

theorem not_contains_iff (r : Region) (a : Nat) : r.contains a = false ↔ ¬(r.base ≤ a ∧ a < r.base + r.len) := by
  rw [← Region.contains_iff, Bool.not_eq_true]

/-- A command's effect writes no byte outside the destination region (R37). -/
theorem CommandEffect.byte_outside {i : Instr} {s u : State} (hu : CommandEffect s i u) (a : Nat)
    (ha : s.dstRegion.contains a = false) : u.mem.byte a = s.mem.byte a := by
  have hout : ¬(s.dstBase.toNat ≤ a ∧ a < s.dstBase.toNat + s.dstLen.toNat) := (not_contains_iff _ a).mp ha
  cases hu with
  | nop l rsvd => rfl
  | xlate l rsvd => rfl
  | detile l rsvd =>
    refine foldl_apply_unwritten _ _ a fun t ht hw => hout ?_
    have hb := (detileTransfers_bounds _ _ _ t ht).2
    exact ⟨hb.1.trans hw.1, hw.2.trans_le hb.2⟩
  | copy l rsvd =>
    refine Transfer.byte_apply_unwritten _ _ a fun hw => hout ?_
    have hb := (copyTransfer_bounds s).2
    exact ⟨hb.1.trans hw.1, hw.2.trans_le hb.2⟩
  | swap l rsvd m hm => exact (hm a).trans (if_neg (by omega))

/-- A command without a destination leaves BUF as it is. -/
theorem CommandEffect.mem_of_no_destination {i : Instr} {s u : State} (hu : CommandEffect s i u)
    (hd : destinationOf i s = none) : u.mem = s.mem := by
  cases hu with
  | nop l rsvd => rfl
  | xlate l rsvd => rfl
  | detile l rsvd => cases hd
  | copy l rsvd => cases hd
  | swap l rsvd m hm => cases hd

/-- Only XLATE writes RESULT and RESULT_INDEX (R28). -/
theorem CommandEffect.results {i : Instr} {s u : State} (hu : CommandEffect s i u) :
    (u.result = s.result ∧ u.resultIndex = s.resultIndex) ∨
      ∃ l rsvd, i = .xlate l rsvd ∧ u = s.translated s.tiled l := by
  cases hu with
  | xlate l rsvd => exact .inr ⟨l, rsvd, rfl, rfl⟩
  | nop l rsvd => exact .inl ⟨rfl, rfl⟩
  | detile l rsvd => exact .inl ⟨rfl, rfl⟩
  | copy l rsvd => exact .inl ⟨rfl, rfl⟩
  | swap l rsvd m hm => exact .inl ⟨rfl, rfl⟩

/-- Only DETILE writes SKIPCOUNT (R29). -/
theorem CommandEffect.skipCount {i : Instr} {s u : State} (hu : CommandEffect s i u) :
    u.skipCount = s.skipCount ∨ ∃ l rsvd, i = .detile l rsvd := by
  cases hu with
  | detile l rsvd => exact .inr ⟨l, rsvd, rfl⟩
  | nop l rsvd => exact .inl rfl
  | xlate l rsvd => exact .inl rfl
  | copy l rsvd => exact .inl rfl
  | swap l rsvd m hm => exact .inl rfl

/-- A command that has a source and passes its checks has it apart from its destination (R57). -/
theorem not_overlaps_of_source (i : Instr) (s : State) (hs : sourceOf i s = some s.srcRegion)
    (hn : commandCheck i s = none) : s.srcRegion.overlaps s.dstRegion = false := by
  cases i with
  | detile l rsvd => exact ((commandCheck_detile_none_iff l rsvd s).mp hn).2.2.2
  | copy l rsvd => exact ((commandCheck_copy_none_iff l rsvd s).mp hn).2.2.2
  | nop l rsvd => cases hs
  | xlate l rsvd => cases hs
  | swap l rsvd => cases hs
  | reservedOp op l rsvd => cases hs
  | rdreg r => cases hs
  | wrreg r v => cases hs

/-- Settles O26: an error writes nothing, and every effect stays in the destination region. -/
theorem onlyTheDestinationRegionIsWritten : Obligations.OnlyTheDestinationRegionIsWritten := by
  intro i s t hc h
  rcases exec_command_effect i s t hc h with ⟨e, -, rfl⟩ | ⟨-, u, hu, rfl⟩
  · exact ⟨fun a _ => rfl, fun _ => rfl⟩
  · exact ⟨hu.byte_outside, hu.mem_of_no_destination⟩

/-- Settles O27: the checks keep the source region apart from the destination, outside which nothing is written. -/
theorem sourceRegionIsNeverWritten : Obligations.SourceRegionIsNeverWritten := by
  intro i s t hc hs h a ha
  rcases exec_command_effect i s t hc h with ⟨e, -, rfl⟩ | ⟨hn, u, hu, rfl⟩
  · rfl
  · have hout := not_overlaps_disjoint _ _ (not_overlaps_of_source i s hs hn) a ((Region.contains_iff _ a).mp ha)
    exact hu.byte_outside a ((not_contains_iff _ a).mpr hout)

/-- Settles O35: every command ends with DONE or ERR set (R254). -/
theorem completionRaisesEnabledIrq : Obligations.CompletionRaisesEnabledIrq := by
  intro i s t hc h
  rcases exec_command_cases i s t hc h with ⟨e, -, rfl⟩ | ⟨-, m, r, ri, k, rfl⟩
  · simp [State.irq]
  · simp [State.irq]

/-! ### IRQ_EN and the reserved slots -/

theorem readSlot_irqEn_getLsbD_zero (s : State) : (s.readSlot .irqEn).getLsbD 0 = s.irqEn := by
  cases h : s.irqEn <;> simp [State.readSlot, h]

/-- IRQ_EN reads as bit 0 of the value written (R30). -/
theorem readSlot_writeSlot_irqEn (s : State) (v : Word) : (s.writeSlot .irqEn v).readSlot .irqEn = v &&& 1#32 := by
  have h1 : v &&& 1#32 = (BitVec.ofBool (v.getLsbD 0)).setWidth 32 := by
    apply BitVec.eq_of_getLsbD_eq
    intro i hi
    cases i <;> simp [BitVec.getLsbD_one]
  rw [h1]
  rfl

/-- Settles O32: a write stores bit 0 alone, and the slot reads as that bit with zeros above it. -/
theorem irqEnKeepsBitZero : Obligations.IrqEnKeepsBitZero := by
  refine ⟨fun s t v hr hb h => ?_, fun s => ?_, fun s => ?_⟩
  · simp only [exec, execWrreg, hr, hb, Bool.false_eq_true, if_false, Host.Outcome.next.injEq] at h
    rw [← h, readSlot_writeSlot_irqEn]
  · cases h : s.irqEn <;> simp [State.readSlot, h]
  · rw [readSlot_irqEn_getLsbD_zero, State.irq]

/-- Settles O34: neither slot has storage, so only DROP can change (R171). -/
theorem reservedSlotsReadZero : Obligations.ReservedSlotsReadZero := by
  intro s r hslot hr
  have hread : s.readSlot r = 0#32 := by rcases hslot with rfl | rfl <;> rfl
  have hwrite : ∀ v, s.writeSlot r v = s := fun v => by rcases hslot with rfl | rfl <;> rfl
  refine ⟨by simp [exec, execRdreg, hr, hread], fun v => ?_⟩
  cases hb : s.status.busy <;> simp [exec, execWrreg, hr, hb, hwrite, State.dropWrite, Status.dropped]

/-! ### What one step does -/

/-- One step, event by event. -/
inductive StepEvent (s : State) : State → Prop
  /-- The engine ends the command in flight (R174), and its races are settled (R305 H2). -/
  | engine (w : Word) (rest : List Input) (c : State) (hi : s.inputs = [] ∨ s.inputs = .engine :: rest)
      (hb : s.status.busy = true) (hp : s.pending = some w)
      (hc : exec (decodeCommand w) (s.withInputs rest) = .next c) :
      StepEvent s (settleRaces (decodeCommand w) (s.withInputs rest) c)
  /-- The turn of an idle engine passes (R264). -/
  | idle (rest : List Input) : StepEvent s (s.withInputs rest)
  /-- An RDREG (R172). -/
  | read (rest : List Input) (v : Word) (hr : s.resetAsserted = false) :
      StepEvent s { s.withInputs rest with readData := v }
  /-- A WRREG while BUSY = 1 (R171). -/
  | dropped (rest : List Input) (hr : s.resetAsserted = false) (hb : s.status.busy = true) :
      StepEvent s (s.withInputs rest).dropWrite
  /-- A WRREG while BUSY = 0 (R171). -/
  | written (rest : List Input) (r : Slot) (v : Word) (hr : s.resetAsserted = false) (hb : s.status.busy = false) :
      StepEvent s ((s.withInputs rest).writeSlot r v)
  /-- The host writes BUF (R50). -/
  | hostWritten (a : Nat) (bs : List Byte) (rest : List Input) (hi : s.inputs = .bufWrite a bs :: rest)
      (hin : a + bs.length ≤ s.memSize) :
      StepEvent s
        { s with
          inputs := rest
          mem := s.mem.setBytes a bs
          raced := s.raced ++ ((List.range bs.length).map fun j => a + j).filter fun b => s.touches b }
  /-- The host reads BUF (R50). -/
  | hostRead (rest : List Input) (bytes : List Byte) (n : Nat) :
      StepEvent s { s with inputs := rest, hostBytes := bytes, draws := n }
  /-- Reset is asserted (R300, R301). -/
  | resetAssert (rest : List Input) (hi : s.inputs = .resetAssert :: rest) :
      StepEvent s (s.withInputs rest).assertReset
  /-- Reset is released (R300). -/
  | resetRelease (rest : List Input) (hi : s.inputs = .resetRelease :: rest) :
      StepEvent s (s.withInputs rest).releaseReset

/-- A bus transaction decodes to an RDREG or a WRREG (R86). -/
theorem decodeBus_ok (header : BitVec 7) (width : Nat) (data : Word) (i : Instr)
    (h : decodeBus header width data = .ok i) : ∃ r, i = .rdreg r ∨ i = .wrreg r data := by
  unfold decodeBus at h
  split at h
  · split at h
    · dsimp only at h
      split at h
      · cases h
        exact ⟨_, .inr rfl⟩
      · cases h
        exact ⟨_, .inl rfl⟩
    · cases h
  · cases h

theorem settle_next (i : Instr) (before t : State) (r : Result) (h : settle i before r = .next t) :
    ∃ c, r = .next c ∧ t = settleRaces i before c := by
  cases r with
  | next c => exact ⟨c, rfl, (Host.Outcome.next.inj h).symm⟩
  | fault f => cases h
  | refused f => cases h

theorem execRdreg_next (r : Slot) (s t : State) (h : execRdreg r s = .next t) :
    s.resetAsserted = false ∧ t = { s with readData := s.readSlot r } := by
  unfold execRdreg at h
  split at h
  · cases h
  · rename_i hr
    exact ⟨Bool.eq_false_iff.mpr hr, (Host.Outcome.next.inj h).symm⟩

theorem execWrreg_next (r : Slot) (v : Word) (s t : State) (h : execWrreg r v s = .next t) :
    s.resetAsserted = false ∧
      ((s.status.busy = true ∧ t = s.dropWrite) ∨ (s.status.busy = false ∧ t = s.writeSlot r v)) := by
  unfold execWrreg at h
  split at h
  · cases h
  · rename_i hr
    refine ⟨Bool.eq_false_iff.mpr hr, ?_⟩
    cases hb : s.status.busy with
    | true => exact .inl ⟨rfl, by simpa [hb] using h.symm⟩
    | false => exact .inr ⟨rfl, by simpa [hb] using h.symm⟩

/-- The host's writes race by the regions of the state, whatever events wait. -/
theorem touches_withInputs (s : State) (es : List Input) : (s.withInputs es).touches = s.touches := by
  funext a
  rw [Bool.eq_iff_iff, State.touches_iff, State.touches_iff]
  exact Iff.rfl

theorem hostWrite_next (s t : State) (a : Nat) (bs : List Byte) (h : hostWrite s a bs = .next t) :
    a + bs.length ≤ s.memSize ∧
      t = { s with
        mem := s.mem.setBytes a bs
        raced := s.raced ++ ((List.range bs.length).map fun j => a + j).filter fun b => s.touches b } := by
  unfold hostWrite at h
  cases hm : memWrite s.memSize s.mem a bs with
  | error f =>
    rw [hm] at h
    cases h
  | ok m =>
    obtain ⟨hin, rfl⟩ := (memWrite_ok ..).mp hm
    rw [hm] at h
    exact ⟨hin, (Host.Outcome.next.inj h).symm⟩

theorem hostRead_next (s t : State) (a n : Nat) (h : hostRead s a n = .next t) :
    t = { s with hostBytes := hostReadBytes s a n, draws := s.draws + n } := by
  unfold hostRead at h
  split at h
  · exact (Host.Outcome.next.inj h).symm
  · cases h

/-- Every step is one of the events. -/
theorem step_event (s t : State) (h : step s = .next t) : StepEvent s t := by
  rcases step_cases s t h with ⟨w, rest, hi, hb, hp, hs⟩ | ⟨rest, -, -, rfl⟩ | ⟨header, width, data, rest, i, -, hd, hx⟩ |
    ⟨a, bs, rest, hi, hw⟩ | ⟨a, n, rest, -, hr⟩ | ⟨rest, hi, rfl⟩ | ⟨rest, hi, rfl⟩
  · obtain ⟨c, hc, rfl⟩ := settle_next _ _ _ _ hs
    exact .engine w rest c (hi.imp_left And.left) hb hp hc
  · exact .idle rest
  · obtain ⟨r, rfl | rfl⟩ := decodeBus_ok _ _ _ _ hd
    · obtain ⟨hr, rfl⟩ := execRdreg_next _ _ _ hx
      exact .read rest _ hr
    · obtain ⟨hr, ⟨hb, rfl⟩ | ⟨hb, rfl⟩⟩ := execWrreg_next _ _ _ _ hx
      · exact .dropped rest hr hb
      · exact .written rest r data hr hb
  · obtain ⟨hin, rfl⟩ := hostWrite_next _ _ _ _ hw
    rw [touches_withInputs]
    exact .hostWritten a bs rest hi hin
  · rw [hostRead_next _ _ _ _ hr]
    exact .hostRead rest _ _
  · exact .resetAssert rest hi
  · exact .resetRelease rest hi

/-! ### What settling races and a reset leave alone -/

section
variable (i : Instr) (b a s : State) (as : List Nat)

@[simp] theorem settleRaces_status : (settleRaces i b a).status = a.status := by
  obtain ⟨m, n, rs, h⟩ := settleRaces_frame i b a
  rw [h]

@[simp] theorem settleRaces_result : (settleRaces i b a).result = a.result := by
  obtain ⟨m, n, rs, h⟩ := settleRaces_frame i b a
  rw [h]

@[simp] theorem settleRaces_resultIndex : (settleRaces i b a).resultIndex = a.resultIndex := by
  obtain ⟨m, n, rs, h⟩ := settleRaces_frame i b a
  rw [h]

@[simp] theorem settleRaces_skipCount : (settleRaces i b a).skipCount = a.skipCount := by
  obtain ⟨m, n, rs, h⟩ := settleRaces_frame i b a
  rw [h]

@[simp] theorem settleRaces_pending : (settleRaces i b a).pending = a.pending := by
  obtain ⟨m, n, rs, h⟩ := settleRaces_frame i b a
  rw [h]

@[simp] theorem settleRaces_resetAsserted : (settleRaces i b a).resetAsserted = a.resetAsserted := by
  obtain ⟨m, n, rs, h⟩ := settleRaces_frame i b a
  rw [h]

@[simp] theorem settleRaces_memSize : (settleRaces i b a).memSize = a.memSize := by
  obtain ⟨m, n, rs, h⟩ := settleRaces_frame i b a
  rw [h]

@[simp] theorem settleRaces_translator : (settleRaces i b a).translator = a.translator := by
  obtain ⟨m, n, rs, h⟩ := settleRaces_frame i b a
  rw [h]

@[simp] theorem State.drawAll_memSize : (s.drawAll as).memSize = s.memSize := by
  obtain ⟨m, n, h⟩ := State.drawAll_frame s as
  rw [h]

@[simp] theorem State.drawAll_translator : (s.drawAll as).translator = s.translator := by
  obtain ⟨m, n, h⟩ := State.drawAll_frame s as
  rw [h]

/-- No race is remembered after a flight (R305 H2). -/
theorem settleRaces_raced (h : a.raced = b.raced) : (settleRaces i b a).raced = [] := by
  unfold settleRaces
  cases hb : b.raced with
  | nil => exact h.trans hb
  | cons x xs => rfl

end

theorem byteMoves_of_no_destination (i : Instr) (s : State) (h : destinationOf i s = none) : byteMoves i s = [] := by
  cases i with
  | detile l rsvd => cases h
  | copy l rsvd => cases h
  | swap l rsvd => cases h
  | nop l rsvd => rfl
  | xlate l rsvd => rfl
  | reservedOp op l rsvd => rfl
  | rdreg r => rfl
  | wrreg r v => rfl

/-- The races of a command without a destination leave BUF as the command left it. -/
theorem settleRaces_mem_of_no_destination (i : Instr) (before after : State) (h : destinationOf i before = none) :
    (settleRaces i before after).mem = after.mem := by
  have hraced : racedBytes i before = [] := by
    simp [racedBytes, byteMoves_of_no_destination i before h, h, holds]
  unfold settleRaces
  cases hb : before.raced with
  | nil => rfl
  | cons x xs => simp only [hraced, State.drawAll_nil]

theorem inFlight_eq_some_iff (s : State) (i : Instr) :
    s.inFlight = some i ↔ s.status.busy = true ∧ ∃ w, s.pending = some w ∧ decodeCommand w = i := by
  cases hb : s.status.busy <;> simp [State.inFlight, hb]

/-- A release changes no register but to its reset value. -/
theorem releaseReset_cases (s : State) :
    (s.resetAsserted = true ∧ s.releaseReset = { s.resetRegisters with resetAsserted := false }) ∨
      (s.resetAsserted = false ∧ s.releaseReset = s) := by
  cases h : s.resetAsserted <;> simp [State.releaseReset, h]

/-- How a command in flight ends (R254): BUSY = 0, PENDING discarded, and what no command touches as it was. -/
theorem exec_command_frame (i : Instr) (s t : State) (hc : i.isCommand = true) (h : exec i s = .next t) :
    t.pending = none ∧ t.memSize = s.memSize ∧ t.translator = s.translator ∧ t.raced = s.raced ∧
      t.resetAsserted = s.resetAsserted ∧
      (t.status = s.status.completedDone ∨ ∃ e, t.status = s.status.completedErr e) := by
  rcases exec_command_cases i s t hc h with ⟨e, -, rfl⟩ | ⟨-, m, r, ri, k, rfl⟩
  · exact ⟨rfl, rfl, rfl, rfl, rfl, .inr ⟨e, rfl⟩⟩
  · exact ⟨rfl, rfl, rfl, rfl, rfl, .inl rfl⟩

/-! ### The invariant -/

theorem Status.Legal.reset : Status.reset.Legal := ⟨by simp, by simp, by simp, by simp⟩

theorem Status.Legal.accepted : Status.accepted.Legal := ⟨by simp, by simp, by simp, by simp⟩

theorem Status.Legal.completedDone {st : Status} (h : st.Legal) (hb : st.busy = true) : st.completedDone.Legal := by
  obtain ⟨-, herr, hcode⟩ := h.busyClear hb
  exact ⟨by simp [herr], by simp, by simp [herr, hcode], by simp [hcode]⟩

theorem Status.Legal.completedErr {st : Status} (h : st.Legal) (hb : st.busy = true) (e : ErrCode) :
    (st.completedErr e).Legal := by
  obtain ⟨hdone, -, -⟩ := h.busyClear hb
  obtain ⟨hne, hle⟩ := e.code_range
  exact ⟨by simp [hdone], by simp, by simp [hne], hle⟩

/-- A command in flight and an asserted reset exclude each other. -/
theorem State.Inv.notReset {s : State} (h : s.Inv) (hb : s.status.busy = true) : s.resetAsserted = false := by
  by_contra hr
  have hreg := h.resetHeld (Bool.eq_true_of_not_eq_false hr)
  rw [← hreg] at hb
  cases hb

/-- A state at its reset values with no race remembered meets the invariant, given BUF and its size. -/
theorem State.Inv.ofReset {s : State} (hreg : s.resetRegisters = s) (hraced : s.raced = [])
    (hsize : 1 ≤ s.memSize ∧ s.memSize ≤ 2 ^ 32) (hwf : s.mem.wf = true) (hin : s.mem.within s.memSize = true) :
    s.Inv := by
  have hstatus : s.status = Status.reset := congrArg State.status hreg.symm
  have hpending : s.pending = none := congrArg State.pending hreg.symm
  constructor
  case status => exact hstatus ▸ Status.Legal.reset
  case pendingDefined => simp [hstatus, hpending]
  case pendingIsCmd => simp [hpending]
  case memSize => exact hsize
  case memWf => exact hwf
  case memWithin => exact hin
  case racedInFlight => exact fun _ => hraced
  case racedWithin => simp [hraced]
  case resetHeld => exact fun _ => hreg

/-- The invariant says nothing of the events waiting and of what the host read, and of BUF and the races only what the host
keeps. -/
theorem State.Inv.ofHostAccess {s : State} (h : s.Inv) (es : List Input) (m : Memory) (rs : List Nat) (bytes : List Byte)
    (n : Nat) (hwf : m.wf = true) (hin : m.within s.memSize = true) (hidle : s.status.busy = false → rs = [])
    (hrs : ∀ a ∈ rs, a < s.memSize) :
    State.Inv { s with inputs := es, mem := m, raced := rs, hostBytes := bytes, draws := n } where
  status := h.status
  pendingDefined := h.pendingDefined
  pendingIsCmd := h.pendingIsCmd
  memSize := h.memSize
  memWf := hwf
  memWithin := hin
  racedInFlight := hidle
  racedWithin := hrs
  resetHeld hr := congrArg
    (fun u : State => { u with inputs := es, mem := m, raced := rs, hostBytes := bytes, draws := n }) (h.resetHeld hr)

theorem State.Inv.withInputs {s : State} (h : s.Inv) (es : List Input) : (s.withInputs es).Inv :=
  h.ofHostAccess es s.mem s.raced s.hostBytes s.draws h.memWf h.memWithin h.racedInFlight h.racedWithin

/-- The engine's end of a flight keeps the invariant (R254, R305 H2). -/
theorem State.Inv.engine {s : State} (h : s.Inv) (w : Word) (c : State) (hb : s.status.busy = true)
    (hc : exec (decodeCommand w) s = .next c) : (settleRaces (decodeCommand w) s c).Inv := by
  have hcmd := decodeCommand_isCommand w
  obtain ⟨hpending, hsize, -, hraced, hreset, hstatus⟩ := exec_command_frame _ s c hcmd hc
  obtain ⟨hwf, hin⟩ := exec_command_memory _ s c hcmd hc
  have hnil := settleRaces_raced (decodeCommand w) s c hraced
  have hlegal : c.status.Legal ∧ c.status.busy = false := by
    rcases hstatus with hst | ⟨e, hst⟩
    · exact hst ▸ ⟨h.status.completedDone hb, rfl⟩
    · exact hst ▸ ⟨h.status.completedErr hb e, rfl⟩
  constructor
  case status => exact (settleRaces_status _ s c).symm ▸ hlegal.1
  case pendingDefined => simp [hpending, hlegal.2]
  case pendingIsCmd => simp [hpending]
  case memSize => simpa [hsize] using h.memSize
  case memWf =>
    unfold settleRaces
    cases hr : s.raced with
    | nil => exact hwf h.memWf
    | cons a as => exact State.drawAll_wf c _ (hwf h.memWf)
  case memWithin =>
    rw [settleRaces_memSize, hsize]
    unfold settleRaces
    cases hr : s.raced with
    | nil => exact hin h.memWithin
    | cons a as =>
      exact State.drawAll_within c _ s.memSize (hin h.memWithin) (racedBytes_inside _ s h.racedWithin)
  case racedInFlight => exact fun _ => hnil
  case racedWithin => simp [hnil]
  case resetHeld =>
    intro hr
    rw [settleRaces_resetAsserted, hreset, h.notReset hb] at hr
    cases hr

/-- A read and a dropped write keep the invariant: it says nothing of `readData` and DROP while reset is not asserted. -/
theorem State.Inv.ofReadOrDrop {s : State} (h : s.Inv) (v : Word) (d : Bool) (hr : s.resetAsserted = false) :
    State.Inv { s with readData := v, status := { s.status with drop := d } } where
  status := ⟨h.status.notBoth, h.status.busyClear, h.status.errIffCode, h.status.knownCode⟩
  pendingDefined := h.pendingDefined
  pendingIsCmd := h.pendingIsCmd
  memSize := h.memSize
  memWf := h.memWf
  memWithin := h.memWithin
  racedInFlight := h.racedInFlight
  racedWithin := h.racedWithin
  resetHeld hr' := absurd (hr'.symm.trans hr) (by simp)

/-- A WRREG accepts a command, or leaves CMD, STATUS and PENDING alone. -/
theorem writeSlot_control (s : State) (r : Slot) (v : Word) :
    (r = .cmd ∧ s.writeSlot r v = s.accept v) ∨
      ((s.writeSlot r v).cmd = s.cmd ∧ (s.writeSlot r v).status = s.status ∧
        (s.writeSlot r v).pending = s.pending) := by
  cases r with
  | cmd => exact .inl ⟨rfl, rfl⟩
  | _ => exact .inr ⟨rfl, rfl, rfl⟩

theorem State.Inv.writeSlot {s : State} (h : s.Inv) (r : Slot) (v : Word) (hr : s.resetAsserted = false)
    (hb : s.status.busy = false) : (s.writeSlot r v).Inv := by
  have hraced := h.racedInFlight hb
  constructor
  case status =>
    rcases writeSlot_control s r v with ⟨-, hw⟩ | ⟨-, hst, -⟩
    · exact hw ▸ Status.Legal.accepted
    · exact hst ▸ h.status
  case pendingDefined =>
    rcases writeSlot_control s r v with ⟨-, hw⟩ | ⟨-, hst, hp⟩
    · simp [hw]
    · rw [hst, hp, h.pendingDefined]
  case pendingIsCmd =>
    rcases writeSlot_control s r v with ⟨-, hw⟩ | ⟨hcmd, -, hp⟩
    · simp [hw]
    · rw [hcmd, hp]
      exact h.pendingIsCmd
  case memSize => simpa using h.memSize
  case memWf => simpa using h.memWf
  case memWithin => simpa using h.memWithin
  case racedInFlight => simp [hraced]
  case racedWithin => simp [hraced]
  case resetHeld => simp [hr]

/-- A host write keeps the invariant: only a flight has regions to race with (R305 H2). -/
theorem State.Inv.hostWritten {s : State} (h : s.Inv) (a : Nat) (bs : List Byte) (es : List Input)
    (hin : a + bs.length ≤ s.memSize) :
    State.Inv
      { s with
        inputs := es
        mem := s.mem.setBytes a bs
        raced := s.raced ++ ((List.range bs.length).map fun j => a + j).filter fun b => s.touches b } := by
  apply h.ofHostAccess
  case hwf => exact Memory.wf_setBytes _ _ _ h.memWf
  case hin => exact Memory.within_setBytes _ _ _ _ h.memWithin hin
  case hidle =>
    intro hb
    simp [h.racedInFlight hb, State.touches_iff, State.InFlightRegion, hb]
  case hrs =>
    intro b hmem
    simp only [List.mem_append, List.mem_filter, List.mem_map, List.mem_range] at hmem
    rcases hmem with hmem | ⟨⟨j, hj, rfl⟩, -⟩
    · exact h.racedWithin b hmem
    · omega

theorem State.Inv.assertReset {s : State} (h : s.Inv) : s.assertReset.Inv := by
  apply State.Inv.ofReset
  case hreg => rfl
  case hraced => rfl
  case hsize => simpa [State.assertReset] using h.memSize
  case hwf => exact State.drawAll_wf s _ h.memWf
  case hin =>
    simpa [State.assertReset] using State.drawAll_within s _ s.memSize h.memWithin (abortedBytes_inside s)

theorem State.Inv.releaseReset {s : State} (h : s.Inv) : s.releaseReset.Inv := by
  rcases releaseReset_cases s with ⟨hr, hs⟩ | ⟨-, hs⟩
  · rw [hs]
    have hidle : s.status.busy = false := by
      rw [← h.resetHeld hr]
      rfl
    exact State.Inv.ofReset rfl (h.racedInFlight hidle) h.memSize h.memWf h.memWithin
  · rw [hs]
    exact h

/-- No step changes MEM_SIZE or TILED_OFFSET (R6). -/
theorem step_parameters (s t : State) (h : step s = .next t) : t.memSize = s.memSize ∧ t.translator = s.translator := by
  cases step_event s t h with
  | engine w rest c hi hb hp hc =>
    obtain ⟨-, hsize, htr, -⟩ := exec_command_frame _ _ _ (decodeCommand_isCommand w) hc
    simp [hsize, htr]
  | idle rest => exact ⟨rfl, rfl⟩
  | read rest v hr => exact ⟨rfl, rfl⟩
  | dropped rest hr hb => exact ⟨rfl, rfl⟩
  | written rest r v hr hb => simp
  | hostWritten a bs rest hi hin => exact ⟨rfl, rfl⟩
  | hostRead rest bytes n => exact ⟨rfl, rfl⟩
  | resetAssert rest hi => simp [State.assertReset]
  | resetRelease rest hi =>
    rcases releaseReset_cases (s.withInputs rest) with ⟨-, hs⟩ | ⟨-, hs⟩ <;> simp [hs]

theorem step_keeps_inv (s t : State) (hs : s.Inv) (h : step s = .next t) : t.Inv := by
  cases step_event s t h with
  | engine w rest c hi hb hp hc => exact (hs.withInputs rest).engine w c hb hc
  | idle rest => exact hs.withInputs rest
  | read rest v hr => exact (hs.withInputs rest).ofReadOrDrop v s.status.drop hr
  | dropped rest hr hb => exact (hs.withInputs rest).ofReadOrDrop s.readData true hr
  | written rest r v hr hb => exact (hs.withInputs rest).writeSlot r v hr hb
  | hostWritten a bs rest hi hin => exact hs.hostWritten a bs rest hin
  | hostRead rest bytes n =>
    exact hs.ofHostAccess rest s.mem s.raced bytes n hs.memWf hs.memWithin hs.racedInFlight hs.racedWithin
  | resetAssert rest hi => exact (hs.withInputs rest).assertReset
  | resetRelease rest hi => exact (hs.withInputs rest).releaseReset

/-- Settles O41, event by event. -/
theorem stepKeepsTheInvariant : Obligations.StepKeepsTheInvariant :=
  fun s t hs h => ⟨step_keeps_inv s t hs h, step_parameters s t h⟩

/-! ### Reachable states -/

/-- Every reachable state meets the invariant. -/
theorem Reachable.inv {s : State} (h : Reachable s) : s.Inv := by
  induction h with
  | reset m tr events hw hi =>
    refine State.Inv.ofReset rfl rfl ⟨?_, ?_⟩ hw hi
    · exact Nat.le_add_left 1 _
    · exact Config.lastBufAddress.isLt
  | step s t _ ht ih => exact step_keeps_inv s t ih ht

/-- While a step does not end a flight, DONE and ERR stay 0. -/
theorem step_keeps_not_completed (s t : State) (h : step s = .next t)
    (hc : s.status.busy = true → t.status.busy = true) (hs : s.status.done = false ∧ s.status.err = false) :
    t.status.done = false ∧ t.status.err = false := by
  cases step_event s t h with
  | engine w rest c hi hb hp hx =>
    have hbusy : c.status.busy = true := by simpa using hc hb
    obtain ⟨-, -, -, -, -, hst | ⟨e, hst⟩⟩ := exec_command_frame _ _ _ (decodeCommand_isCommand w) hx
    · simp [hst] at hbusy
    · simp [hst] at hbusy
  | idle rest => exact hs
  | read rest v hr => exact hs
  | dropped rest hr hb => exact hs
  | written rest r v hr hb =>
    rcases writeSlot_control (s.withInputs rest) r v with ⟨-, hw⟩ | ⟨-, hst, -⟩
    · simp [hw]
    · rw [hst]
      exact hs
  | hostWritten a bs rest hi hin => exact hs
  | hostRead rest bytes n => exact hs
  | resetAssert rest hi => exact ⟨rfl, rfl⟩
  | resetRelease rest hi =>
    rcases releaseReset_cases (s.withInputs rest) with ⟨-, hw⟩ | ⟨-, hw⟩ <;> rw [hw]
    · exact ⟨rfl, rfl⟩
    · exact hs

/-- Settles O42: R24's invariants are part of the machine's, and before the first completion by induction on the run. -/
theorem statusFieldsStayConsistent : Obligations.StatusFieldsStayConsistent := by
  refine ⟨fun s hs => ?_, fun s hs => ?_⟩
  · exact ⟨hs.inv.status.notBoth, hs.inv.status.busyClear, hs.inv.status.errIffCode⟩
  · induction hs with
    | reset m tr events => exact ⟨rfl, rfl⟩
    | step s t _ ht hc ih => exact step_keeps_not_completed s t ht hc ih
    | resetAgain s => exact ⟨rfl, rfl⟩

/-! ### Who changes the result registers and BUF -/

/-- Of all events only the engine's end of a flight and a reset reach RESULT, RESULT_INDEX and SKIPCOUNT. -/
theorem step_results (s t : State) (h : step s = .next t) :
    (∃ w rest c, s.status.busy = true ∧ s.pending = some w ∧ exec (decodeCommand w) (s.withInputs rest) = .next c ∧
        t = settleRaces (decodeCommand w) (s.withInputs rest) c) ∨
      (∃ rest, (s.inputs = .resetAssert :: rest ∨ s.inputs = .resetRelease :: rest) ∧
        t.result = 0#32 ∧ t.resultIndex = 0#32 ∧ t.skipCount = 0#32) ∨
      (t.result = s.result ∧ t.resultIndex = s.resultIndex ∧ t.skipCount = s.skipCount) := by
  cases step_event s t h with
  | engine w rest c hi hb hp hc => exact .inl ⟨w, rest, c, hb, hp, hc, rfl⟩
  | idle rest => exact .inr (.inr ⟨rfl, rfl, rfl⟩)
  | read rest v hr => exact .inr (.inr ⟨rfl, rfl, rfl⟩)
  | dropped rest hr hb => exact .inr (.inr ⟨rfl, rfl, rfl⟩)
  | written rest r v hr hb => exact .inr (.inr (by simp))
  | hostWritten a bs rest hi hin => exact .inr (.inr ⟨rfl, rfl, rfl⟩)
  | hostRead rest bytes n => exact .inr (.inr ⟨rfl, rfl, rfl⟩)
  | resetAssert rest hi => exact .inr (.inl ⟨rest, .inl hi, rfl, rfl, rfl⟩)
  | resetRelease rest hi =>
    rcases releaseReset_cases (s.withInputs rest) with ⟨-, hs⟩ | ⟨-, hs⟩ <;> rw [hs]
    · exact .inr (.inl ⟨rest, .inr hi, rfl, rfl, rfl⟩)
    · exact .inr (.inr ⟨rfl, rfl, rfl⟩)

/-- Settles O46: of all commands only an XLATE whose checks passed reaches RESULT and RESULT_INDEX. -/
theorem resultsChangeOnlyByXlateOrReset : Obligations.ResultsChangeOnlyByXlateOrReset := by
  intro s t h hne
  rcases step_results s t h with ⟨w, rest, c, hb, hp, hc, rfl⟩ | ⟨rest, hi, hr, hri, -⟩ | ⟨hr, hri, -⟩
  · rcases exec_command_effect _ _ _ (decodeCommand_isCommand w) hc with ⟨e, -, rfl⟩ | ⟨hn, u, hu, rfl⟩
    · simp at hne
    · rcases hu.results with ⟨hr, hri⟩ | ⟨l, rsvd, hw, rfl⟩
      · simp [hr, hri] at hne
      · rw [hw] at hn
        obtain ⟨rfl, hl⟩ := (commandCheck_xlate_none_iff l rsvd _).mp hn
        exact .inl ⟨w, l, hb, hp, hw, hl, by simp [State.tiled], by simp, by simp⟩
  · exact .inr ⟨rest, hi, hr, hri⟩
  · simp [hr, hri] at hne

/-- Settles O47: of all commands only a DETILE whose checks passed reaches SKIPCOUNT. -/
theorem skipCountChangesOnlyByDetileOrReset : Obligations.SkipCountChangesOnlyByDetileOrReset := by
  intro s t h hne
  rcases step_results s t h with ⟨w, rest, c, hb, hp, hc, rfl⟩ | ⟨rest, hi, -, -, hk⟩ | ⟨-, -, hk⟩
  · rcases exec_command_effect _ _ _ (decodeCommand_isCommand w) hc with ⟨e, -, rfl⟩ | ⟨hn, u, hu, rfl⟩
    · simp at hne
    · rcases hu.skipCount with hk | ⟨l, rsvd, hw⟩
      · simp [hk] at hne
      · rw [hw] at hn
        obtain ⟨⟨rfl, hl⟩, -⟩ := (commandCheck_detile_none_iff l rsvd _).mp hn
        exact .inl ⟨w, l, hb, hp, hw, hl, by simp⟩
  · exact .inr ⟨rest, hi, hk⟩
  · exact absurd hk hne

/-- The engine's turn changes no byte of BUF for a command without a destination. -/
theorem engine_mem_of_no_destination (w : Word) (s c : State) (hc : exec (decodeCommand w) s = .next c)
    (hd : destinationOf (decodeCommand w) s = none) : (settleRaces (decodeCommand w) s c).mem = s.mem := by
  rw [settleRaces_mem_of_no_destination _ _ _ hd]
  exact (onlyTheDestinationRegionIsWritten _ _ _ (decodeCommand_isCommand w) hc).2 hd

/-- A reset changes BUF only in the flight of a command with a destination (R301, R302). -/
theorem destination_of_assertReset_mem_ne (s : State) (h : s.assertReset.mem ≠ s.mem) :
    ∃ w, s.status.busy = true ∧ s.pending = some w ∧ destinationOf (decodeCommand w) s = some s.dstRegion := by
  cases ha : abortedBytes s with
  | nil => exact absurd (by simp [State.assertReset, ha]) h
  | cons a as =>
    obtain ⟨⟨i, hi, hd⟩, -⟩ := (mem_abortedBytes s a).mp (by simp [ha])
    obtain ⟨hb, w, hp, rfl⟩ := (inFlight_eq_some_iff s i).mp hi
    exact ⟨w, hb, hp, hd⟩

theorem destinationOf_withInputs (i : Instr) (s : State) (es : List Input) :
    destinationOf i (s.withInputs es) = destinationOf i s := by
  cases i <;> rfl

/-- Settles O48: only the engine, a reset and the host's write reach BUF, the first two for a command with a destination. -/
theorem bufChangesOnlyByItsWriters : Obligations.BufChangesOnlyByItsWriters := by
  intro s t h hne
  cases step_event s t h with
  | engine w rest c hi hb hp hc =>
    rcases destinationOf_cases (decodeCommand w) s with hd | hd
    · exact absurd (engine_mem_of_no_destination w _ c hc ((destinationOf_withInputs _ s rest).trans hd)) hne
    · exact .inl ⟨w, hb, hp, hd, hi.imp_right fun hi => ⟨rest, .inl hi⟩⟩
  | idle rest => simp at hne
  | read rest v hr => simp at hne
  | dropped rest hr hb => simp at hne
  | written rest r v hr hb => simp at hne
  | hostWritten a bs rest hi hin => exact .inr ⟨a, bs, rest, hi⟩
  | hostRead rest bytes n => simp at hne
  | resetAssert rest hi =>
    obtain ⟨w, hb, hp, hd⟩ := destination_of_assertReset_mem_ne (s.withInputs rest) hne
    exact .inl ⟨w, hb, hp, (destinationOf_withInputs _ s rest).symm.trans hd, .inr ⟨rest, .inr hi⟩⟩
  | resetRelease rest hi =>
    rcases releaseReset_cases (s.withInputs rest) with ⟨-, hs⟩ | ⟨-, hs⟩ <;> simp [hs] at hne

/-! ### What a command reads -/

theorem ChangesAlike.unchanged {α : Type} (a a' : α) : ChangesAlike a a' a a' := .inr ⟨rfl, rfl⟩

/-- Two changes after one another. -/
theorem ChangesAlike.trans {α : Type} {a a' b b' c c' : α} (h : ChangesAlike a a' b b') (k : ChangesAlike b b' c c') :
    ChangesAlike a a' c c' := by
  rcases k with hc | ⟨rfl, rfl⟩
  · exact .inl hc
  · exact h

/-- A command's checks depend on the registers that R37 lists for it. -/
theorem commandCheck_of_readsAgree (i : Instr) (s s' : State) (h : ReadsAgree i s s') :
    commandCheck i s' = commandCheck i s := by
  cases i with
  | detile l rsvd =>
    obtain ⟨⟨-, -, hsb, hsl, hdb, hdl, hsize, -⟩, -⟩ := h
    simp only [commandCheck, State.srcRegion, State.dstRegion, hsb, hsl, hdb, hdl, hsize]
  | copy l rsvd =>
    obtain ⟨⟨hsb, hsl, hdb, hdl, hsize⟩, -⟩ := h
    simp only [commandCheck, State.srcRegion, State.dstRegion, hsb, hsl, hdb, hdl, hsize]
  | swap l rsvd =>
    obtain ⟨⟨hdb, hdl, hsize⟩, -⟩ := h
    simp only [commandCheck, State.dstRegion, hdb, hdl, hsize]
  | nop l rsvd => rfl
  | xlate l rsvd => rfl
  | reservedOp op l rsvd => rfl
  | rdreg r => rfl
  | wrreg r v => rfl

/-- One transfer whose source bytes agree changes every byte alike. -/
theorem Transfer.apply_changesAlike (m m' : Memory) (t : Transfer)
    (h : ∀ a, t.src ≤ a → a < t.src + t.len → m'.byte a = m.byte a) (a : Nat) :
    ChangesAlike (m.byte a) (m'.byte a) ((t.apply m).byte a) ((t.apply m').byte a) := by
  by_cases hw : t.Writes a
  · left
    rw [Transfer.byte_apply_written m t a hw, Transfer.byte_apply_written m' t a hw]
    exact h _ (Nat.le_add_right _ _) (by have := hw.1; have := hw.2; omega)
  · rw [Transfer.byte_apply_unwritten m t a hw, Transfer.byte_apply_unwritten m' t a hw]
    exact ChangesAlike.unchanged _ _

/-- Transfers that read inside a region and write none of it change every byte alike in two memories that agree on it. -/
theorem foldl_apply_changesAlike (r : Region) (ts : List Transfer) (m m' : Memory)
    (hr : ∀ t ∈ ts, r.base ≤ t.src ∧ t.src + t.len ≤ r.base + r.len)
    (hw : ∀ t ∈ ts, ∀ a, r.base ≤ a → a < r.base + r.len → ¬t.Writes a)
    (h : ∀ a, r.base ≤ a → a < r.base + r.len → m'.byte a = m.byte a) (a : Nat) :
    ChangesAlike (m.byte a) (m'.byte a) ((ts.foldl Transfer.apply m).byte a) ((ts.foldl Transfer.apply m').byte a) := by
  induction ts generalizing m m' with
  | nil => exact ChangesAlike.unchanged _ _
  | cons t ts ih =>
    simp only [List.foldl_cons]
    have hsrc := hr t (by simp)
    have first := Transfer.apply_changesAlike m m' t
      (fun b hlo hhi => h b (hsrc.1.trans hlo) (hhi.trans_le hsrc.2)) a
    refine first.trans (ih _ _ (fun u hu => hr u (by simp [hu])) (fun u hu => hw u (by simp [hu])) fun b hlo hhi => ?_)
    have hnot := hw t (by simp) b hlo hhi
    rw [Transfer.byte_apply_unwritten m t b hnot, Transfer.byte_apply_unwritten m' t b hnot, h b hlo hhi]

/-- DETILE's transfers and its count depend on the registers that R37 lists and on the translator. -/
theorem detile_of_readsAgree (l : BitVec 4) (rsvd : BitVec 24) (s s' : State) (h : ReadsAgree (.detile l rsvd) s s') :
    detileTransfers s'.tiled l s' = detileTransfers s.tiled l s ∧
      detileSkipped s'.tiled l s' = detileSkipped s.tiled l s := by
  obtain ⟨⟨hpitch, hheight, hsb, hsl, hdb, hdl, -, htr⟩, -⟩ := h
  have hfits : blockFits s'.tiled l s' = blockFits s.tiled l s := by
    funext b
    rw [Bool.eq_iff_iff, blockFits_iff, blockFits_iff]
    simp only [tiledBlockOffset, linearBlockOffset, State.tiled, hpitch, hsl, hdl, htr]
  have htransfer : blockTransfer s'.tiled l s' = blockTransfer s.tiled l s := by
    funext b
    simp only [blockTransfer, tiledBlockOffset, linearBlockOffset, State.tiled, hpitch, hsb, hdb, htr]
  constructor
  · simp only [detileTransfers, hfits, htransfer, hpitch, hheight]
  · simp only [detileSkipped, hfits, hpitch, hheight]

/-- The partner of a byte in a whole pair lies in a whole pair (R160). -/
theorem pairPartner_in_pairs (base n a : Nat) (h : base ≤ a ∧ a < base + 2 * n) :
    base ≤ pairPartner base a ∧ pairPartner base a < base + 2 * n := by
  unfold pairPartner
  split <;> omega

/-- The effects of a command in two states that agree on what it reads (R37). -/
theorem CommandEffect.changesAlike {i : Instr} {s s' u u' : State} (hu : CommandEffect s i u) (hu' : CommandEffect s' i u')
    (hr : ReadsAgree i s s') (hn : commandCheck i s = none) :
    ChangesAlike s.result s'.result u.result u'.result ∧
      ChangesAlike s.resultIndex s'.resultIndex u.resultIndex u'.resultIndex ∧
      ChangesAlike s.skipCount s'.skipCount u.skipCount u'.skipCount ∧
      ∀ a, ChangesAlike (s.mem.byte a) (s'.mem.byte a) (u.mem.byte a) (u'.mem.byte a) := by
  cases hu with
  | nop l rsvd =>
    cases hu'
    exact ⟨.unchanged _ _, .unchanged _ _, .unchanged _ _, fun a => .unchanged _ _⟩
  | xlate l rsvd =>
    cases hu'
    obtain ⟨hx, hy, hpitch, htr⟩ := hr
    refine ⟨.inl ?_, .inl ?_, .unchanged _ _, fun a => .unchanged _ _⟩ <;>
      simp [State.tiled, hx, hy, hpitch, htr]
  | detile l rsvd =>
    cases hu'
    obtain ⟨htransfers, hskipped⟩ := detile_of_readsAgree l rsvd s s' hr
    obtain ⟨-, -, -, hdisjoint⟩ := (commandCheck_detile_none_iff l rsvd s).mp hn
    refine ⟨.unchanged _ _, .unchanged _ _, .inl (congrArg (BitVec.ofNat 32) hskipped), fun a => ?_⟩
    simp only [htransfers]
    apply foldl_apply_changesAlike s.srcRegion
    case hr => exact fun t ht => (detileTransfers_bounds _ _ _ t ht).1
    case hw =>
      intro t ht b hlo hhi hwrites
      have hdst := (detileTransfers_bounds _ _ _ t ht).2
      exact not_overlaps_disjoint _ _ hdisjoint b ⟨hlo, hhi⟩ ⟨hdst.1.trans hwrites.1, hwrites.2.trans_le hdst.2⟩
    case h => exact hr.2
  | copy l rsvd =>
    cases hu'
    obtain ⟨⟨hsb, hsl, hdb, hdl, -⟩, hbytes⟩ := hr
    have htransfer : copyTransfer s' = copyTransfer s := by simp only [copyTransfer, hsb, hsl, hdb, hdl]
    refine ⟨.unchanged _ _, .unchanged _ _, .unchanged _ _, fun a => ?_⟩
    simp only [htransfer]
    exact Transfer.apply_changesAlike _ _ _ hbytes a
  | swap l rsvd m hm =>
    cases hu' with
    | swap _ _ m' hm' =>
      obtain ⟨⟨hdb, hdl, -⟩, hbytes⟩ := hr
      refine ⟨.unchanged _ _, .unchanged _ _, .unchanged _ _, fun a => ?_⟩
      simp only [hm, hm', hdb, hdl]
      by_cases hin : s.dstBase.toNat ≤ a ∧ a < s.dstBase.toNat + 2 * (s.dstLen.toNat / 2)
      · obtain ⟨hlo, hhi⟩ := pairPartner_in_pairs _ _ a hin
        simp only [if_pos hin]
        exact .inl (hbytes _ hlo hhi)
      · simp only [if_neg hin]
        exact .unchanged _ _

/-- Settles O28: the checks agree, so both commands end with the same error, or both have their effect. -/
theorem commandsReadOnlyWhatIsListed : Obligations.CommandsReadOnlyWhatIsListed := by
  intro i s s' t t' hc hr h h'
  have hcheck := commandCheck_of_readsAgree i s s' hr
  rcases exec_command_effect i s t hc h with ⟨e, he, rfl⟩ | ⟨hn, u, hu, rfl⟩
  · rcases exec_command_effect i s' t' hc h' with ⟨e', he', rfl⟩ | ⟨hn', -⟩
    · obtain rfl : e' = e := by simpa [hcheck, he] using he'.symm
      exact ⟨.inr ⟨e'.code, rfl, rfl⟩, .unchanged _ _, .unchanged _ _, .unchanged _ _, fun a => .unchanged _ _⟩
    · simp [hcheck, he] at hn'
  · rcases exec_command_effect i s' t' hc h' with ⟨e', he', -⟩ | ⟨-, u', hu', rfl⟩
    · simp [hcheck, hn] at he'
    · have halike := hu.changesAlike hu' hr hn
      refine ⟨.inl ⟨?_, ?_⟩, halike⟩
      · cases hu <;> rfl
      · cases hu' <;> rfl

end Sys2Proof.Machine

/-! PROOFS. The memory family (20_memory.md): every command ends inside BUF, every defined event is performed, and what
the host's own accesses to BUF do. -/

namespace Sys2Proof.Machine

/-! ### Every command answers a next state -/

/-- Every command runs its checks first (R253). -/
theorem exec_command_checked (i : Instr) (s : State) (hc : i.isCommand = true) :
    ∃ effect, exec i s = s.runChecked (commandCheck i s) effect := by
  cases i with
  | rdreg r => cases hc
  | wrreg r v => cases hc
  | reservedOp op l rsvd => exact ⟨.next s.completeDone, rfl⟩
  | _ => exact ⟨_, rfl⟩

/-- A command whose checks fail ends with the first error (R252, R253). -/
theorem exec_of_commandCheck_some (i : Instr) (s : State) (e : ErrCode) (hc : i.isCommand = true)
    (he : commandCheck i s = some e) : exec i s = .next (s.completeErr e) := by
  obtain ⟨effect, hx⟩ := exec_command_checked i s hc
  rw [hx, he, State.runChecked_some]

/-- A command whose checks pass reaches only bytes of BUF, so none of its accesses faults (R51). -/
theorem exec_answers_of_commandCheck_none (i : Instr) (s : State) (hc : i.isCommand = true)
    (hn : commandCheck i s = none) : ∃ t, exec i s = .next t := by
  cases i with
  | nop l rsvd => exact ⟨s.completeDone, by simp only [exec, execNop, hn, State.runChecked_none]⟩
  | xlate l rsvd => exact ⟨(s.translated s.tiled l).completeDone, by
      simp only [exec, execXlate, hn, State.runChecked_none]⟩
  | detile l rsvd => exact ⟨_, execDetile_ok l rsvd s hn⟩
  | copy l rsvd => exact ⟨_, execCopy_ok l rsvd s hn⟩
  | swap l rsvd =>
    obtain ⟨m, hx, -⟩ := execSwap_ok l rsvd s hn
    exact ⟨_, hx⟩
  | reservedOp op l rsvd => cases hn
  | rdreg r => cases hc
  | wrreg r v => cases hc

/-- Settles O16: a failed check ends the command before any access, and passed checks keep every access inside BUF. -/
theorem engineNeverLeavesBuf : Obligations.EngineNeverLeavesBuf := by
  intro i s hc
  cases hck : commandCheck i s with
  | none => exact exec_answers_of_commandCheck_none i s hc hck
  | some e => exact ⟨_, exec_of_commandCheck_some i s e hc hck⟩

/-! ### One step, by the event that is next -/

section
variable {s : State} {rest : List Input}

theorem step_of_no_inputs (hi : s.inputs = []) : step s = perform (engineTurn s) := by
  simp only [step, fetch, hi]

theorem step_of_engine (hi : s.inputs = .engine :: rest) : step s = perform (engineTurn (s.withInputs rest)) := by
  simp only [step, fetch, hi]

theorem step_of_bus {header : BitVec 7} {width : Nat} {data : Word} (hi : s.inputs = .bus header width data :: rest) :
    step s = perform (busTurn (s.withInputs rest) header width data) := by
  simp only [step, fetch, hi]

theorem step_of_bufWrite {a : Nat} {bs : List Byte} (hi : s.inputs = .bufWrite a bs :: rest) :
    step s = hostWrite (s.withInputs rest) a bs := by
  simp only [step, fetch, hi, perform]

theorem step_of_bufRead {a n : Nat} (hi : s.inputs = .bufRead a n :: rest) :
    step s = hostRead (s.withInputs rest) a n := by
  simp only [step, fetch, hi, perform]

theorem step_of_resetAssert (hi : s.inputs = .resetAssert :: rest) :
    step s = .next (s.withInputs rest).assertReset := by
  simp only [step, fetch, hi, perform]

theorem step_of_resetRelease (hi : s.inputs = .resetRelease :: rest) :
    step s = .next (s.withInputs rest).releaseReset := by
  simp only [step, fetch, hi, perform]

end

/-! ### The host's accesses to BUF -/

/-- A host write inside BUF writes its bytes and remembers its races (R50, R305 H2). -/
theorem hostWrite_inside (s : State) (a : Nat) (bs : List Byte) (hin : a + bs.length ≤ s.memSize) :
    hostWrite s a bs =
      .next { s with
        mem := s.mem.setBytes a bs
        raced := s.raced ++ ((List.range bs.length).map fun i => a + i).filter fun b => s.touches b } := by
  have hw : memWrite s.memSize s.mem a bs = .ok (s.mem.setBytes a bs) := (memWrite_ok ..).mpr ⟨hin, rfl⟩
  rw [hostWrite, hw, withMemory]

/-- A host read inside BUF returns its bytes (R50, R305 H2). -/
theorem hostRead_inside (s : State) (a n : Nat) (hin : a + n ≤ s.memSize) :
    hostRead s a n = .next { s with hostBytes := hostReadBytes s a n, draws := s.draws + n } :=
  if_pos hin

/-- Of the addresses that a host access names, those in a region of the command in flight (R305 H2). -/
theorem mem_touched_addresses (s : State) (a n b : Nat) :
    b ∈ ((List.range n).map fun i => a + i).filter (fun c => s.touches c) ↔
      a ≤ b ∧ b < a + n ∧ s.InFlightRegion b := by
  simp only [List.mem_filter, List.mem_map, List.mem_range, State.touches_iff]
  constructor
  · rintro ⟨⟨i, hlt, rfl⟩, hf⟩
    exact ⟨by omega, by omega, hf⟩
  · rintro ⟨hlo, hhi, hf⟩
    exact ⟨⟨b - a, by omega, by omega⟩, hf⟩

@[simp] theorem hostReadBytes_length (s : State) (a n : Nat) : (hostReadBytes s a n).length = n := by
  induction n generalizing a with
  | zero => rfl
  | succ n ih => simp [hostReadBytes, ih]

/-- One byte of a host read. Free bytes are counted from the last address down, so that no two share a draw. -/
theorem hostReadBytes_getElem? (s : State) (a n i : Nat) (h : i < n) :
    (hostReadBytes s a n)[i]? =
      some (if s.touches (a + i) then Config.freeByte (s.draws + (n - 1 - i)) else s.mem.byte (a + i)) := by
  induction n generalizing a i with
  | zero => cases h
  | succ n ih =>
    cases i with
    | zero => rfl
    | succ i =>
      have haddr : a + 1 + i = a + (i + 1) := by omega
      have hdraw : n - 1 - i = n + 1 - 1 - (i + 1) := by omega
      rw [hostReadBytes, List.getElem?_cons_succ, ih (a + 1) i (by omega), haddr, hdraw]

theorem inFlightRegion_withInputs (s : State) (es : List Input) (a : Nat) :
    (s.withInputs es).InFlightRegion a ↔ s.InFlightRegion a := Iff.rfl

/-- Settles O54: a write sets its bytes and remembers those that race; each byte of a read has a draw of its own. -/
theorem hostAccessesReachBuf : Obligations.HostAccessesReachBuf := by
  refine ⟨fun s a bs rest hi hin => ?_, fun s a n rest hi hin => ?_⟩
  · refine ⟨_, _, (step_of_bufWrite hi).trans (hostWrite_inside (s.withInputs rest) a bs hin),
      fun b => Memory.byte_setBytes s.mem a b bs, fun b => ?_⟩
    rw [List.mem_append, mem_touched_addresses, inFlightRegion_withInputs, State.withInputs_raced]
  · refine ⟨_, _, (step_of_bufRead hi).trans (hostRead_inside (s.withInputs rest) a n hin),
      hostReadBytes_length _ a n, fun i hlt => ?_⟩
    rw [hostReadBytes_getElem? _ a n i hlt, touches_withInputs, ← State.touches_iff]
    refine ⟨fun hf => ?_, fun hf => ⟨s.draws + (n - 1 - i), by omega, ?_, ?_⟩⟩
    · rw [if_neg hf, State.withInputs_mem]
    · rw [State.withInputs_draws]
      omega
    · rw [if_pos hf, State.withInputs_draws]

/-! ### Every defined event is performed -/

/-- The engine's turn ends the command in flight, which PENDING names (R35, R174). -/
theorem engineTurn_answers (s : State) (hp : s.pending.isSome = s.status.busy) :
    ∃ t, perform (engineTurn s) = .next t := by
  cases hb : s.status.busy with
  | false => exact ⟨s, congrArg perform (engineTurn_idle s hb)⟩
  | true =>
    obtain ⟨w, hw⟩ := Option.isSome_iff_exists.mp (hp.trans hb)
    obtain ⟨c, hc⟩ := engineNeverLeavesBuf (decodeCommand w) s (decodeCommand_isCommand w)
    exact ⟨settleRaces (decodeCommand w) s c, by rw [engineTurn_busy s w hb hw, perform, hc, settle]⟩

/-- An aligned transaction of 32 bits decodes (R56, R86). -/
theorem decodeBus_aligned (header : BitVec 7) (data : Word) (h : header.extractLsb' 0 2 = 0#2) :
    ∃ i, decodeBus header 32 data = .ok i := by
  rw [decodeBus, if_pos rfl, if_pos h]
  cases header.getLsbD 6 with
  | false => exact ⟨_, rfl⟩
  | true => exact ⟨_, rfl⟩

theorem execRdreg_answers (r : Slot) (s : State) (hr : s.resetAsserted = false) :
    execRdreg r s = .next { s with readData := s.readSlot r } := by
  simp only [execRdreg, hr, Bool.false_eq_true, if_false]

theorem execWrreg_answers (r : Slot) (v : Word) (s : State) (hr : s.resetAsserted = false) :
    execWrreg r v s = .next (if s.status.busy then s.dropWrite else s.writeSlot r v) := by
  cases hb : s.status.busy <;> simp only [execWrreg, hr, hb, Bool.false_eq_true, if_false, if_true]

/-- An aligned transaction of 32 bits is performed while reset is not asserted (R171, R172, R300). -/
theorem busTurn_answers (s : State) (header : BitVec 7) (data : Word) (h : header.extractLsb' 0 2 = 0#2)
    (hr : s.resetAsserted = false) : ∃ t, perform (busTurn s header 32 data) = .next t := by
  obtain ⟨i, hd⟩ := decodeBus_aligned header data h
  have hx : perform (busTurn s header 32 data) = exec i s := by simp only [busTurn, decode, hd, perform]
  rw [hx]
  obtain ⟨r, rfl | rfl⟩ := decodeBus_ok _ _ _ _ hd
  · exact ⟨_, execRdreg_answers r s hr⟩
  · exact ⟨_, execWrreg_answers r data s hr⟩

/-- Settles O43, event by event. -/
theorem definedEventsAlwaysStep : Obligations.DefinedEventsAlwaysStep := by
  intro s hinv hdef
  cases hi : s.inputs with
  | nil =>
    rw [step_of_no_inputs hi]
    exact engineTurn_answers s hinv.pendingDefined
  | cons e rest =>
    have he : e.Defined s := hdef e rest hi
    cases e with
    | engine =>
      rw [step_of_engine hi]
      exact engineTurn_answers (s.withInputs rest) hinv.pendingDefined
    | bus header width data =>
      obtain ⟨rfl, halign, hr⟩ := he
      rw [step_of_bus hi]
      exact busTurn_answers (s.withInputs rest) header data halign hr
    | bufWrite a bs => exact ⟨_, (step_of_bufWrite hi).trans (hostWrite_inside (s.withInputs rest) a bs he)⟩
    | bufRead a n => exact ⟨_, (step_of_bufRead hi).trans (hostRead_inside (s.withInputs rest) a n he)⟩
    | resetAssert => exact ⟨_, step_of_resetAssert hi⟩
    | resetRelease => exact ⟨_, step_of_resetRelease hi⟩

end Sys2Proof.Machine

/-! PROOFS. The encoding family (30_encoding.md): decoding and encoding undo each other, the decode errors of a command word
in numbers, the bus header in numbers, and what an object that fails to decode, or decodes with an error, does. -/

namespace Sys2Proof

open Machine

/-! ### The fields of a command word, as numbers -/

theorem classField_eq_iff (w : Word) (l : BitVec 4) : classField w = l ↔ w.toNat / 16 % 16 = l.toNat := by
  rw [← BitVec.toNat_inj, classField_toNat]

theorem rsvdField_eq_iff (w : Word) (rsvd : BitVec 24) : rsvdField w = rsvd ↔ w.toNat / 256 = rsvd.toNat := by
  rw [← BitVec.toNat_inj, rsvdField_toNat]

theorem classField_eq_ofNat (w : Word) : classField w = BitVec.ofNat 4 (w.toNat / 16) :=
  (classField_eq_iff w _).mpr (BitVec.toNat_ofNat (w.toNat / 16) 4).symm

/-! ### The decoded command word -/

theorem decodeCommand_reserved (w : Word) (h : 5 ≤ (opField w).toNat) :
    decodeCommand w = .reservedOp (opField w) (classField w) (rsvdField w) := by
  unfold decodeCommand
  split
  case h_6 => rfl
  all_goals omega

/-- All that a command word can decode to: the operation of its OP, with the other fields as they stand (R82, R85). -/
theorem decodeCommand_cases (w : Word) :
    (5 ≤ (opField w).toNat ∧ decodeCommand w = .reservedOp (opField w) (classField w) (rsvdField w)) ∨
    (opField w = 0#4 ∧ decodeCommand w = .nop (classField w) (rsvdField w)) ∨
    (opField w = 1#4 ∧ decodeCommand w = .xlate (classField w) (rsvdField w)) ∨
    (opField w = 2#4 ∧ decodeCommand w = .detile (classField w) (rsvdField w)) ∨
    (opField w = 3#4 ∧ decodeCommand w = .copy (classField w) (rsvdField w)) ∨
    (opField w = 4#4 ∧ decodeCommand w = .swap (classField w) (rsvdField w)) := by
  by_cases h : 5 ≤ (opField w).toNat
  · exact .inl ⟨h, decodeCommand_reserved w h⟩
  · have hop : opField w = 0#4 ∨ opField w = 1#4 ∨ opField w = 2#4 ∨ opField w = 3#4 ∨ opField w = 4#4 := by
      bv_omega
    rcases hop with ho | ho | ho | ho | ho <;> simp [decodeCommand, ho]

/-! ### The bus header, as numbers -/

theorem busHeader_toNat (write : Bool) (r : Slot) :
    (busHeader write r).toNat = write.toNat * 64 + r.number.toNat * 4 := by
  simp only [busHeader, Slot.offset, append_toNat, BitVec.toNat_ofBool]
  simp

theorem header_aligned_iff (header : BitVec 7) : header.extractLsb' 0 2 = 0#2 ↔ header.toNat % 4 = 0 := by
  simp [← BitVec.toNat_inj]

theorem header_write_iff (header : BitVec 7) : header.getLsbD 6 = true ↔ header.toNat / 64 = 1 := by
  have := header.isLt
  rw [BitVec.getLsbD, Nat.testBit_eq_decide_div_mod_eq, decide_eq_true_iff]
  omega

/-- A transaction of 32 bits at an aligned offset is a WRREG or an RDREG, by W, of the slot with number `OFFSET[5:2]`
(R86). -/
theorem decodeBus_of_aligned (header : BitVec 7) (data : Word) (h : header.toNat % 4 = 0) :
    decodeBus header 32 data =
      .ok (if header.toNat / 64 = 1 then .wrreg (Slot.ofNumber (BitVec.ofNat 4 (header.toNat / 4))) data
        else .rdreg (Slot.ofNumber (BitVec.ofNat 4 (header.toNat / 4)))) := by
  have hslot : header.extractLsb' 2 4 = BitVec.ofNat 4 (header.toNat / 4) := by
    apply BitVec.eq_of_toNat_eq
    simp [Nat.shiftRight_eq_div_pow]
  rw [decodeBus, if_pos rfl, if_pos ((header_aligned_iff header).mpr h), hslot]
  simp only [header_write_iff]
  split <;> rfl

theorem decodeBus_of_misaligned (header : BitVec 7) (data : Word) (h : header.toNat % 4 ≠ 0) :
    decodeBus header 32 data = .error (.misalignedOffset (BitVec.ofNat 6 header.toNat)) := by
  have hoffset : header.extractLsb' 0 6 = BitVec.ofNat 6 header.toNat := by
    apply BitVec.eq_of_toNat_eq
    simp
  rw [decodeBus, if_pos rfl, if_neg (mt (header_aligned_iff header).mp h), hoffset]

theorem decodeBus_of_width_ne (header : BitVec 7) (width : Nat) (data : Word) (h : width ≠ 32) :
    decodeBus header width data = .error (.accessWidth width) :=
  if_neg h

/-- The header of a slot decodes to that slot, as a WRREG or an RDREG. -/
theorem decodeBus_busHeader (write : Bool) (r : Slot) (data : Word) :
    decodeBus (busHeader write r) 32 data = .ok (if write then .wrreg r data else .rdreg r) := by
  have hn := r.number.isLt
  have hnumber : BitVec.ofNat 4 ((busHeader write r).toNat / 4) = r.number := by
    apply BitVec.eq_of_toNat_eq
    rw [BitVec.toNat_ofNat, busHeader_toNat]
    omega
  have hwrite : (busHeader write r).toNat / 64 = 1 ↔ write = true := by
    rw [busHeader_toNat]
    cases write <;> simp <;> omega
  rw [decodeBus_of_aligned _ _ (by rw [busHeader_toNat]; omega), hnumber, Slot.ofNumber_number]
  simp only [hwrite]

/-! ### Decoding and encoding -/

/-- Settles O2: a command's fields come back from its word, and a slot and its direction from its header. -/
theorem decodeOfEncodeIsTheInstruction : Obligations.DecodeOfEncodeIsTheInstruction := by
  intro i hwf
  cases i with
  | reservedOp op l rsvd =>
    have hop : 5 ≤ op.toNat := of_decide_eq_true hwf
    simp [encode, decode, decodeCommand_reserved, hop]
  | rdreg r => exact decodeBus_busHeader false r 0#32
  | wrreg r data => exact decodeBus_busHeader true r data
  | _ => simp [encode, decode, decodeCommand]

/-- Settles O3: whichever operation the word decodes to, its three fields are kept, and they make the word. -/
theorem encodeOfDecodeIsTheCommandWord : Obligations.EncodeOfDecodeIsTheCommandWord := by
  intro w
  have hw := commandWord_fields w
  rcases decodeCommand_cases w with ⟨ho, hd⟩ | ⟨ho, hd⟩ | ⟨ho, hd⟩ | ⟨ho, hd⟩ | ⟨ho, hd⟩ | ⟨ho, hd⟩
  · exact ⟨by rw [hd, encode, hw], by rw [hd]; exact decide_eq_true ho⟩
  all_goals
    rw [ho] at hw
    exact ⟨by rw [hd, encode, hw], by rw [hd]; rfl⟩

/-- Settles O1, by evaluation. -/
theorem opcodeTableWordsDecode : Obligations.OpcodeTableWordsDecode :=
  ⟨rfl, rfl, rfl, rfl, rfl, rfl, rfl, rfl⟩

/-! ### The errors of decoding -/

/-- Decoding gives no code but ILLEGAL_OP and BAD_FIELD (R85). -/
theorem decodeError_some (i : Instr) (e : ErrCode) (h : decodeError i = some e) : e = .illegalOp ∨ e = .badField := by
  cases i with
  | reservedOp op l rsvd => exact .inl (Option.some.inj h).symm
  | rdreg r | wrreg r data => cases h
  | _ => exact .inr (fieldCheck_some _ _ _ _ h)

/-- A word without an error is one of R90's seven: its RSVD is 0, and its OP leaves two values of L or one (R83, R84). -/
theorem mem_legalWords_of_decodeError_none (w : Word) (h : decodeError (decodeCommand w) = none) :
    w ∈ [0x00000000#32, 0x00000031#32, 0x00000041#32, 0x00000032#32, 0x00000042#32, 0x00000003#32, 0x00000004#32] := by
  rw [← commandWord_fields w]
  rcases decodeCommand_cases w with ⟨-, hd⟩ | ⟨ho, hd⟩ | ⟨ho, hd⟩ | ⟨ho, hd⟩ | ⟨ho, hd⟩ | ⟨ho, hd⟩ <;> rw [hd] at h
  · cases h
  · obtain ⟨hr, hl⟩ := (fieldCheck_plain_none_iff ..).mp h
    simp [hr, hl, ho, commandWord]
  · obtain ⟨hr, hl | hl⟩ := (fieldCheck_classed_none_iff ..).mp h <;> simp [hr, hl, ho, commandWord]
  · obtain ⟨hr, hl | hl⟩ := (fieldCheck_classed_none_iff ..).mp h <;> simp [hr, hl, ho, commandWord]
  · obtain ⟨hr, hl⟩ := (fieldCheck_plain_none_iff ..).mp h
    simp [hr, hl, ho, commandWord]
  · obtain ⟨hr, hl⟩ := (fieldCheck_plain_none_iff ..).mp h
    simp [hr, hl, ho, commandWord]

/-- Settles O4: R90's seven by evaluation, and no other word is without an error. -/
theorem legalCommandWordsAreTheSeven : Obligations.LegalCommandWordsAreTheSeven := by
  refine ⟨⟨rfl, rfl, rfl, rfl, rfl, rfl, rfl⟩, fun w => ⟨fun hw => ?_, fun hw => ?_⟩⟩
  · simp only [List.mem_cons, List.not_mem_nil, or_false] at hw
    rcases hw with rfl | rfl | rfl | rfl | rfl | rfl | rfl <;> rfl
  · cases he : decodeError (decodeCommand w) with
    | none => exact absurd (mem_legalWords_of_decodeError_none w he) hw
    | some e => exact (decodeError_some _ e he).imp (congrArg some) (congrArg some)

theorem fieldCheck_classed_fields (w : Word) :
    fieldCheck true (classField w) (rsvdField w) =
      if w.toNat / 256 ≠ 0 then some .badField
      else if w.toNat / 16 % 16 = 3 ∨ w.toNat / 16 % 16 = 4 then none else some .badField := by
  simp [fieldCheck, legalClass_iff, rsvdField_eq_iff, classField_eq_iff]

theorem fieldCheck_plain_fields (w : Word) :
    fieldCheck false (classField w) (rsvdField w) =
      if w.toNat / 256 ≠ 0 then some .badField
      else if w.toNat / 16 % 16 ≠ 0 then some .badField else none := by
  simp [fieldCheck, rsvdField_eq_iff, classField_eq_iff]

/-- Settles O5: the OP chooses the operation, and with it which L values `fieldCheck` takes; without an error RSVD is 0. -/
theorem decodeErrorsInTheirOrder : Obligations.DecodeErrorsInTheirOrder := by
  intro w
  have hop := opField_toNat w
  have hl := classField_eq_ofNat w
  rcases decodeCommand_cases w with ⟨ho, hd⟩ | ⟨ho, hd⟩ | ⟨ho, hd⟩ | ⟨ho, hd⟩ | ⟨ho, hd⟩ | ⟨ho, hd⟩
  · have h4 : 4 < w.toNat % 16 := by omega
    simp [hd, decodeError, h4]
  all_goals
    rw [ho] at hop
    refine ⟨?_, fun hn => ?_⟩
    · simp [hd, decodeError, fieldCheck_classed_fields, fieldCheck_plain_fields, ← hop]
    · simp only [hd, decodeError, fieldCheck_plain_none_iff, fieldCheck_classed_none_iff] at hn
      obtain ⟨hr, -⟩ := hn
      simp [hd, ← hop, hl, hr]

/-! ### The bus header -/

/-- The sixteen slots in R21's order stand at their numbers. -/
theorem getElem?_slots (n : BitVec 4) :
    [Slot.cmd, .status, .x, .y, .pitch, .height, .srcBase, .srcLen, .dstBase, .dstLen, .result, .resultIndex, .skipCount,
      .irqEn, .rsvd38, .rsvd3C][n.toNat]? = some (Slot.ofNumber n) := by
  revert n
  decide

/-- Settles O6: the width first, then `OFFSET[1:0]`, then W and the slot's number. -/
theorem busTransactionsDecodeByHeader : Obligations.BusTransactionsDecodeByHeader := by
  intro header width data
  refine ⟨decodeBus_of_width_ne header width data, ?_, ?_⟩
  · rintro rfl h
    exact decodeBus_of_misaligned header data h
  · rintro rfl h
    have hslot := getElem?_slots (BitVec.ofNat 4 (header.toNat / 4))
    rw [BitVec.toNat_ofNat] at hslot
    exact ⟨_, hslot, decodeBus_of_aligned header data h⟩

end Sys2Proof

namespace Sys2Proof.Machine

/-! ### Executing a command with a decode error -/

/-- The decode error is the first of the checks (R253). -/
theorem commandCheck_of_decodeError (i : Instr) (s : State) (e : ErrCode) (h : decodeError i = some e) :
    commandCheck i s = some e := by
  cases i with
  | nop l rsvd | xlate l rsvd | reservedOp op l rsvd => exact h
  | detile l rsvd | copy l rsvd | swap l rsvd => simp only [commandCheck, h, firstError]
  | rdreg r | wrreg r data => cases h

/-- A command with a decode error ends with it, in every state (R85, R252). -/
theorem exec_of_decodeError (i : Instr) (s : State) (e : ErrCode) (hc : i.isCommand = true)
    (h : decodeError i = some e) : exec i s = .next (s.completeErr e) :=
  exec_of_commandCheck_some i s e hc (commandCheck_of_decodeError i s e h)

theorem fieldCheck_of_rsvd_ne (classed : Bool) (l : BitVec 4) (rsvd : BitVec 24) (h : rsvd ≠ 0#24) :
    fieldCheck classed l rsvd = some .badField :=
  if_pos h

/-- Settles O12: both are decode errors. -/
theorem reservedBitsEndWithBadField : Obligations.ReservedBitsEndWithBadField := by
  intro s l rsvd
  refine ⟨fun hr => ⟨?_, ?_, ?_, ?_, ?_⟩, fun op _ => exec_of_decodeError _ s .illegalOp rfl rfl⟩
  all_goals exact exec_of_decodeError _ s .badField rfl (fieldCheck_of_rsvd_ne _ l rsvd hr)

/-- Settles O13: an illegal L is a decode error. -/
theorem illegalClassEndsWithBadField : Obligations.IllegalClassEndsWithBadField := by
  intro s l
  refine ⟨fun h3 h4 => ?_, fun h0 => ?_⟩
  · have h : fieldCheck true l 0#24 = some .badField := by simp [fieldCheck, legalClass, h3, h4]
    exact ⟨exec_of_decodeError (.xlate l 0#24) s .badField rfl h, exec_of_decodeError (.detile l 0#24) s .badField rfl h⟩
  · have h : fieldCheck false l 0#24 = some .badField := by simp [fieldCheck, h0]
    exact ⟨exec_of_decodeError (.nop l 0#24) s .badField rfl h, exec_of_decodeError (.copy l 0#24) s .badField rfl h,
      exec_of_decodeError (.swap l 0#24) s .badField rfl h⟩

/-! ### The turn of a bus transaction -/

section
variable {s : State} {header : BitVec 7} {width : Nat} {data : Word}

theorem perform_busTurn_of_ok {i : Instr} (h : decode (.bus header width data) = .ok i) :
    perform (busTurn s header width data) = exec i s := by
  simp only [busTurn, h, perform]

theorem perform_busTurn_of_error {e : Reject} (h : decode (.bus header width data) = .error e) :
    perform (busTurn s header width data) = .refused (refusalOf e) := by
  simp only [busTurn, h, perform]

end

/-- Settles O37: the step is the turn of the transaction, whose decode is O6's. -/
theorem busTurnRunsTheTransaction : Obligations.BusTurnRunsTheTransaction := by
  intro s header width data rest hi
  obtain ⟨hwidth, hmisaligned, -⟩ := busTransactionsDecodeByHeader header width data
  rw [step_of_bus hi]
  exact ⟨fun i hd => perform_busTurn_of_ok hd, fun hw => perform_busTurn_of_error (hwidth hw),
    fun hw ho => perform_busTurn_of_error (hmisaligned hw ho)⟩

end Sys2Proof.Machine

/-! PROOFS. The translate family (40_translate.md): the default translator fills a grid of macro tiles without a gap and
without a collision, and XLATE reports its value. -/

namespace Sys2Proof.Machine

/-! ### The closed form for both values of L -/

/-- The number of a block inside its macro tile, in binary with the lowest bit first (R102). For either L it lists the ten low
bits of x and y in some order, with bit 3 of y added to bit 4 of x modulo 2. -/
def blockBits (l : Nat) (x y : Word) : List Nat :=
  if l = 3 then
    [bitOf x 0, bitOf y 0, bitOf x 1, bitOf x 3, (bitOf x 4 + bitOf y 3) % 2, bitOf x 2, bitOf y 1, bitOf y 2, bitOf y 4,
      bitOf y 3]
  else
    [bitOf y 0, bitOf x 0, bitOf x 3, (bitOf x 4 + bitOf y 3) % 2, bitOf x 1, bitOf x 2, bitOf y 1, bitOf y 4, bitOf y 2,
      bitOf y 3]

/-- The byte offset of a block inside its macro tile. -/
def microBits (l : Nat) (x y : Word) : Nat := Nat.ofDigits 2 (blockBits l x y) * 2 ^ l

/-- The field of R102's step 4b that mixes x and y, bit by bit. -/
theorem mixed_bits (x y : Word) :
    (2 * bitOf y 3 + x.toNat / 8) % 4 = bitOf x 3 + 2 * ((bitOf x 4 + bitOf y 3) % 2) := by
  unfold bitOf
  omega

theorem microBits_three (x y : Word) : microBits 3 x y = microBits3 x y := by
  simp only [microBits, blockBits, if_true, microBits3, mixed_bits, Nat.ofDigits_cons, Nat.ofDigits_nil]
  ring

theorem microBits_four (x y : Word) : microBits 4 x y = microBits4 x y := by
  simp only [microBits, blockBits, Nat.reduceEqDiff, if_false, microBits4, mixed_bits, Nat.ofDigits_cons, Nat.ofDigits_nil]
  ring

/-- The translator for both values of L: the macro-tile number above the `10 + L` bits of the offset inside the tile. -/
theorem tiledOffset_toNat {l : Nat} (hl : l = 3 ∨ l = 4) (x y p : Word) :
    (tiledOffset x y p l).toNat = (microBits l x y + macroTile x y p * 2 ^ (10 + l)) % 2 ^ 32 := by
  rw [Nat.add_comm (microBits l x y)]
  rcases hl with rfl | rfl
  · rw [tiledOffset_three, microBits_three]
  · rw [tiledOffset_four, microBits_four]

theorem blockBits_length (l : Nat) (x y : Word) : (blockBits l x y).length = 10 := by
  unfold blockBits
  split <;> rfl

theorem blockBits_lt (l : Nat) (x y : Word) : ∀ b ∈ blockBits l x y, b < 2 := by
  have hmixed : (bitOf x 4 + bitOf y 3) % 2 < 2 := Nat.mod_lt _ two_pos
  unfold blockBits
  split <;> simp only [List.forall_mem_cons, bitOf_lt, hmixed, List.not_mem_nil, false_implies, implies_true, and_self]

/-- A macro tile has 2^10 blocks of 2^L bytes. -/
theorem microBits_lt (l : Nat) (x y : Word) : microBits l x y < 2 ^ (10 + l) := by
  have h := Nat.ofDigits_lt_base_pow_length one_lt_two (blockBits_lt l x y)
  rw [blockBits_length] at h
  rw [microBits, pow_add]
  exact Nat.mul_lt_mul_of_pos_right h (by positivity)

/-- The low five bits of a coordinate. -/
theorem five_bits (w : Word) :
    w.toNat % 32 = bitOf w 0 + 2 * bitOf w 1 + 4 * bitOf w 2 + 8 * bitOf w 3 + 16 * bitOf w 4 := by
  unfold bitOf
  omega

/-- The bits of the number give back the place inside the macro tile, bit 4 of x with the help of bit 3 of y. -/
theorem blockBits_inj {l : Nat} {x y x' y' : Word} (h : blockBits l x y = blockBits l x' y') :
    x.toNat % 32 = x'.toNat % 32 ∧ y.toNat % 32 = y'.toNat % 32 := by
  have hx := bitOf_lt x 4
  have hx' := bitOf_lt x' 4
  rw [five_bits x, five_bits x', five_bits y, five_bits y']
  unfold blockBits at h
  split at h <;> (simp only [List.cons.injEq] at h; omega)

theorem microBits_inj {l : Nat} {x y x' y' : Word} (h : microBits l x y = microBits l x' y') :
    x.toNat % 32 = x'.toNat % 32 ∧ y.toNat % 32 = y'.toNat % 32 := by
  have hlen : (blockBits l x y).length = (blockBits l x' y').length := by rw [blockBits_length, blockBits_length]
  have hdigits := Nat.eq_of_mul_eq_mul_right (by positivity) h
  exact blockBits_inj
    (Nat.ofDigits_inj_of_len_eq one_lt_two hlen (blockBits_lt l x y) (blockBits_lt l x' y') hdigits)

/-- Settles O7: the offset inside a macro tile, a macro tile and 2^32 are multiples of the block size. -/
theorem tiledOffsetIsMultipleOfBlockSize : Obligations.TiledOffsetIsMultipleOfBlockSize := by
  intro x y p l hl
  have hmicro : 2 ^ l ∣ microBits l x y := Nat.dvd_mul_left _ _
  have htile : 2 ^ l ∣ macroTile x y p * 2 ^ (10 + l) := Dvd.dvd.mul_left (pow_dvd_pow 2 (by omega)) _
  rw [tiledOffset_toNat hl, ← Nat.dvd_iff_mod_eq_zero, Nat.dvd_mod_iff (pow_dvd_pow 2 (by omega))]
  exact Nat.dvd_add hmicro htile

/-- The block index counts whole blocks (R103). -/
theorem tiledIndex_toNat_mul {l : Nat} (hl : l = 3 ∨ l = 4) (x y p : Word) :
    (tiledIndex x y p l).toNat * 2 ^ l = (tiledOffset x y p l).toNat := by
  rw [tiledIndex, BitVec.toNat_ushiftRight, Nat.shiftRight_eq_div_pow]
  exact Nat.div_mul_cancel (Nat.dvd_of_mod_eq_zero (tiledOffsetIsMultipleOfBlockSize x y p l hl))

/-- Settles O8: no bit of a multiple of 2^L is lost in the shift. -/
theorem blockIndexShiftedBackIsTheOffset : Obligations.BlockIndexShiftedBackIsTheOffset := by
  intro x y p l hl
  refine ⟨rfl, BitVec.eq_of_toNat_eq ?_⟩
  rw [BitVec.toNat_shiftLeft, Nat.shiftLeft_eq, tiledIndex_toNat_mul hl, Nat.mod_eq_of_lt (BitVec.isLt _)]

/-- Settles O10, by evaluation. -/
theorem translatorCollidesOutsideValidDomain : Obligations.TranslatorCollidesOutsideValidDomain :=
  ⟨by decide, by decide⟩

/-! ### The valid domain (R106) -/

/-- A number of two digits lies below the product of the bases. -/
theorem add_mul_lt {a b m n : Nat} (ha : a < m) (hb : b < n) : a + b * m < m * n := by
  calc a + b * m < m + b * m := Nat.add_lt_add_right ha _
    _ = m * (b + 1) := by ring
    _ ≤ m * n := Nat.mul_le_mul_left m hb

theorem digits_eq {a a' b b' m : Nat} (ha : a < m) (ha' : a' < m) (h : a + b * m = a' + b' * m) : a = a' ∧ b = b' := by
  have hlow : a = a' := by simpa [Nat.mod_eq_of_lt ha, Nat.mod_eq_of_lt ha'] using congrArg (· % m) h
  subst hlow
  exact ⟨rfl, Nat.eq_of_mul_eq_mul_right (by omega) (Nat.add_left_cancel h)⟩

section
variable {p h l : Nat} (hl : l = 3 ∨ l = 4) (harea : ((p + 31) / 32 * 32) * ((h + 31) / 32 * 32) * 2 ^ l ≤ 2 ^ 32)
  {x y : Word} (hx : x.toNat < p) (hy : y.toNat < h)
include hl harea hx hy

/-- No pitch of the valid domain wraps when it is rounded up, so a row of macro tiles has `aw / 32` of them. -/
theorem macroTile_valid :
    macroTile x y (BitVec.ofNat 32 p) = x.toNat / 32 + y.toNat / 32 * ((p + 31) / 32) := by
  have hrows : 32 ≤ (h + 31) / 32 * 32 := by omega
  have hbytes : 8 ≤ 2 ^ l := by rcases hl with rfl | rfl <;> norm_num
  have hpitch : (p + 31) / 32 * 32 * 32 * 8 ≤ 2 ^ 32 :=
    (Nat.mul_le_mul (Nat.mul_le_mul_left _ hrows) hbytes).trans harea
  have haw : (alignedPitch (BitVec.ofNat 32 p)).toNat / 32 = (p + 31) / 32 := by
    rw [alignedPitch_toNat, BitVec.toNat_ofNat]
    omega
  rw [macroTile, haw]

/-- On the valid domain nothing wraps: the offset is the macro tiles before the block's and its place inside its own. -/
theorem tiledOffset_valid :
    (tiledOffset x y (BitVec.ofNat 32 p) l).toNat =
        microBits l x y + (x.toNat / 32 + y.toNat / 32 * ((p + 31) / 32)) * 2 ^ (10 + l) ∧
      (tiledOffset x y (BitVec.ofNat 32 p) l).toNat < ((p + 31) / 32 * 32) * ((h + 31) / 32 * 32) * 2 ^ l := by
  have htile : x.toNat / 32 + y.toNat / 32 * ((p + 31) / 32) < (p + 31) / 32 * ((h + 31) / 32) :=
    add_mul_lt (by omega) (by omega)
  have hlt := add_mul_lt (microBits_lt l x y) htile
  have hbytes : 2 ^ (10 + l) * ((p + 31) / 32 * ((h + 31) / 32)) =
      ((p + 31) / 32 * 32) * ((h + 31) / 32 * 32) * 2 ^ l := by ring
  rw [hbytes] at hlt
  rw [tiledOffset_toNat hl, macroTile_valid hl harea hx hy, Nat.mod_eq_of_lt (hlt.trans_le harea)]
  exact ⟨rfl, hlt⟩

end

/-- Settles O9: the place inside the macro tile and the tile's number are the digits of the offset, and the tile's column and
row are the digits of that number. -/
theorem translatorInjectiveOnValidDomain : Obligations.TranslatorInjectiveOnValidDomain := by
  intro p h l hl _ harea x y x' y' hx hx' hy hy' heq
  have hoff := congrArg BitVec.toNat heq
  rw [(tiledOffset_valid hl harea hx hy).1, (tiledOffset_valid hl harea hx' hy').1] at hoff
  obtain ⟨hmicro, htile⟩ := digits_eq (microBits_lt l x y) (microBits_lt l x' y') hoff
  obtain ⟨hxm, hym⟩ := microBits_inj hmicro
  obtain ⟨hxd, hyd⟩ := digits_eq (by omega) (by omega) htile
  exact ⟨BitVec.eq_of_toNat_eq (by omega), BitVec.eq_of_toNat_eq (by omega)⟩

/-! ### Aligned levels (R107) -/

/-- A coordinate below a bound of 32 bits is below it as a word. -/
theorem ofNat_toNat_lt {a n : Nat} (hn : n < 2 ^ 32) (ha : a < n) : (BitVec.ofNat 32 a).toNat < n := by
  rwa [BitVec.toNat_ofNat, Nat.mod_eq_of_lt (ha.trans hn)]

theorem ofNat_injOn {a b n : Nat} (hn : n < 2 ^ 32) (ha : a < n) (hb : b < n)
    (h : BitVec.ofNat 32 a = BitVec.ofNat 32 b) : a = b := by
  have hmod := congrArg BitVec.toNat h
  rwa [BitVec.toNat_ofNat, BitVec.toNat_ofNat, Nat.mod_eq_of_lt (ha.trans hn), Nat.mod_eq_of_lt (hb.trans hn)] at hmod

/-- The block index of the grid's block `b`, for a pitch of `p` blocks. -/
def gridIndex (p l : Nat) (b : Nat × Nat) : Nat :=
  (tiledIndex (BitVec.ofNat 32 b.1) (BitVec.ofNat 32 b.2) (BitVec.ofNat 32 p) l).toNat

section
variable {p h l : Nat} (hl : l = 3 ∨ l = 4) (hp : p < 2 ^ 32) (hh : h < 2 ^ 32) (hp32 : p % 32 = 0) (hh32 : h % 32 = 0)
  (harea : p * h * 2 ^ l ≤ 2 ^ 32)

include hp32 hh32 in
/-- The valid domain's area of an aligned level is the level's own. -/
theorem aligned_area : (p + 31) / 32 * 32 * ((h + 31) / 32 * 32) * 2 ^ l = p * h * 2 ^ l := by
  rw [show (p + 31) / 32 * 32 = p by omega, show (h + 31) / 32 * 32 = h by omega]

include hl hp32 hh32 harea

/-- An aligned level of p by h blocks has no block index past its last block. -/
theorem tiledIndex_lt {x y : Word} (hx : x.toNat < p) (hy : y.toNat < h) :
    (tiledIndex x y (BitVec.ofNat 32 p) l).toNat < p * h := by
  have heq : _ = p * h * 2 ^ l := aligned_area hp32 hh32
  have hlt := (tiledOffset_valid hl (heq.trans_le harea) hx hy).2
  rw [heq, ← tiledIndex_toNat_mul hl] at hlt
  exact Nat.lt_of_mul_lt_mul_right hlt

include hp hh

theorem gridIndex_mapsTo :
    Set.MapsTo (gridIndex p l) (Finset.range p ×ˢ Finset.range h : Finset (Nat × Nat)) (Finset.range (p * h)) := by
  intro b hb
  obtain ⟨hx, hy⟩ := Finset.mem_product.mp hb
  exact Finset.mem_coe.mpr (Finset.mem_range.mpr (tiledIndex_lt hl hp32 hh32 harea
    (ofNat_toNat_lt hp (Finset.mem_range.mp hx)) (ofNat_toNat_lt hh (Finset.mem_range.mp hy))))

/-- The grid's coordinates are words, so the translator keeps them apart on the valid domain. -/
theorem gridIndex_injOn : Set.InjOn (gridIndex p l) (Finset.range p ×ˢ Finset.range h : Finset (Nat × Nat)) := by
  rintro ⟨x, y⟩ hb ⟨x', y'⟩ hb' heq
  simp only [Finset.coe_product, Finset.coe_range, Set.mem_prod, Set.mem_Iio] at hb hb'
  have hoff : (tiledOffset (BitVec.ofNat 32 x) (BitVec.ofNat 32 y) (BitVec.ofNat 32 p) l).toNat =
      (tiledOffset (BitVec.ofNat 32 x') (BitVec.ofNat 32 y') (BitVec.ofNat 32 p) l).toNat := by
    rw [← tiledIndex_toNat_mul hl, ← tiledIndex_toNat_mul hl]
    exact congrArg (· * 2 ^ l) heq
  obtain ⟨hx, hy⟩ := translatorInjectiveOnValidDomain p h l hl hp ((aligned_area hp32 hh32).trans_le harea) _ _ _ _
    (ofNat_toNat_lt hp hb.1) (ofNat_toNat_lt hp hb'.1) (ofNat_toNat_lt hh hb.2) (ofNat_toNat_lt hh hb'.2)
    (BitVec.eq_of_toNat_eq hoff)
  exact Prod.ext (ofNat_injOn hp hb.1 hb'.1 hx) (ofNat_injOn hh hb.2 hb'.2 hy)

/-- The `p * h` blocks of an aligned level have different indices below `p * h`, so every such number is some block's. -/
theorem gridIndex_surjOn :
    Set.SurjOn (gridIndex p l) (Finset.range p ×ˢ Finset.range h : Finset (Nat × Nat)) (Finset.range (p * h)) :=
  Finset.surjOn_of_injOn_of_card_le _ (gridIndex_mapsTo hl hp hh hp32 hh32 harea)
    (gridIndex_injOn hl hp hh hp32 hh32 harea) (by simp)

end

/-- Settles O11: an offset of the level is a block index below `p * h` times bpp, and every such index is taken. -/
theorem alignedLevelFillsItsLength : Obligations.AlignedLevelFillsItsLength := by
  intro p h l hl hp hh hp32 hh32 harea n
  constructor
  · rintro ⟨x, y, hx, hy, rfl⟩
    exact ⟨_, tiledIndex_lt hl hp32 hh32 harea hx hy, (tiledIndex_toNat_mul hl x y _).symm⟩
  · rintro ⟨k, hk, rfl⟩
    obtain ⟨⟨x, y⟩, hb, rfl⟩ :=
      gridIndex_surjOn hl hp hh hp32 hh32 harea (Finset.mem_coe.mpr (Finset.mem_range.mpr hk))
    simp only [Finset.coe_product, Finset.coe_range, Set.mem_prod, Set.mem_Iio] at hb
    exact ⟨BitVec.ofNat 32 x, BitVec.ofNat 32 y, ofNat_toNat_lt hp hb.1, ofNat_toNat_lt hh hb.2,
      (tiledIndex_toNat_mul hl _ _ _).symm⟩

/-! ### XLATE -/

/-- An XLATE with legal fields completes with the translator's value (R108, R109). -/
theorem exec_xlate (s : State) (l : BitVec 4) (hl : l = 3#4 ∨ l = 4#4) :
    exec (.xlate l 0#24) s = .next (s.translated s.tiled l).completeDone := by
  rw [exec, execXlate, (commandCheck_xlate_none_iff l 0#24 s).mpr ⟨rfl, hl⟩, State.runChecked_none]

/-- `off` (R102, step 4a) with each field of bits at the place where the spec masks it. -/
theorem combinedOffset_of_fields (x y p : Word) (l : Nat) (hl : l ≤ 4) :
    (combinedOffset x y p l).toNat =
      ((macroOffset x y p l).toNat + (microOffset x y l).toNat / 16 * 16 * 2 + (microOffset x y l).toNat % 16
        + y.toNat / 8 % 2 * 8 * 2 ^ (3 + l) + y.toNat % 2 * 2 ^ 4) % 2 ^ 32 := by
  have h0 : bitOf y 0 = y.toNat % 2 := by rw [bitOf, pow_zero, Nat.div_one]
  have h3 : bitOf y 3 * 2 ^ (l + 6) = y.toNat / 8 % 2 * 8 * 2 ^ (3 + l) := by
    rw [show bitOf y 3 = y.toNat / 8 % 2 from rfl]
    ring
  rw [combinedOffset_toNat x y p l hl, macroOffset_toNat, h0, h3]
  omega

/-- `byte` (R102, step 4b) with each field of bits at the place where the spec masks it. -/
theorem tiledOffset_of_fields (x y p : Word) (l : Nat) :
    (tiledOffset x y p l).toNat =
      ((combinedOffset x y p l).toNat / 512 * 512 * 2 ^ 3 + (combinedOffset x y p l).toNat / 64 % 8 * 64 * 2 ^ 2
        + (combinedOffset x y p l).toNat % 64 + y.toNat / 16 % 2 * 16 * 2 ^ 7
        + (y.toNat / 8 % 2 * 8 / 4 + x.toNat / 8) % 4 * 2 ^ 6) % 2 ^ 32 := by
  have h3 : 2 * bitOf y 3 = y.toNat / 8 % 2 * 8 / 4 := by
    rw [show bitOf y 3 = y.toNat / 8 % 2 from rfl]
    omega
  rw [tiledOffset_of_combined, h3, show bitOf y 4 = y.toNat / 16 % 2 from rfl]
  omega

/-- Settles O18: XLATE evaluates the translator, and the default one step by step as R102 writes it. -/
theorem xlateTranslates : Obligations.XlateTranslates := by
  refine ⟨exec_xlate, fun s t l hl hdefault h => ?_⟩
  rw [exec_xlate s l hl, State.tiled_default s hdefault, Host.Outcome.next.injEq] at h
  subst h
  have hl4 : l.toNat ≤ 4 := by rcases hl with rfl | rfl <;> decide
  intro x y aw tile micro off byte
  have htile : tile = (macroOffset s.x s.y s.pitch l.toNat).toNat := by
    rw [macroOffset_toNat, macroTile, alignedPitch_toNat]
  have hmicro : micro = (microOffset s.x s.y l.toNat).toNat := by
    rw [microOffset_toNat _ _ _ hl4, show 8 = 2 * 4 from rfl, ← Nat.mul_assoc]
  have hoff : off = (combinedOffset s.x s.y s.pitch l.toNat).toNat := by
    rw [combinedOffset_of_fields _ _ _ _ hl4, ← htile, ← hmicro]
  have hbyte : (tiledOffset s.x s.y s.pitch l.toNat).toNat = byte := by
    rw [tiledOffset_of_fields, ← hoff]
  refine ⟨hbyte, ?_⟩
  rw [← hbyte, ← Nat.shiftRight_eq_div_pow, ← BitVec.toNat_ushiftRight]
  rfl

end Sys2Proof.Machine

/-! PROOFS. The data movement family (41_data_movement.md): which bytes DETILE and COPY move, which they keep, and what DETILE
counts. -/

namespace Sys2Proof.Machine

/-! ### The regions a source-to-destination command needs -/

/-- No overlap, in the words of R57. -/
theorem overlaps_eq_false_iff (src dst : Region) :
    src.overlaps dst = false ↔
      ¬(src.len ≠ 0 ∧ dst.len ≠ 0 ∧ src.base < dst.base + dst.len ∧ dst.base < src.base + src.len) := by
  rw [← overlaps_iff, Bool.not_eq_true]

/-! ### COPY -/

/-- Settles O22: with its checks passed COPY is one transfer of the common length. -/
theorem copyMovesTheCommonLength : Obligations.CopyMovesTheCommonLength := by
  intro s sb sl db dl hsrc hdst hapart
  have hcheck : commandCheck (.copy 0#4 0#24) s = none :=
    (commandCheck_copy_none_iff ..).mpr ⟨⟨rfl, rfl⟩, hsrc, hdst, (overlaps_eq_false_iff ..).mpr hapart⟩
  exact ⟨_, execCopy_ok 0#4 0#24 s hcheck, Transfer.byte_apply s.mem (copyTransfer s)⟩

/-! ### DETILE of an empty grid -/

/-- The checks of a DETILE with legal fields, in their order (R253). -/
theorem commandCheck_detile_of_legal (s : State) (l : BitVec 4) (hl : l = 3#4 ∨ l = 4#4) :
    commandCheck (.detile l 0#24) s =
      if s.memSize < s.srcBase.toNat + s.srcLen.toNat ∨ s.memSize < s.dstBase.toNat + s.dstLen.toNat then some .bus
      else if s.srcRegion.overlaps s.dstRegion then some .overlap else none := by
  have hfields : decodeError (.detile l 0#24) = none := (fieldCheck_classed_none_iff l 0#24).mpr ⟨rfl, hl⟩
  simp only [commandCheck, hfields, firstError]
  by_cases hsrc : s.memSize < s.srcBase.toNat + s.srcLen.toNat
  · rw [busCheck_some _ s.srcRegion hsrc, if_pos (.inl hsrc)]
    rfl
  · rw [(busCheck_none_iff _ s.srcRegion).mpr (not_lt.mp hsrc)]
    by_cases hdst : s.memSize < s.dstBase.toNat + s.dstLen.toNat
    · rw [busCheck_some _ s.dstRegion hdst, if_pos (.inr hdst)]
      rfl
    · rw [(busCheck_none_iff _ s.dstRegion).mpr (not_lt.mp hdst), if_neg (by simp [hsrc, hdst])]
      cases ho : s.srcRegion.overlaps s.dstRegion <;> simp [overlapCheck, ho, firstError]

/-- A grid without rows or without columns has no block (R134). -/
theorem blockGrid_empty {p h : Nat} (hempty : p = 0 ∨ h = 0) : blockGrid p h = [] := by
  rcases hempty with rfl | rfl <;> simp [blockGrid]

/-- Settles O20: the checks come first, and an empty grid has neither a block to move nor one to count. -/
theorem detileOfAnEmptyGrid : Obligations.DetileOfAnEmptyGrid := by
  intro s l hl hempty sb sl db dl error
  have hgrid : blockGrid s.pitch.toNat s.height.toNat = [] :=
    blockGrid_empty (hempty.imp (congrArg BitVec.toNat) (congrArg BitVec.toNat))
  have hcheck := commandCheck_detile_of_legal s l hl
  split
  case isTrue hbus =>
    rw [if_pos hbus] at hcheck
    exact exec_of_commandCheck_some _ s _ rfl hcheck
  case isFalse hbus =>
    rw [if_neg hbus] at hcheck
    split
    case isTrue hover =>
      rw [if_pos ((overlaps_iff ..).mpr hover)] at hcheck
      exact exec_of_commandCheck_some _ s _ rfl hcheck
    case isFalse hapart =>
      rw [(overlaps_eq_false_iff s.srcRegion s.dstRegion).mpr hapart, if_neg Bool.false_ne_true] at hcheck
      rw [exec, execDetile_ok l 0#24 s hcheck, detileTransfers, detileSkipped, hgrid]
      rfl

/-! ### What DETILE counts -/

theorem countP_range (q : Nat → Bool) (n : Nat) :
    (List.range n).countP q = ∑ x ∈ Finset.range n, if q x then 1 else 0 := by
  induction n with
  | zero => rfl
  | succ n ih => rw [List.range_succ, List.countP_append, ih, List.countP_singleton, Finset.sum_range_succ]

/-- Counting over the grid, row by row. -/
theorem countP_blockGrid (q : Nat × Nat → Bool) (p h : Nat) :
    (blockGrid p h).countP q = ∑ y ∈ Finset.range h, ∑ x ∈ Finset.range p, if q (x, y) then 1 else 0 := by
  induction h with
  | zero => rfl
  | succ h ih =>
    rw [blockGrid] at ih ⊢
    rw [List.range_succ, List.flatMap_append, List.countP_append, ih, Finset.sum_range_succ, List.flatMap_singleton,
      List.countP_map, countP_range]
    rfl

theorem bytesPerBlock_eq_two_pow (l : BitVec 4) : bytesPerBlock l = 2 ^ l.toNat := Nat.one_shiftLeft _

/-! ### What DETILE moves -/

section
variable (T : Word → Word → Word → Nat → Word) (l : BitVec 4) (s : State)

/-- The linear blocks of the grid do not overlap: the byte at `a` lies in at most one of them. -/
theorem blockTransfer_writes_unique {b b' : Nat × Nat} (hb : b.1 < s.pitch.toNat) (hb' : b'.1 < s.pitch.toNat) {a : Nat}
    (ha : (blockTransfer T l s b).Writes a) (ha' : (blockTransfer T l s b').Writes a) : b = b' := by
  have hindex : ∀ c : Nat × Nat, (blockTransfer T l s c).Writes a →
      c.1 + c.2 * s.pitch.toNat = (a - s.dstBase.toNat) / bytesPerBlock l := by
    rintro c ⟨hlo, hhi⟩
    simp only [blockTransfer, linearBlockOffset] at hlo hhi
    rw [Nat.add_comm c.1]
    refine (Nat.div_eq_of_lt_le (by omega) ?_).symm
    rw [Nat.succ_mul]
    omega
  obtain ⟨hx, hy⟩ := digits_eq hb hb' ((hindex b ha).trans (hindex b' ha').symm)
  exact Prod.ext hx hy

/-- With the regions apart, a block that fits arrives in the linear destination as it stood in the tiled source (R130, R131). -/
theorem detile_byte_of_fits (hapart : s.srcRegion.overlaps s.dstRegion = false) {b : Nat × Nat}
    (hb : b.1 < s.pitch.toNat ∧ b.2 < s.height.toNat) (hfits : blockFits T l s b = true) {i : Nat}
    (hi : i < bytesPerBlock l) :
    ((detileTransfers T l s).foldl Transfer.apply s.mem).byte (s.dstBase.toNat + linearBlockOffset l s b + i) =
      s.mem.byte (s.srcBase.toNat + tiledBlockOffset T l s b + i) := by
  have hmem : blockTransfer T l s b ∈ detileTransfers T l s := (mem_detileTransfers ..).mpr ⟨b, hb, hfits, rfl⟩
  have hwrites : (blockTransfer T l s b).Writes (s.dstBase.toNat + linearBlockOffset l s b + i) :=
    ⟨Nat.le_add_right _ _, Nat.add_lt_add_left hi _⟩
  have hread : (blockTransfer T l s b).src +
      (s.dstBase.toNat + linearBlockOffset l s b + i - (blockTransfer T l s b).dst) =
      s.srcBase.toNat + tiledBlockOffset T l s b + i := by
    simp only [blockTransfer]
    omega
  have hsource := ((blockFits_iff ..).mp hfits).1
  rw [← hread]
  refine foldl_apply_written _ _ _ hmem _ hwrites (fun u hu hw => ?_) fun u hu hw => ?_
  · rw [hread] at hw
    obtain ⟨hlo, hhi⟩ := (detileTransfers_bounds T l s u hu).2
    exact not_overlaps_disjoint _ _ hapart _ ⟨by simp only [State.srcRegion]; omega, by simp only [State.srcRegion]; omega⟩
      ⟨hlo.trans hw.1, hw.2.trans_le hhi⟩
  · obtain ⟨b', hb', -, rfl⟩ := (mem_detileTransfers T l s u).mp hu
    rw [blockTransfer_writes_unique T l s hb'.1 hb.1 hw hwrites]

end

/-- Settles O19: the blocks that fit are moved, each byte of the destination by one of them at most, and the others counted. -/
theorem detileGathersTheBlocksThatFit : Obligations.DetileGathersTheBlocksThatFit := by
  intro s l hl p h sb sl db dl bpp T fits hsrc hdst hover
  have hapart : s.srcRegion.overlaps s.dstRegion = false := (overlaps_eq_false_iff ..).mpr hover
  have hcheck : commandCheck (.detile l 0#24) s = none :=
    (commandCheck_detile_none_iff l 0#24 s).mpr ⟨⟨rfl, hl⟩, hsrc, hdst, hapart⟩
  have hbpp : bytesPerBlock l = bpp := bytesPerBlock_eq_two_pow l
  have hfits : ∀ x y, blockFits s.tiled l s (x, y) = true ↔ fits x y := fun x y => by
    rw [blockFits_iff, linearBlockOffset, hbpp]
    rfl
  have hskipped : detileSkipped s.tiled l s =
      ∑ y ∈ Finset.range h, ∑ x ∈ Finset.range p, if fits x y then 0 else 1 := by
    simp only [detileSkipped, countP_blockGrid, Bool.not_eq_true', ← Bool.not_eq_true, hfits, ite_not]
    rfl
  refine ⟨(detileTransfers s.tiled l s).foldl Transfer.apply s.mem, ?_, fun x y i hx hy hf hi => ?_, fun a ha => ?_⟩
  · rw [← hskipped]
    exact execDetile_ok l 0#24 s hcheck
  · have hbyte := detile_byte_of_fits s.tiled l s hapart (b := (x, y)) ⟨hx, hy⟩ ((hfits x y).mpr hf) (hbpp ▸ hi)
    rwa [linearBlockOffset, hbpp] at hbyte
  · refine foldl_apply_unwritten _ _ a fun t ht hw => ?_
    obtain ⟨⟨x, y⟩, ⟨hx, hy⟩, hf, rfl⟩ := (mem_detileTransfers s.tiled l s t).mp ht
    rw [Transfer.Writes, blockTransfer, linearBlockOffset, hbpp] at hw
    exact ha x y hx hy ((hfits x y).mp hf) hw

/-! ### DETILE of an aligned level -/

/-- The k-th block of the linear destination: its column and its row in a grid of `p` columns. -/
def linearBlock (p k : Nat) : Nat × Nat := (k % p, k / p)

theorem linearBlock_injective (p : Nat) : Function.Injective (linearBlock p) := by
  intro k k' heq
  obtain ⟨hmod, hdiv⟩ := Prod.mk.inj heq
  rw [← Nat.mod_add_div k p, ← Nat.mod_add_div k' p, hmod, hdiv]

theorem linearBlock_mapsTo (p h : Nat) :
    Set.MapsTo (linearBlock p) (Finset.range (p * h)) (Finset.range p ×ˢ Finset.range h : Finset (Nat × Nat)) := by
  intro k hk
  have hlt : k < p * h := by simpa using hk
  have hp : 0 < p := Nat.pos_of_mul_pos_right (Nat.zero_lt_of_lt hlt)
  simp [linearBlock, Nat.mod_lt _ hp, Nat.div_lt_of_lt_mul hlt]

/-- The block below `n` ends by the end of the `n` blocks. -/
theorem block_end_le {k n : Nat} (b : Nat) (hk : k < n) : k * b + b ≤ n * b := by
  rw [← Nat.succ_mul]
  exact Nat.mul_le_mul_right b hk

section
variable {p h l : Nat} (hl : l = 3 ∨ l = 4) (hp : p < 2 ^ 32) (hh : h < 2 ^ 32) (hp32 : p % 32 = 0) (hh32 : h % 32 = 0)
  (harea : p * h * 2 ^ l ≤ 2 ^ 32)
include hl hp hh hp32 hh32 harea

/-- The tiled block that each linear block comes from: all `p * h` of them, each once (R107). -/
theorem gridIndex_linearBlock_bijOn :
    Set.BijOn (gridIndex p l ∘ linearBlock p) (Set.Iio (p * h)) (Set.Iio (p * h)) := by
  have hmaps := (gridIndex_mapsTo hl hp hh hp32 hh32 harea).comp (linearBlock_mapsTo p h)
  have hinj := (gridIndex_injOn hl hp hh hp32 hh32 harea).comp (linearBlock_injective p).injOn (linearBlock_mapsTo p h)
  rw [← Finset.coe_range]
  exact ⟨hmaps, hinj, Finset.surjOn_of_injOn_of_card_le _ hmaps hinj le_rfl⟩

/-- A block of an aligned level lies inside the level's length, in the tiled source and in the linear destination. -/
theorem aligned_block_fits {x y : Nat} (hx : x < p) (hy : y < h) :
    gridIndex p l (x, y) * 2 ^ l + 2 ^ l ≤ p * h * 2 ^ l ∧ (y * p + x) * 2 ^ l + 2 ^ l ≤ p * h * 2 ^ l := by
  have hindex := gridIndex_mapsTo hl hp hh hp32 hh32 harea (x := (x, y)) (by simp [hx, hy])
  have hlinear : y * p + x < p * h := Nat.add_comm x _ ▸ add_mul_lt hx hy
  exact ⟨block_end_le _ (by simpa using hindex), block_end_le _ hlinear⟩

end

/-- The default translator's offset of a grid position is its block index in bytes (R103). -/
theorem tiled_default_toNat (s : State) (hs : s.translator = Config.defaultTranslator) {l : Nat} (hl : l = 3 ∨ l = 4)
    (x y : Nat) :
    (s.tiled (BitVec.ofNat 32 x) (BitVec.ofNat 32 y) s.pitch l).toNat = gridIndex s.pitch.toNat l (x, y) * 2 ^ l := by
  rw [State.tiled_default s hs, ← tiledIndex_toNat_mul hl, gridIndex, BitVec.ofNat_toNat, BitVec.setWidth_eq]

/-- Settles O21: every block of the level fits, so O19 moves all of them, along the bijection of the block indices. -/
theorem alignedDetilePermutesTheBlocks : Obligations.AlignedDetilePermutesTheBlocks := by
  intro s t l hl p h bpp hdefault hp32 hh32 hsl hdl hexec hdone hnotdone
  have hcheck : commandCheck (.detile l 0#24) s = none := by
    rcases exec_command_cases _ s t rfl hexec with ⟨e, -, rfl⟩ | ⟨hn, -⟩
    · exact absurd hdone (by simp [hnotdone])
    · exact hn
  obtain ⟨-, hsrc, hdst, hapart⟩ := (commandCheck_detile_none_iff l 0#24 s).mp hcheck
  obtain ⟨m, hx, hmoved, -⟩ :=
    detileGathersTheBlocksThatFit s l hl hsrc hdst ((overlaps_eq_false_iff ..).mp hapart)
  obtain rfl := Host.Outcome.next.inj (hx.symm.trans hexec)
  have hl34 : l.toNat = 3 ∨ l.toNat = 4 := hl.imp (congrArg BitVec.toNat) (congrArg BitVec.toNat)
  have hp : p < 2 ^ 32 := s.pitch.isLt
  have hh : h < 2 ^ 32 := s.height.isLt
  have harea : p * h * 2 ^ l.toNat ≤ 2 ^ 32 := hsl ▸ s.srcLen.isLt.le
  have hfits := fun x y => aligned_block_fits hl34 hp hh hp32 hh32 harea (x := x) (y := y)
  simp only [tiled_default_toNat s hdefault hl34, hsl, hdl] at hmoved ⊢
  refine ⟨?_, gridIndex p l.toNat ∘ linearBlock p, gridIndex_linearBlock_bijOn hl34 hp hh hp32 hh32 harea,
    fun k i hk hi => ?_⟩
  · refine congrArg (BitVec.ofNat 32) (Finset.sum_eq_zero fun y hy => Finset.sum_eq_zero fun x hx => if_pos ?_)
    exact hfits x y (Finset.mem_range.mp hx) (Finset.mem_range.mp hy)
  · obtain ⟨hx, hy⟩ := Finset.mem_product.mp (linearBlock_mapsTo p h (Finset.mem_coe.mpr (Finset.mem_range.mpr hk)))
    rw [Finset.mem_range] at hx hy
    have hbyte := hmoved _ _ i hx hy (hfits _ _ hx hy) hi
    rwa [linearBlock, Nat.div_add_mod'] at hbyte

end Sys2Proof.Machine

/-! PROOFS. The endian family (42_endian.md): the pairs that SWAP exchanges, SWAP as an involution, and SWAP before or after
DETILE. -/

namespace Sys2Proof.Machine

/-! ### The pairs -/

theorem pairPartner_first (base i : Nat) : pairPartner base (base + 2 * i) = base + 2 * i + 1 :=
  if_pos (by omega)

theorem pairPartner_second (base i : Nat) : pairPartner base (base + 2 * i + 1) = base + 2 * i :=
  if_neg (by omega)

/-- A byte from the base on is the first or the second of one pair. -/
theorem exists_pair {base a : Nat} (ha : base ≤ a) : ∃ i, a = base + 2 * i ∨ a = base + 2 * i + 1 :=
  ⟨(a - base) / 2, by omega⟩

theorem pairPartner_pairPartner {base a : Nat} (ha : base ≤ a) : pairPartner base (pairPartner base a) = a := by
  obtain ⟨i, rfl | rfl⟩ := exists_pair ha
  · rw [pairPartner_first, pairPartner_second]
  · rw [pairPartner_second, pairPartner_first]

/-- Pairs may be counted from any even distance past the base. -/
theorem pairPartner_add_of_even (base i : Nat) {k : Nat} (hk : k % 2 = 0) :
    pairPartner base (base + k + i) = base + k + pairPartner 0 i := by
  unfold pairPartner
  split <;> split <;> omega

/-- `m'` is `m` with the bytes of each whole pair of the region exchanged (R160, R161). -/
def PairsSwapped (r : Region) (m m' : Memory) : Prop :=
  ∀ a, m'.byte a = if r.base ≤ a ∧ a < r.base + 2 * (r.len / 2) then m.byte (pairPartner r.base a) else m.byte a

section
variable {r : Region} {m m' : Memory} (h : PairsSwapped r m m')
include h

theorem PairsSwapped.byte_inside {a : Nat} (ha : r.base ≤ a ∧ a < r.base + 2 * (r.len / 2)) :
    m'.byte a = m.byte (pairPartner r.base a) :=
  (h a).trans (if_pos ha)

theorem PairsSwapped.byte_outside {a : Nat} (ha : ¬(r.base ≤ a ∧ a < r.base + 2 * (r.len / 2))) :
    m'.byte a = m.byte a :=
  (h a).trans (if_neg ha)

/-- Exchanging the pairs of a region again restores it, whatever the bytes outside it have become (R163). -/
theorem PairsSwapped.restores {n n' : Memory} (hkept : ∀ a, r.contains a = true → n.byte a = m'.byte a)
    (h' : PairsSwapped r n n') {a : Nat} (ha : r.contains a = true) : n'.byte a = m.byte a := by
  by_cases hpair : r.base ≤ a ∧ a < r.base + 2 * (r.len / 2)
  · have hpartner := pairPartner_in_pairs r.base (r.len / 2) a hpair
    rw [h'.byte_inside hpair, hkept _ ((Region.contains_iff ..).mpr ⟨hpartner.1, by omega⟩), h.byte_inside hpartner,
      pairPartner_pairPartner hpair.1]
  · rw [h'.byte_outside hpair, hkept a ha, h.byte_outside hpair]

end

/-! ### SWAP -/

/-- A SWAP whose region is in bounds exchanges its pairs and completes. -/
theorem exec_swap_of_inBounds (s : State) (hin : s.dstBase.toNat + s.dstLen.toNat ≤ s.memSize) :
    ∃ m, exec (.swap 0#4 0#24) s = .next { s with mem := m }.completeDone ∧ PairsSwapped s.dstRegion s.mem m := by
  obtain ⟨m, hx, hm, -⟩ := execSwap_ok 0#4 0#24 s ((commandCheck_swap_none_iff ..).mpr ⟨⟨rfl, rfl⟩, hin⟩)
  exact ⟨m, hx, hm⟩

/-- All that such a SWAP does. -/
theorem exec_swap_next {s t : State} (h : exec (.swap 0#4 0#24) s = .next t)
    (hin : s.dstBase.toNat + s.dstLen.toNat ≤ s.memSize) :
    ∃ m, t = { s with mem := m }.completeDone ∧ PairsSwapped s.dstRegion s.mem m := by
  obtain ⟨m, hx, hm⟩ := exec_swap_of_inBounds s hin
  exact ⟨m, Host.Outcome.next.inj (h.symm.trans hx), hm⟩

/-- A SWAP whose region is out of bounds ends with BUS. -/
theorem exec_swap_of_outOfBounds (s : State) (hout : s.memSize < s.dstBase.toNat + s.dstLen.toNat) :
    exec (.swap 0#4 0#24) s = .next (s.completeErr .bus) := by
  refine exec_of_commandCheck_some _ s .bus rfl ?_
  have hfields : decodeError (.swap 0#4 0#24) = none := (fieldCheck_plain_none_iff ..).mpr ⟨rfl, rfl⟩
  rw [commandCheck, hfields, busCheck_some _ s.dstRegion hout, firstError, firstError]

/-- Settles O23: the partner of a pair's first byte is its second, and the other way round. -/
theorem swapExchangesThePairs : Obligations.SwapExchangesThePairs := by
  intro s b n hin
  obtain ⟨m, hx, hswapped⟩ := exec_swap_of_inBounds s hin
  refine ⟨m, hx, fun i hi => ⟨?_, ?_⟩, fun a ha => hswapped.byte_outside (by simp only [State.dstRegion]; omega)⟩
  · have hfirst := hswapped.byte_inside (a := b + 2 * i) (by simp only [State.dstRegion]; omega)
    rwa [State.dstRegion, pairPartner_first] at hfirst
  · have hsecond := hswapped.byte_inside (a := b + 2 * i + 1) (by simp only [State.dstRegion]; omega)
    rwa [State.dstRegion, pairPartner_second] at hsecond

/-- Settles O24: both SWAPs exchange the pairs of the region, or both end with BUS and write nothing. -/
theorem swapTwiceRestoresTheRegion : Obligations.SwapTwiceRestoresTheRegion := by
  intro s t t' u hfirst hbase hlen hsize hkept hsecond a ha
  have hregion : t'.dstRegion = s.dstRegion := by rw [State.dstRegion, State.dstRegion, hbase, hlen]
  by_cases hin : s.dstBase.toNat + s.dstLen.toNat ≤ s.memSize
  · obtain ⟨m, rfl, hswapped⟩ := exec_swap_next hfirst hin
    obtain ⟨n, rfl, hswapped'⟩ := exec_swap_next hsecond (by rwa [hbase, hlen, hsize])
    exact hswapped.restores hkept (hregion ▸ hswapped') ha
  · rw [exec_swap_of_outOfBounds s (not_le.mp hin)] at hfirst
    rw [exec_swap_of_outOfBounds t' (by rw [hbase, hlen, hsize]; exact not_le.mp hin)] at hsecond
    obtain rfl := Host.Outcome.next.inj hfirst
    obtain rfl := Host.Outcome.next.inj hsecond
    exact hkept a ha

/-! ### SWAP and DETILE -/

/-- All that a DETILE whose checks pass does. -/
theorem exec_detile_next {l : BitVec 4} {rsvd : BitVec 24} {s t : State} (h : exec (.detile l rsvd) s = .next t)
    (hcheck : commandCheck (.detile l rsvd) s = none) :
    t = { s with
      mem := (detileTransfers s.tiled l s).foldl Transfer.apply s.mem
      skipCount := BitVec.ofNat 32 (detileSkipped s.tiled l s) }.completeDone :=
  Host.Outcome.next.inj (h.symm.trans (execDetile_ok l rsvd s hcheck))

section
variable {T : Word → Word → Word → Nat → Word} {l : BitVec 4} (hl : l = 3#4 ∨ l = 4#4) {s : State}
include hl

theorem bytesPerBlock_even : bytesPerBlock l % 2 = 0 := by
  rcases bytesPerBlock_legal l hl with h | h <;> rw [h]

theorem linearBlockOffset_even (b : Nat × Nat) : linearBlockOffset l s b % 2 = 0 := by
  rw [linearBlockOffset, Nat.mul_mod, bytesPerBlock_even hl, Nat.mul_zero, Nat.zero_mod]

/-- A block holds whole pairs. -/
theorem pairPartner_lt_bytesPerBlock {i : Nat} (hi : i < bytesPerBlock l) : pairPartner 0 i < bytesPerBlock l := by
  have heven := bytesPerBlock_even hl
  have hpair := pairPartner_in_pairs 0 (bytesPerBlock l / 2) i ⟨Nat.zero_le i, by omega⟩
  omega

/-- A transfer of DETILE writes whole pairs of the destination. -/
theorem detileTransfers_writes_pair {t : Transfer} (ht : t ∈ detileTransfers T l s) (i : Nat) :
    t.Writes (s.dstBase.toNat + 2 * i + 1) ↔ t.Writes (s.dstBase.toNat + 2 * i) := by
  obtain ⟨b, -, -, rfl⟩ := (mem_detileTransfers T l s t).mp ht
  have hlinear := linearBlockOffset_even hl (s := s) b
  have hbpp := bytesPerBlock_even hl
  simp only [Transfer.Writes, blockTransfer]
  omega

/-- A byte of a moved block, on both paths: DETILE reads its block's pairs where the SWAP of the source exchanges them, and the
SWAP of the destination exchanges them where DETILE has put them. -/
theorem detile_swap_byte_of_fits (hapart : s.srcRegion.overlaps s.dstRegion = false) {b : Nat × Nat}
    (hb : b.1 < s.pitch.toNat ∧ b.2 < s.height.toNat) (hfits : blockFits T l s b = true)
    (heven : tiledBlockOffset T l s b % 2 = 0) {i : Nat} (hi : i < bytesPerBlock l) {src dst : Memory}
    (hsrc : PairsSwapped s.srcRegion s.mem src)
    (hdst : PairsSwapped s.dstRegion ((detileTransfers T l s).foldl Transfer.apply s.mem) dst) :
    dst.byte (s.dstBase.toNat + linearBlockOffset l s b + i) =
      src.byte (s.srcBase.toNat + tiledBlockOffset T l s b + i) := by
  obtain ⟨hfitsSrc, hfitsDst⟩ := (blockFits_iff ..).mp hfits
  have hbpp := bytesPerBlock_even hl
  have hlinear := linearBlockOffset_even hl (s := s) b
  calc dst.byte (s.dstBase.toNat + linearBlockOffset l s b + i)
    _ = ((detileTransfers T l s).foldl Transfer.apply s.mem).byte
          (s.dstBase.toNat + linearBlockOffset l s b + pairPartner 0 i) := by
        rw [← pairPartner_add_of_even _ _ hlinear]
        exact hdst.byte_inside (by simp only [State.dstRegion]; omega)
    _ = s.mem.byte (s.srcBase.toNat + tiledBlockOffset T l s b + pairPartner 0 i) :=
        detile_byte_of_fits T l s hapart hb hfits (pairPartner_lt_bytesPerBlock hl hi)
    _ = src.byte (s.srcBase.toNat + tiledBlockOffset T l s b + i) := by
        rw [← pairPartner_add_of_even _ _ heven]
        exact (hsrc.byte_inside (by simp only [State.srcRegion]; omega)).symm

/-- A byte that DETILE does not write: the SWAP of the destination leaves it as it was, where the bytes of its pair are equal. -/
theorem detile_swap_byte_of_unwritten {a : Nat}
    (hunwritten : ∀ t ∈ detileTransfers T l s, ¬t.Writes a) {dst : Memory}
    (hequal : ∀ i, i < s.dstLen.toNat / 2 →
      (∀ t ∈ detileTransfers T l s, ¬t.Writes (s.dstBase.toNat + 2 * i)) →
      s.mem.byte (s.dstBase.toNat + 2 * i) = s.mem.byte (s.dstBase.toNat + 2 * i + 1))
    (hdst : PairsSwapped s.dstRegion ((detileTransfers T l s).foldl Transfer.apply s.mem) dst) :
    dst.byte a = s.mem.byte a := by
  have hkept := foldl_apply_unwritten (detileTransfers T l s) s.mem
  by_cases hpair : s.dstRegion.base ≤ a ∧ a < s.dstRegion.base + 2 * (s.dstRegion.len / 2)
  · rw [hdst.byte_inside hpair]
    obtain ⟨i, hi⟩ := exists_pair hpair.1
    simp only [State.dstRegion] at hpair hi ⊢
    rcases hi with rfl | rfl
    · have hsecond := fun t ht => mt (detileTransfers_writes_pair hl ht i).mp (hunwritten t ht)
      rw [pairPartner_first, hkept _ hsecond, hequal i (by omega) hunwritten]
    · have hfirst := fun t ht => mt (detileTransfers_writes_pair hl ht i).mpr (hunwritten t ht)
      rw [pairPartner_second, hkept _ hfirst, hequal i (by omega) hfirst]
  · rw [hdst.byte_outside hpair, hkept a hunwritten]

end

/-- Settles O25: a byte of the destination is in one moved block, or DETILE leaves it as it is. -/
theorem swapCommutesWithDetile : Obligations.SwapCommutesWithDetile := by
  intro s t1 u1 t2 u2 l hl b heven hequal hsrcIn hdstIn hapart hdetile hswap hswapSrc hdetile2 a ha
  have hcheck : commandCheck (.detile l 0#24) s = none :=
    (commandCheck_detile_none_iff l 0#24 s).mpr ⟨⟨rfl, hl⟩, hsrcIn, hdstIn, hapart⟩
  obtain rfl := exec_detile_next hdetile hcheck
  obtain ⟨dst, rfl, hdst⟩ := exec_swap_next hswap hdstIn
  obtain ⟨src, rfl, hsrc⟩ := exec_swap_next hswapSrc hsrcIn
  obtain rfl := exec_detile_next hdetile2 hcheck
  by_cases hwritten : ∃ t ∈ detileTransfers s.tiled l s, t.Writes a
  · obtain ⟨t, ht, hw⟩ := hwritten
    obtain ⟨c, hc, hfits, rfl⟩ := (mem_detileTransfers s.tiled l s t).mp ht
    obtain ⟨i, rfl⟩ := Nat.exists_eq_add_of_le hw.1
    have hi : i < bytesPerBlock l := Nat.lt_of_add_lt_add_left hw.2
    have hoffset : tiledBlockOffset s.tiled l s c % 2 = 0 :=
      heven _ _ (ofNat_toNat_lt s.pitch.isLt hc.1) (ofNat_toNat_lt s.height.isLt hc.2)
    exact (detile_swap_byte_of_fits hl hapart hc hfits hoffset hi hsrc hdst).trans
      (detile_byte_of_fits s.tiled l { s with mem := src } hapart hc hfits hi).symm
  · have hunwritten : ∀ t ∈ detileTransfers s.tiled l s, ¬t.Writes a := fun t ht hw => hwritten ⟨t, ht, hw⟩
    have hoff : ¬(s.srcRegion.base ≤ a ∧ a < s.srcRegion.base + 2 * (s.srcRegion.len / 2)) := fun hs =>
      not_overlaps_disjoint _ _ hapart a ⟨hs.1, by omega⟩ ((Region.contains_iff ..).mp ha)
    calc dst.byte a
      _ = s.mem.byte a := detile_swap_byte_of_unwritten hl hunwritten hequal hdst
      _ = src.byte a := (hsrc.byte_outside hoff).symm
      _ = ((detileTransfers s.tiled l s).foldl Transfer.apply src).byte a :=
        (foldl_apply_unwritten _ _ a hunwritten).symm

end Sys2Proof.Machine

/-! PROOFS. The control family (43_control.md): NOP, the register window over the bus, acceptance, the engine's turn and the
race of a write with it, and the host's pseudo-instructions. -/

namespace Sys2Proof.Machine

/-! ### What a command changes -/

/-- All that a command can change, however it ends: BUF, the result registers, and STATUS and PENDING as its completion
leaves them (R37, R252, R254). -/
theorem exec_command_changes (i : Instr) (s t : State) (hc : i.isCommand = true) (h : exec i s = .next t) :
    ∃ m r ri k st,
      t = { s with mem := m, result := r, resultIndex := ri, skipCount := k, status := st, pending := none } ∧
        (st = s.status.completedDone ∨ ∃ e, st = s.status.completedErr e) := by
  rcases exec_command_cases i s t hc h with ⟨e, -, rfl⟩ | ⟨-, m, r, ri, k, rfl⟩
  · exact ⟨_, _, _, _, _, rfl, .inr ⟨e, rfl⟩⟩
  · exact ⟨_, _, _, _, _, rfl, .inl rfl⟩

/-- A command ends the flight: BUSY = 0, with DONE or ERR, and DROP as it was (R254). -/
theorem exec_command_status (i : Instr) (s t : State) (hc : i.isCommand = true) (h : exec i s = .next t) :
    t.status.busy = false ∧ t.status.drop = s.status.drop ∧ (t.status.done = true ∨ t.status.err = true) := by
  obtain ⟨_, _, _, _, _, rfl, rfl | ⟨e, rfl⟩⟩ := exec_command_changes i s t hc h
  · exact ⟨rfl, rfl, .inl rfl⟩
  · exact ⟨rfl, rfl, .inr rfl⟩

/-- A command runs the same whatever events wait, and keeps them. -/
theorem exec_command_withInputs (i : Instr) (s c : State) (hc : i.isCommand = true) (h : exec i s = .next c)
    (es : List Input) : exec i (s.withInputs es) = .next (c.withInputs es) := by
  have hx := exec_command_other_events i s c hc h es s.readData s.status.drop
  obtain ⟨_, _, _, _, _, rfl, rfl | ⟨e, rfl⟩⟩ := exec_command_changes i s c hc h <;> exact hx

/-- A command runs the same after a dropped write, and keeps DROP (R171). -/
theorem exec_command_dropWrite (i : Instr) (s c : State) (hc : i.isCommand = true) (h : exec i s = .next c) :
    exec i s.dropWrite = .next c.dropWrite := by
  have hx := exec_command_other_events i s c hc h s.inputs s.readData true
  obtain ⟨_, _, _, _, _, rfl, -⟩ := exec_command_changes i s c hc h
  exact hx

/-! ### NOP -/

/-- Settles O17: both fields are legal, so the check passes. -/
theorem nopCompletes : Obligations.NopCompletes := by
  intro s
  have hcheck : commandCheck (.nop 0#4 0#24) s = none := (fieldCheck_plain_none_iff 0#4 0#24).mpr ⟨rfl, rfl⟩
  rw [exec, execNop, hcheck, State.runChecked_none]
  rfl

/-! ### Reading and writing the register window -/

theorem Status.word_accepted : Status.accepted.word = 0x00000001#32 := by decide

/-- STATUS after a command that began at its acceptance and ended with DONE (R173, R254). -/
theorem Status.word_accepted_completedDone : Status.accepted.completedDone.word = 0x00000002#32 := by decide

/-- STATUS as a number, by R23's bits. -/
theorem Status.word_toNat (st : Status) :
    st.word.toNat =
      st.busy.toNat + 2 * st.done.toNat + 4 * st.err.toNat + 8 * st.drop.toNat + 16 * st.errcode.toNat := by
  simp only [Status.word, append_toNat, BitVec.toNat_ofBool, BitVec.toNat_ofNat]
  omega

/-- Settles O29: the value read is the slot's. -/
theorem rdregReturnsTheSlot : Obligations.RdregReturnsTheSlot := by
  intro s r hr
  refine ⟨s.readSlot r, execRdreg_answers r s hr, ?_⟩
  cases r with
  | status => exact Status.word_toNat s.status
  | irqEn => cases h : s.irqEn <;> simp [State.readSlot, h]
  | _ => rfl

theorem getLsbD_zero_eq_decide (v : Word) : v.getLsbD 0 = decide (v.toNat % 2 = 1) :=
  Nat.testBit_zero v.toNat

/-- Settles O30, slot by slot. -/
theorem wrregWritesOrDrops : Obligations.WrregWritesOrDrops := by
  intro s r v hr
  have hx : exec (.wrreg r v) s = _ := execWrreg_answers r v s hr
  refine ⟨fun hb => ?_, fun hb => ?_⟩
  · rw [hx, if_pos hb]
    rfl
  · rw [hx, hb]
    cases r with
    | irqEn => rw [← getLsbD_zero_eq_decide]; rfl
    | _ => rfl

/-- Settles O31: acceptance looks at no bit of the word, and a word with a decode error ends with it when it executes. -/
theorem cmdWriteAcceptsEveryWord : Obligations.CmdWriteAcceptsEveryWord := by
  intro s w hr hb
  refine ⟨s.accept w, ?_, rfl, Status.word_accepted, ?_, fun hd => ?_⟩
  · have hx : exec (.wrreg .cmd w) s = _ := execWrreg_answers .cmd w s hr
    rw [hx, hb]
    rfl
  · simp [State.irq]
  · obtain ⟨e, he⟩ := Option.ne_none_iff_exists'.mp hd
    exact ⟨_, exec_of_decodeError _ (s.accept w) e (decodeCommand_isCommand w) he, rfl⟩

/-- The register window does not show the events waiting or what the host read last. -/
theorem readSlot_of_hostSide (s : State) (r : Slot) (es : List Input) (v : Word) :
    State.readSlot { s with inputs := es, readData := v } r = s.readSlot r := by
  cases r <;> rfl

/-- The RW operand registers (R21). -/
def operandSlots : List Slot := [.x, .y, .pitch, .height, .srcBase, .srcLen, .dstBase, .dstLen]

section
variable {r r' : Slot} (s : State) (v : Word)

theorem readSlot_writeSlot_same (hr : r ∈ operandSlots) : (s.writeSlot r v).readSlot r = v := by
  cases r with
  | x | y | pitch | height | srcBase | srcLen | dstBase | dstLen => rfl
  | _ => exact absurd hr (by decide)

/-- A write that accepts no command changes at most what its own slot reads. -/
theorem readSlot_writeSlot_other (hr : r ≠ .cmd) (hne : r' ≠ r) : (s.writeSlot r v).readSlot r' = s.readSlot r' := by
  cases r with
  | cmd => exact absurd rfl hr
  | status | result | resultIndex | skipCount | rsvd38 | rsvd3C => rfl
  | x | y | pitch | height | srcBase | srcLen | dstBase | dstLen | irqEn =>
    cases r' <;> simp [State.readSlot, State.writeSlot] at hne ⊢

/-- RO registers and reserved slots ignore a write (R171). -/
theorem writeSlot_readOnly (hcmd : r ≠ .cmd) (hop : r ∉ operandSlots) (hirq : r ≠ .irqEn) : s.writeSlot r v = s := by
  cases r with
  | cmd => exact absurd rfl hcmd
  | irqEn => exact absurd rfl hirq
  | status | result | resultIndex | skipCount | rsvd38 | rsvd3C => rfl
  | _ => exact absurd (by decide) hop

theorem readSlot_writeSlot (hr : r ≠ .cmd) :
    (s.writeSlot r v).readSlot r' =
      if r' = r ∧ r ∈ operandSlots then v else if r' = r ∧ r = .irqEn then v &&& 1#32 else s.readSlot r' := by
  by_cases hne : r' = r
  · subst hne
    by_cases hop : r' ∈ operandSlots
    · rw [if_pos ⟨rfl, hop⟩, readSlot_writeSlot_same s v hop]
    · rw [if_neg fun h => hop h.2]
      by_cases hirq : r' = .irqEn
      · rw [if_pos ⟨rfl, hirq⟩, hirq, readSlot_writeSlot_irqEn]
      · rw [if_neg fun h => hirq h.2, writeSlot_readOnly s v hr hop hirq]
  · rw [if_neg fun h => hne h.1, if_neg fun h => hne h.1, readSlot_writeSlot_other s v hr hne]

end

/-- Settles O33: a write that is not dropped, then a read of what it left. -/
theorem readAfterRegisterWrite : Obligations.ReadAfterRegisterWrite := by
  intro s t u r r' v hr hb hcmd hw hread
  rcases (execWrreg_next _ _ _ _ hw).2 with ⟨hbusy, -⟩ | ⟨-, rfl⟩
  · exact absurd (hbusy.symm.trans hb) (by decide)
  · obtain ⟨-, rfl⟩ := execRdreg_next _ _ _ hread
    exact readSlot_writeSlot s v hcmd

/-! ### The engine's turn -/

theorem State.withInputs_of_eq {s : State} {es : List Input} (h : s.inputs = es) : s.withInputs es = s := by
  subst h
  rfl

section
variable {s : State} {rest : List Input} (hi : s.inputs = [] ∧ rest = [] ∨ s.inputs = .engine :: rest)
include hi

/-- A step with the engine's turn next, or with no event waiting, is the engine's turn (R310). -/
theorem step_of_engineTurn : step s = perform (engineTurn (s.withInputs rest)) := by
  rcases hi with ⟨hi, rfl⟩ | hi
  · rw [step_of_no_inputs hi, State.withInputs_of_eq hi]
  · exact step_of_engine hi

theorem step_of_engineTurn_idle (hb : s.status.busy = false) : step s = .next (s.withInputs rest) := by
  rw [step_of_engineTurn hi, engineTurn_idle (s.withInputs rest) hb, perform]

theorem step_of_engineTurn_busy {w : Word} (hb : s.status.busy = true) (hp : s.pending = some w) :
    step s = settle (decodeCommand w) (s.withInputs rest) (exec (decodeCommand w) (s.withInputs rest)) := by
  rw [step_of_engineTurn hi, engineTurn_busy (s.withInputs rest) w hb hp, perform]

/-- A flight in which the host kept H2 ends as `exec` does (R305). -/
theorem step_of_engineTurn_unraced {w : Word} (hb : s.status.busy = true) (hp : s.pending = some w)
    (hraced : s.raced = []) : step s = exec (decodeCommand w) (s.withInputs rest) := by
  rw [step_of_engineTurn_busy hi hb hp, settle_of_no_races _ (s.withInputs rest) _ hraced]

end

/-- Settles O38: in both cases the step is the engine's turn. -/
theorem idleEngineChangesNothing : Obligations.IdleEngineChangesNothing := by
  intro s hb
  refine ⟨fun hi => ?_, fun rest hi => step_of_engineTurn_idle (.inr hi) hb⟩
  rw [step_of_engineTurn_idle (.inl ⟨hi, rfl⟩) hb, State.withInputs_of_eq hi]

/-- Settles O36: settling the races reaches no register. -/
theorem engineTurnRunsPending : Obligations.EngineTurnRunsPending := by
  intro s w rest hb hp hi
  refine ⟨step_of_engineTurn_unraced hi hb hp, fun c hc => ?_⟩
  have hc : exec (decodeCommand w) (s.withInputs rest) = .next c := hc
  obtain ⟨-, -, -, hraced, -⟩ := exec_command_frame _ _ _ (decodeCommand_isCommand w) hc
  have hnil := settleRaces_raced (decodeCommand w) (s.withInputs rest) c hraced
  obtain ⟨m, d, rs, hframe⟩ := settleRaces_frame (decodeCommand w) (s.withInputs rest) c
  rw [hframe] at hnil
  obtain rfl : rs = [] := hnil
  exact ⟨m, d, by rw [step_of_engineTurn_busy hi hb hp, hc, settle, hframe]⟩

/-- Settles O45: of the events that change a register, the engine's turn and a reset end the flight, and a write is
dropped. -/
theorem operandsHoldDuringTheFlight : Obligations.OperandsHoldDuringTheFlight := by
  intro s t hb h ht
  cases step_event s t h with
  | engine w rest c hi _ hp hc =>
    have hend := (exec_command_status _ _ _ (decodeCommand_isCommand w) hc).1
    rw [settleRaces_status, hend] at ht
    cases ht
  | written rest r v hr hidle => exact absurd (hb.symm.trans hidle) (by decide)
  | resetAssert rest hi => cases ht
  | resetRelease rest hi =>
    rcases releaseReset_cases (s.withInputs rest) with ⟨-, hs⟩ | ⟨-, hs⟩ <;> rw [hs] at ht ⊢
    · cases ht
    · simp
  | idle rest => simp
  | read rest v hr => simp
  | dropped rest hr _ => simp
  | hostWritten a bs rest hi hin => simp
  | hostRead rest bytes n => simp

/-! ### Two steps: a write and the engine's turn -/

theorem run_two {s t u : State} (h : step s = .next t) (h' : step t = .next u) :
    Host.Core.run Sys2Proof.core 2 s = .next u := by
  have h : Sys2Proof.core.step s = .next t := h
  have h' : Sys2Proof.core.step t = .next u := h'
  simp only [Host.Core.run, h, h']

theorem writeSlot_withInputs (s : State) (r : Slot) (v : Word) (es : List Input) :
    (s.withInputs es).writeSlot r v = (s.writeSlot r v).withInputs es := by
  cases r <;> rfl

/-- The host's write with the engine idle (R171). -/
theorem step_writeEvent_idle (s : State) (r : Slot) (v : Word) (rest : List Input) (hr : s.resetAsserted = false)
    (hb : s.status.busy = false) :
    step (s.withInputs (writeEvent r v :: rest)) = .next ((s.writeSlot r v).withInputs rest) := by
  have hidle : ¬(s.withInputs rest).status.busy = true := by simp [hb]
  rw [step_writeEvent, execWrreg_answers r v (s.withInputs rest) hr, if_neg hidle, writeSlot_withInputs]

/-- The host's write during a flight (R171). -/
theorem step_writeEvent_busy (s : State) (r : Slot) (v : Word) (rest : List Input) (hr : s.resetAsserted = false)
    (hb : s.status.busy = true) :
    step (s.withInputs (writeEvent r v :: rest)) = .next (s.dropWrite.withInputs rest) := by
  have hbusy : (s.withInputs rest).status.busy = true := hb
  rw [step_writeEvent, execWrreg_answers r v (s.withInputs rest) hr, if_pos hbusy]
  rfl

/-- Settles O49: the command runs the same after the dropped write, and leaves the engine idle before the other. -/
theorem busyWriteRaceHasBothOutcomes : Obligations.BusyWriteRaceHasBothOutcomes := by
  intro s c w v r hr hb hp hraced hi hc
  have hcmd := decodeCommand_isCommand w
  have hidle := (exec_command_status _ _ _ hcmd hc).1
  have hcr : c.resetAsserted = false := by
    obtain ⟨-, -, -, -, hreset, -⟩ := exec_command_frame _ _ _ hcmd hc
    exact hreset.trans hr
  have hci : c.inputs = [] := by
    obtain ⟨_, _, _, _, _, rfl, -⟩ := exec_command_changes _ _ _ hcmd hc
    exact hi
  constructor
  · have hdropped : exec (decodeCommand w) (s.dropWrite.withInputs []) = .next c.dropWrite := by
      rw [State.withInputs_of_eq (s := s.dropWrite) hi]
      exact exec_command_dropWrite _ _ _ hcmd hc
    have hturn := step_of_engineTurn_unraced (s := s.dropWrite.withInputs [.engine]) (.inr rfl) hb hp hraced
    exact run_two (step_writeEvent_busy s r v [.engine] hr hb) (hturn.trans hdropped)
  · have hturn := step_of_engineTurn_unraced (s := s.withInputs [.engine, writeEvent r v]) (.inr rfl) hb hp hraced
    have hwrite := step_writeEvent_idle c r v [] hcr hidle
    rw [State.withInputs_of_eq (s := c.writeSlot r v) ((State.writeSlot_inputs ..).trans hci)] at hwrite
    exact run_two (hturn.trans (exec_command_withInputs _ _ _ hcmd hc _)) hwrite

/-- Settles O50: acceptance clears the error (R255), and NOP then sets DONE. -/
theorem nopClearsAnError : Obligations.NopClearsAnError := by
  intro s hr hb hp hraced hi
  have haccept : step s = .next ((s.accept 0#32).withInputs [.engine]) := by
    rw [← State.withInputs_of_eq hi]
    exact step_writeEvent_idle s .cmd 0#32 [.engine] hr hb
  have hturn := step_of_engineTurn_unraced (s := (s.accept 0#32).withInputs [.engine]) (.inr rfl) rfl rfl hraced
  refine ⟨_, run_two haccept (hturn.trans (nopCompletes _)), Status.word_accepted_completedDone, ?_⟩
  rw [← hp]
  rfl

/-! ### Operand writes in a row -/

/-- The state after writes of the register window that all take effect. -/
def State.writeAll (s : State) (ops : List (Slot × Word)) : State := ops.foldl (fun v e => v.writeSlot e.1 e.2) s

section
variable {ops : List (Slot × Word)} {r : Slot} {v : Word}

theorem ne_cmd_of_operand (hr : r ∈ operandSlots) : r ≠ .cmd := by
  rintro rfl
  exact absurd hr (by decide)

theorem writeSlot_status_of_operand (s : State) (hr : r ∈ operandSlots) : (s.writeSlot r v).status = s.status := by
  rcases writeSlot_control s r v with ⟨hcmd, -⟩ | ⟨-, hst, -⟩
  · exact absurd hcmd (ne_cmd_of_operand hr)
  · exact hst

/-- Operand writes leave the reset input, STATUS and the races alone. -/
theorem writeAll_frame (s : State) (hops : ∀ e ∈ ops, e.1 ∈ operandSlots) :
    (s.writeAll ops).resetAsserted = s.resetAsserted ∧ (s.writeAll ops).status = s.status ∧
      (s.writeAll ops).raced = s.raced := by
  induction ops generalizing s with
  | nil => exact ⟨rfl, rfl, rfl⟩
  | cons e ops ih =>
    rw [List.forall_mem_cons] at hops
    obtain ⟨hreset, hstatus, hraced⟩ := ih (s.writeSlot e.1 e.2) hops.2
    exact ⟨hreset.trans (State.writeSlot_resetAsserted ..), hstatus.trans (writeSlot_status_of_operand s hops.1),
      hraced.trans (State.writeSlot_raced ..)⟩

/-- A slot that no write names reads as before. -/
theorem readSlot_writeAll_of_not_mem (s : State) (hops : ∀ e ∈ ops, e.1 ∈ operandSlots)
    (hr : r ∉ ops.map Prod.fst) : (s.writeAll ops).readSlot r = s.readSlot r := by
  induction ops generalizing s with
  | nil => rfl
  | cons e ops ih =>
    rw [List.map_cons, List.mem_cons, not_or] at hr
    rw [List.forall_mem_cons] at hops
    exact (ih (s.writeSlot e.1 e.2) hops.2 hr.2).trans
      (readSlot_writeSlot_other s e.2 (ne_cmd_of_operand hops.1) hr.1)

/-- A slot that one write names reads as written. -/
theorem readSlot_writeAll_of_mem (s : State) (hops : ∀ e ∈ ops, e.1 ∈ operandSlots)
    (hnodup : (ops.map Prod.fst).Nodup) (hmem : (r, v) ∈ ops) : (s.writeAll ops).readSlot r = v := by
  induction ops generalizing s with
  | nil => cases hmem
  | cons e ops ih =>
    rw [List.map_cons, List.nodup_cons] at hnodup
    rw [List.forall_mem_cons] at hops
    rcases List.mem_cons.mp hmem with rfl | hmem
    · exact (readSlot_writeAll_of_not_mem (s.writeSlot r v) hops.2 hnodup.1).trans (readSlot_writeSlot_same s v hops.1)
    · exact ih (s.writeSlot e.1 e.2) hops.2 hnodup.2 hmem

/-- A command and its acceptance leave every register that the host can write as it is, but for CMD (R37, R173). -/
theorem readSlot_of_exec_accept (i : Instr) (s u : State) (w : Word) (hc : i.isCommand = true)
    (hu : exec i (s.accept w) = .next u) (hr : r ∈ operandSlots ∨ r = .irqEn) : u.readSlot r = s.readSlot r := by
  obtain ⟨_, _, _, _, _, rfl, -⟩ := exec_command_changes i (s.accept w) u hc hu
  cases r with
  | x | y | pitch | height | srcBase | srcLen | dstBase | dstLen | irqEn => rfl
  | _ => exact absurd hr (by decide)

end

/-! ### Programs -/

theorem runProgram_wait (sched : Schedule) (s : State) : runProgram [.wait] sched s = runWait sched s := by
  change (runWait sched s).andThen (runProgram []) = _
  cases runWait sched s <;> rfl

/-- Operand writes on an idle machine all take effect, whenever the engine has its turns. -/
theorem runProgram_writes (ops : List (Slot × Word)) (hops : ∀ e ∈ ops, e.1 ∈ operandSlots) (ls : List Line)
    (sched : Schedule) (s : State) (hr : s.resetAsserted = false) (hb : s.status.busy = false) :
    runProgram (ops.map (fun e => .wr e.1 e.2) ++ ls) sched (s.withInputs []) =
      runProgram ls (sched.drop ops.length) ((s.writeAll ops).withInputs []) := by
  induction ops generalizing sched s with
  | nil => rfl
  | cons e ops ih =>
    rw [List.forall_mem_cons] at hops
    have hwrite : (Line.wr e.1 e.2).run sched (s.withInputs []) =
        .next ((s.writeSlot e.1 e.2).withInputs [], sched.tail) := by
      rw [← writeSlot_withInputs]
      exact runOperation_write e.1 e.2 sched (s.withInputs []) hr hb
    have hbusy : (s.writeSlot e.1 e.2).status.busy = false := by rw [writeSlot_status_of_operand s hops.1, hb]
    rw [List.map_cons, List.cons_append, runProgram, hwrite, HostResult.andThen_next,
      ih hops.2 _ _ ((State.writeSlot_resetAsserted ..).trans hr) hbusy, List.drop_tail, List.length_cons]
    rfl

/-- A command written on an idle machine runs in the state that accepted it, and the WAIT after it ends at the first read
after the engine's turn (R174, R177). -/
theorem runProgram_command {line : Line} {w : Word} (hline : line.run = runOperation (writeEvent .cmd w))
    (sched : Schedule) (s u : State) (hr : s.resetAsserted = false) (hb : s.status.busy = false) (hraced : s.raced = [])
    (hu : exec (decodeCommand w) (s.accept w) = .next u) :
    ∃ rest, runProgram [line, .wait] sched (s.withInputs []) =
      .next ({ u with inputs := [], readData := u.readSlot .status }, rest) := by
  have haccept : line.run sched (s.withInputs []) = .next ((s.accept w).withInputs [], sched.tail) := by
    rw [hline]
    exact runOperation_write .cmd w sched (s.withInputs []) hr hb
  have hturn : step ((s.accept w).withInputs []) = .next (u.withInputs []) :=
    (step_of_engineTurn_unraced (s := (s.accept w).withInputs []) (.inl ⟨rfl, rfl⟩) rfl rfl hraced).trans
      (exec_command_withInputs _ _ _ (decodeCommand_isCommand w) hu [])
  rw [runProgram, haccept, HostResult.andThen_next, runProgram_wait,
    runWait_busy _ ((s.accept w).withInputs []) (u.withInputs []) hr rfl hturn]
  exact ⟨_, rfl⟩

/-! ### Pseudo-instructions -/

/-- The operand registers of a pseudo-instruction with their values, in the order of its writes (R176). -/
def Pseudo.operands : Pseudo → List (Slot × Word)
  | .xlate x y pitch _ => [(.x, x), (.y, y), (.pitch, pitch)]
  | .detile src slen dst dlen pitch height _ =>
    [(.srcBase, src), (.srcLen, slen), (.dstBase, dst), (.dstLen, dlen), (.pitch, pitch), (.height, height)]
  | .copy src slen dst dlen => [(.srcBase, src), (.srcLen, slen), (.dstBase, dst), (.dstLen, dlen)]
  | .swap dst dlen => [(.dstBase, dst), (.dstLen, dlen)]
  | .nop => []

/-- The line of a pseudo-instruction that writes CMD (R176). -/
def Pseudo.commandLine : Pseudo → Line
  | .xlate _ _ _ l => .cmdL .xlate l
  | .detile _ _ _ _ _ _ l => .cmdL .detile l
  | .copy _ _ _ _ => .cmd .copy
  | .swap _ _ => .cmd .swap
  | .nop => .cmd .nop

/-- The command word of a pseudo-instruction (R90). -/
def Pseudo.word : Pseudo → Word
  | .xlate _ _ _ l => if l = .three then 0x00000031#32 else 0x00000041#32
  | .detile _ _ _ _ _ _ l => if l = .three then 0x00000032#32 else 0x00000042#32
  | .copy _ _ _ _ => 0x00000003#32
  | .swap _ _ => 0x00000004#32
  | .nop => 0x00000000#32

section
variable (p : Pseudo)

theorem Pseudo.lines_eq : p.lines = p.operands.map (fun e => .wr e.1 e.2) ++ [p.commandLine, .wait] := by
  cases p <;> rfl

theorem Pseudo.run_commandLine : p.commandLine.run = runOperation (writeEvent .cmd p.word) := by
  cases p with
  | xlate x y pitch l | detile src slen dst dlen pitch height l => cases l <;> rfl
  | copy src slen dst dlen | swap dst dlen | nop => rfl

theorem Pseudo.operands_slots : ∀ e ∈ p.operands, e.1 ∈ operandSlots := by
  cases p <;> simp [Pseudo.operands, operandSlots]

/-- No pseudo-instruction writes a register twice. -/
theorem Pseudo.operands_nodup : (p.operands.map Prod.fst).Nodup := by
  cases p <;> simp [Pseudo.operands]

/-- A program of operations runs the same whatever events wait: the first operation sets them aside. -/
theorem Pseudo.runProgram_withInputs (sched : Schedule) (s : State) :
    runProgram p.lines sched s = runProgram p.lines sched (s.withInputs []) := by
  cases p <;> rfl

/-- A pseudo-instruction on an idle machine runs its command on its operands (R176). -/
theorem Pseudo.runProgram_lines (sched : Schedule) (s u : State) (hr : s.resetAsserted = false)
    (hb : s.status.busy = false) (hraced : s.raced = [])
    (hu : exec (decodeCommand p.word) ((s.writeAll p.operands).accept p.word) = .next u) :
    ∃ rest, runProgram p.lines sched s = .next ({ u with inputs := [], readData := u.readSlot .status }, rest) := by
  obtain ⟨hreset, hstatus, hraces⟩ := writeAll_frame s p.operands_slots
  rw [p.runProgram_withInputs, p.lines_eq, runProgram_writes p.operands p.operands_slots _ sched s hr hb]
  exact runProgram_command p.run_commandLine _ _ u (hreset.trans hr) (by rw [hstatus, hb]) (hraces.trans hraced) hu

end

/-- Settles O56: the operand writes and the command word take effect one after the other, and the command keeps them. -/
theorem pseudoInstructionsRunToCompletion : Obligations.PseudoInstructionsRunToCompletion := by
  refine ⟨fun p sched s hr hb hraced => ?_, fun sched s hr hb => ?_, fun sched s c hr hb hc => ?_⟩
  · have hcmd := decodeCommand_isCommand p.word
    obtain ⟨u, hu⟩ := engineNeverLeavesBuf _ ((s.writeAll p.operands).accept p.word) hcmd
    obtain ⟨rest, hrun⟩ := p.runProgram_lines sched s u hr hb hraced hu
    obtain ⟨hidle, hdrop, hend⟩ := exec_command_status _ _ _ hcmd hu
    have hword : u.cmd = p.word := by
      obtain ⟨_, _, _, _, _, rfl, -⟩ := exec_command_changes _ _ _ hcmd hu
      rfl
    have hread : ∀ r, r ∈ operandSlots ∨ r = .irqEn →
        State.readSlot { u with inputs := [], readData := u.readSlot .status } r = (s.writeAll p.operands).readSlot r :=
      fun r hslot => (readSlot_of_hostSide u r _ _).trans (readSlot_of_exec_accept _ _ u _ hcmd hu hslot)
    refine ⟨_, u, rest, hrun, hu, rfl, fun e he => ?_, fun r hmem hnot => ?_, hword, hidle, hdrop, hend⟩
    · rw [hread _ (.inl (p.operands_slots e he))]
      exact readSlot_writeAll_of_mem s p.operands_slots p.operands_nodup he
    · have hslot := (List.mem_append (s := operandSlots) (t := [.irqEn])).mp hmem
      rw [hread r (hslot.imp_right List.mem_singleton.mp)]
      exact readSlot_writeAll_of_not_mem s p.operands_slots hnot
  · rw [runProgram_wait, runWait_idle sched s hr hb]
  · rw [runProgram_wait]
    exact ⟨(engineTurn_ends _ _ hc).1, runWait_busy sched s c hr hb hc⟩

end Sys2Proof.Machine

/-! PROOFS. The host sequence family (45_host_sequence.md): the mip walk, the format catalog, what a run of host actions ends
with, and how a conversion ends. -/

namespace Sys2Proof.Machine

/-! ### The mip walk -/

/-- The payload length of level `i` (R207, R209). -/
def levelLen (bpp width height i : Nat) : Nat :=
  (levelAt bpp width height i 0).len

/-- The payload offset of level `k`: the lengths of the levels before it together (R210). -/
def levelOff (bpp width height k : Nat) : Nat :=
  ((List.range k).map (levelLen bpp width height)).sum

section
variable (bpp width height payload n i off : Nat)

/-- The length of a level in numbers, from its halved dimensions (R207, R209). -/
theorem levelLen_eq :
    levelLen bpp width height i =
      (max 1 (width / 2 ^ i) + 3) / 4 * ((max 1 (height / 2 ^ i) + 3) / 4) * bpp := by
  simp only [levelLen, levelAt, blocksAcross, levelDimension, Nat.shiftRight_eq_div_pow]

theorem levelOff_succ (k : Nat) :
    levelOff bpp width height (k + 1) = levelOff bpp width height k + levelLen bpp width height k := by
  simp [levelOff, List.range_succ]

variable {bpp width height payload n i off}

/-- The walk stops before a level that does not fit (R211). -/
theorem levelsFrom_of_not_fits (h : payload < off + levelLen bpp width height i) :
    levelsFrom bpp width height payload (n + 1) i off = [] :=
  if_pos h

/-- The walk processes a level that fits, and goes on where it ends (R210). -/
theorem levelsFrom_of_fits (h : off + levelLen bpp width height i ≤ payload) :
    levelsFrom bpp width height payload (n + 1) i off =
      levelAt bpp width height i off ::
        levelsFrom bpp width height payload n (i + 1) (off + levelLen bpp width height i) :=
  if_neg (Nat.not_lt.mpr h)

variable (bpp width height payload n i off)

theorem levelsFrom_length_le : (levelsFrom bpp width height payload n i off).length ≤ n := by
  induction n generalizing i off with
  | zero => exact Nat.le_refl 0
  | succ n ih =>
    rcases Nat.lt_or_ge payload (off + levelLen bpp width height i) with hout | hfits
    · rw [levelsFrom_of_not_fits hout]
      exact Nat.zero_le _
    · rw [levelsFrom_of_fits hfits]
      exact Nat.succ_le_succ (ih ..)

/-- Each level of a walk that begins at its level's own offset lies at its own offset, inside the payload (R210, R211). -/
theorem levelsFrom_getElem? (k : Nat) (lv : Level)
    (h : (levelsFrom bpp width height payload n i (levelOff bpp width height i))[k]? = some lv) :
    lv = levelAt bpp width height (i + k) (levelOff bpp width height (i + k)) ∧
      levelOff bpp width height (i + k) + levelLen bpp width height (i + k) ≤ payload := by
  induction n generalizing i k with
  | zero => cases h
  | succ n ih =>
    rcases Nat.lt_or_ge payload (levelOff bpp width height i + levelLen bpp width height i) with hout | hfits
    · rw [levelsFrom_of_not_fits hout] at h
      cases h
    · rw [levelsFrom_of_fits hfits, ← levelOff_succ] at h
      cases k with
      | zero => exact ⟨(Option.some.inj h).symm, hfits⟩
      | succ k =>
        rw [show i + (k + 1) = i + 1 + k by omega]
        exact ih (i + 1) k h

/-- The walk ends only with its count, or before the first level that does not fit (R211). -/
theorem levelsFrom_end (len : Nat)
    (hlen : (levelsFrom bpp width height payload n i (levelOff bpp width height i)).length = len) :
    len = n ∨ payload < levelOff bpp width height (i + len) + levelLen bpp width height (i + len) := by
  induction n generalizing i len with
  | zero => exact .inl hlen.symm
  | succ n ih =>
    rcases Nat.lt_or_ge payload (levelOff bpp width height i + levelLen bpp width height i) with hout | hfits
    · rw [levelsFrom_of_not_fits hout] at hlen
      subst hlen
      exact .inr hout
    · rw [levelsFrom_of_fits hfits, ← levelOff_succ, List.length_cons] at hlen
      cases len with
      | zero => cases hlen
      | succ len =>
        rw [show i + (len + 1) = i + 1 + len by omega, Nat.add_right_cancel_iff]
        exact ih (i + 1) len (Nat.succ.inj hlen)

end

/-- Settles O60: each level begins where the walk's running offset stands, which is the sum of the lengths so far. -/
theorem levelsLieContiguously : Obligations.LevelsLieContiguously := by
  intro bpp file levels len off
  have hlen : levelLen bpp (headerWidth file) (headerHeight file) = len := funext (levelLen_eq bpp _ _)
  have hoff : levelOff bpp (headerWidth file) (headerHeight file) = off := by
    funext k
    rw [levelOff, hlen]
  rw [← hoff, ← hlen]
  refine ⟨levelsFrom_length_le .., fun k lv hk => ?_, ?_⟩
  · obtain ⟨rfl, hfits⟩ := levelsFrom_getElem? _ _ _ _ _ 0 k lv hk
    rw [Nat.zero_add] at hfits ⊢
    exact ⟨rfl, rfl, hfits⟩
  · have hend := levelsFrom_end bpp (headerWidth file) (headerHeight file) (file.length - headerLength)
      (headerMips file) 0 levels.length rfl
    rwa [Nat.zero_add] at hend

/-! ### The format catalog -/

/-- No two rows of the catalog have one tag, so a row is found by its tag (R204). -/
theorem formatOf_tag {fmt : Format} (h : fmt ∈ catalog) : formatOf fmt.tag = some fmt := by
  have hall : ∀ f ∈ catalog, formatOf f.tag = some f := by decide
  exact hall fmt h

theorem formatOf_eq_none {tag : List Byte} (h : tag ∉ supportedTags) : formatOf tag = none := by
  refine List.find?_eq_none.mpr fun fmt hfmt heq => h ?_
  exact of_decide_eq_true heq ▸ List.mem_map_of_mem hfmt

/-! ### Host actions -/

/-- A run of host actions ends without an error or with a host fault. -/
theorem runActions_cases (as : List HostAction) (sched : Schedule) (s : State) :
    ∃ t, runActions as sched s = (t, none) ∨ runActions as sched s = (t, some .hostFault) := by
  induction as generalizing sched s with
  | nil => exact ⟨s, .inl rfl⟩
  | cons a as ih =>
    rw [runActions]
    split
    · split
      · exact ⟨_, .inr rfl⟩
      · exact ih ..
    · exact ⟨s, .inr rfl⟩
    · exact ⟨s, .inr rfl⟩

/-- In a run that ends without an error the first action answers a machine, on which the others run. -/
theorem runActions_cons_ok (a : HostAction) (as : List HostAction) (sched : Schedule) (s t : State)
    (h : runActions (a :: as) sched s = (t, none)) :
    ∃ u rest, a.run sched s = .next (u, rest) ∧ runActions as rest u = (t, none) := by
  rw [runActions] at h
  split at h
  next u rest hrun =>
    split at h
    · cases h
    · exact ⟨u, rest, hrun, h⟩
  · cases h
  · cases h

/-- The machine that a run without an error leaves is the one that its last action leaves. -/
theorem runActions_concat_ok (as : List HostAction) (a : HostAction) (sched : Schedule) (s t : State)
    (h : runActions (as ++ [a]) sched s = (t, none)) :
    ∃ u before rest, a.run before u = .next (t, rest) := by
  induction as generalizing sched s with
  | nil =>
    obtain ⟨u, rest, hrun, hend⟩ := runActions_cons_ok a [] sched s t h
    obtain rfl : u = t := congrArg Prod.fst hend
    exact ⟨s, sched, rest, hrun⟩
  | cons b as ih =>
    obtain ⟨u, rest, -, hrest⟩ := runActions_cons_ok b (as ++ [a]) sched s t h
    exact ih rest u hrest

/-- An operation ends with the step of its event, whether or not the engine had the turn before it. -/
theorem runOperation_last_step (e : Input) (sched rest : Schedule) (s t : State)
    (h : runOperation e sched s = .next (t, rest)) : ∃ c, c.inputs = [e] ∧ step c = .next t := by
  rcases (runOperation_cases e sched rest s t h).2 with ⟨-, ht⟩ | ⟨-, c, hc, ht⟩
  · exact ⟨_, rfl, ht⟩
  · exact ⟨c, (engineTurn_ends _ _ hc).2.1, ht⟩

/-- A host read of `n` bytes gives `n` bytes. -/
theorem runOperation_bufRead_length (a n : Nat) (sched rest : Schedule) (s t : State)
    (h : runOperation (.bufRead a n) sched s = .next (t, rest)) : t.hostBytes.length = n := by
  obtain ⟨c, hi, ht⟩ := runOperation_last_step _ _ _ _ _ h
  rw [step_of_bufRead hi, hostRead] at ht
  split at ht
  · cases ht
    exact hostReadBytes_length ..
  · cases ht

/-- The host's last action reads the output payload, as long as the input's (R214). -/
theorem conversionActions_hostBytes_length (h : HostParams) (bpp : Nat) (f : HostFile) (sched : Schedule) (s t : State)
    (hrun : runActions (conversionActions h bpp f) sched s = (t, none)) :
    t.hostBytes.length = f.bytes.length - headerLength := by
  obtain ⟨u, before, rest, hread⟩ := runActions_concat_ok _ _ _ _ _ hrun
  rw [runOperation_bufRead_length _ _ _ _ _ _ hread, List.length_drop]

/-! ### How a conversion ends -/

/-- Settles O57: the check of the flags is the conversion's first. -/
theorem bothSkipFlagsAreRejected : Obligations.BothSkipFlagsAreRejected := by
  intro h s f hdetile hswap
  rw [convert, if_pos (by rw [hdetile, hswap]; rfl)]

section
variable {h : HostParams} {s : State} {f : HostFile} (hflags : ¬(f.skipDetile = true ∧ f.skipSwap = true))
include hflags

theorem convert_of_short (hshort : f.bytes.length < headerLength) :
    convert h s f = { warning := false, outcome := .error .malformedContainer, machine := s } := by
  rw [convert, if_neg (by rwa [Bool.and_eq_true]), if_pos hshort]

theorem convert_of_unknown_tag (hlen : headerLength ≤ f.bytes.length) (htag : formatOf (headerTag f.bytes) = none) :
    convert h s f =
      { warning := false, outcome := .error (.unsupportedFormat supportedTags), machine := s } := by
  rw [convert, if_neg (by rwa [Bool.and_eq_true]), if_neg (Nat.not_lt.mpr hlen), htag]

/-- A file with a tag of the catalog gets the format's warning and ends with a host fault, or with its header and the bytes
that the host's last action read (R205, R213, R215). -/
theorem convert_of_format {fmt : Format} (hlen : headerLength ≤ f.bytes.length)
    (htag : formatOf (headerTag f.bytes) = some fmt) :
    (convert h s f).warning = fmt.experimental ∧
      ((convert h s f).outcome = .error .hostFault ∨
        ∃ t, runActions (conversionActions h fmt.bytesPerBlock f) f.schedule s = (t, none) ∧
          (convert h s f).outcome = .ok (f.bytes.take headerLength ++ t.hostBytes)) := by
  rw [convert, if_neg (by rwa [Bool.and_eq_true]), if_neg (Nat.not_lt.mpr hlen), htag]
  obtain ⟨t, hrun | hrun⟩ := runActions_cases (conversionActions h fmt.bytesPerBlock f) f.schedule s
  · simp [hrun]
  · simp [hrun]

end

/-- Only a file with a header and a tag of the catalog is converted; its output is its header and as many bytes as its
payload has. -/
theorem convert_ok (h : HostParams) (s : State) (f : HostFile) (out : List Byte)
    (hok : (convert h s f).outcome = .ok out) :
    headerLength ≤ f.bytes.length ∧
      ∃ payload, payload.length = f.bytes.length - headerLength ∧ out = f.bytes.take headerLength ++ payload := by
  by_cases hflags : f.skipDetile = true ∧ f.skipSwap = true
  · rw [bothSkipFlagsAreRejected h s f hflags.1 hflags.2] at hok
    cases hok
  rcases Nat.lt_or_ge f.bytes.length headerLength with hshort | hlen
  · rw [convert_of_short hflags hshort] at hok
    cases hok
  cases htag : formatOf (headerTag f.bytes) with
  | none =>
    rw [convert_of_unknown_tag hflags hlen htag] at hok
    cases hok
  | some fmt =>
    rcases (convert_of_format hflags hlen htag).2 with hfault | ⟨t, hrun, hout⟩
    · rw [hfault] at hok
      cases hok
    · rw [hout] at hok
      cases hok
      exact ⟨hlen, _, conversionActions_hostBytes_length _ _ _ _ _ _ hrun, rfl⟩

/-- Settles O58: the catalog's rows are told apart by their tags, and the checks come in R216 to R218's order. -/
theorem hostErrorsComeInTheirOrder : Obligations.HostErrorsComeInTheirOrder := by
  unfold Obligations.HostErrorsComeInTheirOrder
  intro tags
  have hrows : catalog.map (fun fmt => (fmt.tag, fmt.bytesPerBlock, fmt.experimental)) = tags := rfl
  have hsupported : supportedTags = tags.map Prod.fst := rfl
  refine ⟨hrows, fun h s f hflags => ⟨fun hshort => convert_of_short hflags hshort, fun hlen htag => ?_,
    fun bpp experimental hlen hmem => ?_⟩⟩
  · rw [← hsupported] at htag ⊢
    exact convert_of_unknown_tag hflags hlen (formatOf_eq_none htag)
  · rw [← hrows] at hmem
    obtain ⟨fmt, hfmt, hrow⟩ := List.mem_map.mp hmem
    obtain ⟨htag, -, rfl⟩ : fmt.tag = headerTag f.bytes ∧ fmt.bytesPerBlock = bpp ∧ fmt.experimental = experimental := by
      simpa only [headerTag, Prod.mk.injEq] using hrow
    obtain ⟨hwarning, hend⟩ :=
      convert_of_format (h := h) (s := s) hflags hlen (htag ▸ formatOf_tag hfmt)
    exact ⟨hwarning, hend.imp_right fun ⟨t, _, hout⟩ => ⟨_, hout⟩⟩

/-- Settles O59: the output is the header and the host's last read, which is as long as the payload. -/
theorem conversionKeepsHeaderAndLength : Obligations.ConversionKeepsHeaderAndLength := by
  intro h s f out hok
  obtain ⟨hlen, payload, hpayload, rfl⟩ := convert_ok h s f out hok
  have hheader : (f.bytes.take headerLength).length = headerLength := List.length_take_of_le hlen
  refine ⟨List.take_left' hheader, ?_⟩
  rw [List.length_append, hheader, hpayload, Nat.add_sub_cancel' hlen]

end Sys2Proof.Machine

/-! PROOFS. The exceptions family (60_exceptions.md): the checks of a command word in numbers and in R253's order, and what a
command that fails one of them changes. -/

namespace Sys2Proof.Machine

/-! ### The checks of a command word, as numbers -/

/-- The number of a check's error, with 0 for a check that passes (R251). -/
def errorNumber : Option ErrCode → BitVec 4
  | none => 0#4
  | some e => e.code

theorem firstError_cons (c : Option ErrCode) (rest : List (Option ErrCode)) :
    firstError (c :: rest) = c.or (firstError rest) := by
  cases c <;> rfl

/-- A check that begins with a test comes before the checks after it test by test. -/
theorem ite_some_or (p : Prop) [Decidable p] (e : ErrCode) (c rest : Option ErrCode) :
    (if p then some e else c).or rest = if p then some e else c.or rest := by
  split <;> rfl

theorem busCheck_eq_ite (size : Nat) (r : Region) :
    busCheck size r = if size < r.base + r.len then some .bus else none := by
  split
  next hout => exact busCheck_some size r hout
  next hin => exact (busCheck_none_iff size r).mpr (not_lt.mp hin)

theorem overlapCheck_eq_ite (src dst : Region) :
    overlapCheck src dst =
      if src.len ≠ 0 ∧ dst.len ≠ 0 ∧ src.base < dst.base + dst.len ∧ dst.base < src.base + src.len then some .overlap
      else none := by
  simp only [overlapCheck, overlaps_iff]

/-- The decode error of a command word (R85), one test after another. -/
theorem decodeError_decodeCommand (w : Word) :
    decodeError (decodeCommand w) =
      if 4 < w.toNat % 16 then some .illegalOp
      else if w.toNat / 256 ≠ 0 then some .badField
      else if (w.toNat % 16 = 1 ∨ w.toNat % 16 = 2) ∧ w.toNat / 16 % 16 ≠ 3 ∧ w.toNat / 16 % 16 ≠ 4 then some .badField
      else if w.toNat % 16 ≠ 1 ∧ w.toNat % 16 ≠ 2 ∧ w.toNat / 16 % 16 ≠ 0 then some .badField
      else none := by
  rw [(decodeErrorsInTheirOrder w).1]
  by_cases hclassed : w.toNat % 16 = 1 ∨ w.toNat % 16 = 2
  · have hplain : ¬(w.toNat % 16 ≠ 1 ∧ w.toNat % 16 ≠ 2 ∧ w.toNat / 16 % 16 ≠ 0) := by omega
    rw [if_pos hclassed, if_neg hplain]
    simp only [hclassed, true_and, ← not_or, ite_not]
  · obtain ⟨h1, h2⟩ := not_or.mp hclassed
    simp [h1, h2]

/-- The four checks of a command word in their order, those of the regions by its OP (R253). -/
theorem commandCheck_decodeCommand (s : State) (w : Word) :
    commandCheck (decodeCommand w) s =
      firstError [decodeError (decodeCommand w),
        if w.toNat % 16 = 2 ∨ w.toNat % 16 = 3 then busCheck s.memSize s.srcRegion else none,
        if w.toNat % 16 = 2 ∨ w.toNat % 16 = 3 ∨ w.toNat % 16 = 4 then busCheck s.memSize s.dstRegion else none,
        if w.toNat % 16 = 2 ∨ w.toNat % 16 = 3 then overlapCheck s.srcRegion s.dstRegion else none] := by
  have hop := opField_toNat w
  rcases decodeCommand_cases w with ⟨ho, hd⟩ | ⟨ho, hd⟩ | ⟨ho, hd⟩ | ⟨ho, hd⟩ | ⟨ho, hd⟩ | ⟨ho, hd⟩
  · simp [hd, commandCheck, decodeError, firstError]
  all_goals
    rw [ho] at hop
    simp [hd, ← hop, commandCheck, firstError_cons, firstError]

/-! ### How a command ends -/

/-- A command whose checks pass ends with DONE (R254). -/
theorem exec_status_of_commandCheck_none (i : Instr) (s : State) (hc : i.isCommand = true)
    (hn : commandCheck i s = none) : ∃ t, exec i s = .next t ∧ t.status = s.status.completedDone := by
  obtain ⟨t, hx⟩ := exec_answers_of_commandCheck_none i s hc hn
  rcases exec_command_cases i s t hc hx with ⟨e, he, -⟩ | ⟨-, m, r, ri, k, rfl⟩
  · cases hn.symm.trans he
  · exact ⟨_, hx, rfl⟩

/-- Settles O14: the number of the first error is R253's, and by it the command ends with the error or with DONE. -/
theorem checksReportTheFirstFailure : Obligations.ChecksReportTheFirstFailure := by
  intro s w op sb sl db dl code
  have hcmd := decodeCommand_isCommand w
  have hcode : errorNumber (commandCheck (decodeCommand w) s) = code := by
    -- R253's chain on both sides: of error codes on the left, of their numbers in `code`
    simp only [commandCheck_decodeCommand, decodeError_decodeCommand, busCheck_eq_ite, overlapCheck_eq_ite, ← ite_and,
      firstError_cons, firstError, ite_some_or, Option.none_or, Option.or_none, apply_ite errorNumber]
    rfl
  rw [← hcode]
  cases hck : commandCheck (decodeCommand w) s with
  | none => exact ⟨fun h => absurd rfl h, fun _ => exec_status_of_commandCheck_none _ s hcmd hck⟩
  | some e =>
    exact ⟨fun _ => exec_of_commandCheck_some _ s e hcmd hck, fun h => absurd h (ErrCode.code_range e).1⟩

/-- A command that leaves ERR set where it was clear failed a check (R252). -/
theorem exec_command_of_err (i : Instr) (s t : State) (hc : i.isCommand = true) (hs : s.status.err = false)
    (h : exec i s = .next t) (ht : t.status.err = true) : ∃ e, t = s.completeErr e := by
  rcases exec_command_cases i s t hc h with ⟨e, -, he⟩ | ⟨-, m, r, ri, k, rfl⟩
  · exact ⟨e, he⟩
  · cases hs.symm.trans ht

/-- Settles O15: the command fails a check, and acceptance before it changes CMD, STATUS and PENDING only. -/
theorem failedCommandsChangeStatusOnly : Obligations.FailedCommandsChangeStatusOnly := by
  refine ⟨fun i s t hc hs h ht => ?_, fun s t u w hr hb hw h hu => ?_⟩
  · obtain ⟨e, rfl⟩ := exec_command_of_err i s t hc hs h ht
    rfl
  · rcases (execWrreg_next _ _ _ _ hw).2 with ⟨hbusy, -⟩ | ⟨-, rfl⟩
    · cases hb.symm.trans hbusy
    · obtain ⟨e, rfl⟩ := exec_command_of_err _ (s.accept w) u (decodeCommand_isCommand w) rfl h hu
      rfl

end Sys2Proof.Machine

/-! PROOFS. The reset and hazards family (70_reset_and_hazards.md): what reset leaves, a command right after it, the
completion of every accepted command, and the bytes that a reset or a race leaves unspecified. -/

namespace Sys2Proof.Machine

/-! ### Reset -/

/-- Settles O40: the state after reset is reachable. -/
theorem resetStateMeetsTheInvariant : Obligations.ResetStateMeetsTheInvariant :=
  (Reachable.reset [] Config.defaultTranslator [] rfl rfl).inv

/-- Settles O39: the level of the reset input is the first test of both. -/
theorem busDuringResetIsRefused : Obligations.BusDuringResetIsRefused :=
  fun _ _ _ hr => ⟨if_pos hr, if_pos hr⟩

theorem Status.word_reset : Status.reset.word = 0#32 := by decide

/-- Every slot of the register window reads 0 after a reset, whatever the level of the reset input (R21, R300). -/
theorem readSlot_resetRegisters (s : State) (level : Bool) (rs : List Nat) (r : Slot) :
    State.readSlot { s.resetRegisters with resetAsserted := level, raced := rs } r = 0#32 := by
  cases r with
  | status => exact Status.word_reset
  | _ => rfl

theorem assertReset_mem (s : State) : s.assertReset.mem = (s.drawAll (abortedBytes s)).mem := rfl

/-- An assertion leaves the events to come. -/
theorem assertReset_inputs (s : State) : s.assertReset.inputs = s.inputs := by
  obtain ⟨m, n, h⟩ := State.drawAll_frame s (abortedBytes s)
  rw [State.assertReset, h]
  rfl

/-- A reset of the idle machine leaves BUF as it is (R302). -/
theorem assertReset_mem_of_idle (s : State) (hb : s.status.busy = false) : s.assertReset.mem = s.mem := by
  by_contra hne
  obtain ⟨w, hbusy, -⟩ := destination_of_assertReset_mem_ne s hne
  cases hb.symm.trans hbusy

/-- A release of the asserted reset takes the registers to their reset values once more (R300, R303). -/
theorem releaseReset_of_asserted (s : State) (hr : s.resetAsserted = true) :
    s.releaseReset = { s.resetRegisters with resetAsserted := false } :=
  if_pos hr

/-- Settles O51: both events end with the registers at their reset values. -/
theorem resetClearsEveryRegister : Obligations.ResetClearsEveryRegister := by
  intro s t u rest rest' hi ht
  obtain rfl := Host.Outcome.next.inj ((step_of_resetAssert hi).symm.trans ht)
  refine ⟨readSlot_resetRegisters _ _ _, rfl, rfl, rfl, assertReset_inputs _, assertReset_mem_of_idle (s.withInputs rest),
    fun hi' hu => ?_⟩
  obtain rfl := Host.Outcome.next.inj ((step_of_resetRelease hi').symm.trans hu)
  rw [releaseReset_of_asserted _ rfl]
  exact ⟨readSlot_resetRegisters _ _ _, rfl, rfl, rfl, rfl⟩

/-- What a reset in the flight of a command word leaves unspecified: the bytes of BUF in the destination region, where the
command has one (R301, I5). -/
theorem mem_abortedBytes_of_pending {s : State} {w : Word} (hb : s.status.busy = true) (hp : s.pending = some w) (a : Nat) :
    a ∈ abortedBytes s ↔
      (w.toNat % 16 = 2 ∨ w.toNat % 16 = 3 ∨ w.toNat % 16 = 4) ∧
        (s.dstBase.toNat ≤ a ∧ a < s.dstBase.toNat + s.dstLen.toNat) ∧ a < s.memSize := by
  have hf : s.inFlight = some (decodeCommand w) := (inFlight_eq_some_iff s _).mpr ⟨hb, w, hp, rfl⟩
  have hdest : (∃ i, s.inFlight = some i ∧ destinationOf i s = some s.dstRegion) ↔
      w.toNat % 16 = 2 ∨ w.toNat % 16 = 3 ∨ w.toNat % 16 = 4 := by
    simp only [hf, Option.some.injEq, exists_eq_left', destinationOf_decodeCommand, ite_eq_left_iff, reduceCtorEq,
      imp_false, not_not]
  rw [mem_abortedBytes, hdest, Region.contains_iff, State.dstRegion]

/-- Settles O52: a reset draws the aborted bytes and leaves every other byte alone. -/
theorem resetInFlightFreesTheDestination : Obligations.ResetInFlightFreesTheDestination := by
  intro s t w rest hi hb hp ht op inDst
  obtain rfl := Host.Outcome.next.inj ((step_of_resetAssert hi).symm.trans ht)
  have haborted := mem_abortedBytes_of_pending (s := s.withInputs rest) hb hp
  refine ⟨fun h2 h3 h4 => ?_, fun a ha => ?_, fun hop a ha hin => ?_⟩
  · have hnone : abortedBytes (s.withInputs rest) = [] := by
      refine List.eq_nil_iff_forall_not_mem.mpr fun a ha => ?_
      exact ((haborted a).mp ha).1.elim h2 fun h => h.elim h3 h4
    rw [assertReset_mem, hnone]
    rfl
  · exact State.byte_drawAll_other (s.withInputs rest) _ a fun hmem => ha ((haborted a).mp hmem).2.1
  · exact State.byte_drawAll_mem (s.withInputs rest) _ a ((haborted a).mpr ⟨hop, ha, hin⟩)

/-! ### A command right after reset -/

/-- A legal word passes its checks when both regions are empty at address 0 (R304). -/
theorem commandCheck_of_zero_regions (s : State) (w : Word) (hd : decodeError (decodeCommand w) = none)
    (hsrc : s.srcRegion = ⟨0, 0⟩) (hdst : s.dstRegion = ⟨0, 0⟩) : commandCheck (decodeCommand w) s = none := by
  have hbus : busCheck s.memSize ⟨0, 0⟩ = none := (busCheck_none_iff ..).mpr (Nat.zero_le _)
  have hover : overlapCheck ⟨0, 0⟩ ⟨0, 0⟩ = none := rfl
  simp [commandCheck_decodeCommand, hd, hsrc, hdst, hbus, hover, firstError]

theorem tiledOffset_zero {l : BitVec 4} (hl : l = 3#4 ∨ l = 4#4) : tiledOffset 0#32 0#32 0#32 l.toNat = 0#32 := by
  rcases hl with rfl | rfl <;> decide

/-- The state in which a command issued right after reset runs, whatever BUF holds. -/
def firstCommand (m : Memory) (w : Word) : State := { State.reset with mem := m }.accept w

/-- The default translator gives 0 for operands of 0 (R102, R304). -/
theorem tiled_firstCommand (m : Memory) (w : Word) {l : BitVec 4} (hl : l = 3#4 ∨ l = 4#4) :
    (firstCommand m w).tiled (firstCommand m w).x (firstCommand m w).y (firstCommand m w).pitch l.toNat = 0#32 :=
  tiledOffset_zero hl

/-- With every operand 0 a command that passes its checks has no effect but its completion (R304). -/
theorem exec_firstCommand (i : Instr) (m : Memory) (w : Word) (hc : i.isCommand = true)
    (hcheck : commandCheck i (firstCommand m w) = none) :
    exec i (firstCommand m w) = .next (firstCommand m w).completeDone := by
  cases i with
  | nop l rsvd => rw [exec, execNop, hcheck, State.runChecked_none]
  | xlate l rsvd =>
    have hl := ((commandCheck_xlate_none_iff l rsvd _).mp hcheck).2
    rw [exec, execXlate, hcheck, State.runChecked_none, State.translated, tiled_firstCommand m w hl,
      BitVec.zero_ushiftRight]
    rfl
  | detile l rsvd => rw [exec, execDetile_ok l rsvd _ hcheck]; rfl
  | copy l rsvd => rw [exec, execCopy_ok l rsvd _ hcheck]; rfl
  | swap l rsvd =>
    have hpairs : (firstCommand m w).dstLen.toNat / 2 = 0 := by simp [firstCommand, State.reset]
    rw [exec, execSwap, hcheck, State.runChecked_none, hpairs]
    rfl
  | reservedOp op l rsvd => cases hcheck
  | rdreg r | wrreg r v => cases hc

/-- Settles O53: the checks pass, and the completion moves nothing. -/
theorem commandsRightAfterResetMoveNothing : Obligations.CommandsRightAfterResetMoveNothing := by
  intro m w hd
  have hcheck := commandCheck_of_zero_regions (firstCommand m w) w hd rfl rfl
  exact ⟨_, exec_firstCommand _ m w (decodeCommand_isCommand w) hcheck,
    Status.word_accepted_completedDone, rfl, rfl, rfl, rfl⟩

/-! ### Every accepted command completes -/

/-- A step uses up the event it takes (R310). -/
theorem step_inputs (s t : State) (h : step s = .next t) : t.inputs = s.inputs.tail := by
  rcases step_cases s t h with ⟨w, rest, hi, -, -, hs⟩ | ⟨rest, hi, -, rfl⟩ | ⟨header, width, data, rest, i, hi, hd, hx⟩ |
    ⟨a, bs, rest, hi, hw⟩ | ⟨a, n, rest, hi, hr⟩ | ⟨rest, hi, rfl⟩ | ⟨rest, hi, rfl⟩
  · obtain ⟨c, hc, rfl⟩ := settle_next _ _ _ _ hs
    obtain ⟨m, n, rs, hframe⟩ := settleRaces_frame (decodeCommand w) (s.withInputs rest) c
    obtain ⟨_, _, _, _, _, rfl, -⟩ := exec_command_changes _ _ _ (decodeCommand_isCommand w) hc
    rw [hframe]
    rcases hi with ⟨hi, rfl⟩ | hi <;> simp [hi]
  · rcases hi with ⟨hi, rfl⟩ | hi <;> simp [hi]
  · obtain ⟨r, rfl | rfl⟩ := decodeBus_ok _ _ _ _ hd
    · obtain ⟨-, rfl⟩ := execRdreg_next _ _ _ hx
      simp [hi]
    · obtain ⟨-, ⟨-, rfl⟩ | ⟨-, rfl⟩⟩ := execWrreg_next _ _ _ _ hx <;> simp [hi]
  · obtain ⟨-, rfl⟩ := hostWrite_next _ _ _ _ hw
    simp [hi]
  · rw [hostRead_next _ _ _ _ hr]
    simp [hi]
  · simp [assertReset_inputs, hi]
  · rcases releaseReset_cases (s.withInputs rest) with ⟨-, hs⟩ | ⟨-, hs⟩ <;> simp [hs, hi]

/-- A step that ends a flight, and is no reset, completes the command with DONE or ERR (R254). -/
theorem step_completes (s t : State) (h : step s = .next t) (hb : s.status.busy = true) (ht : t.status.busy = false)
    (hreset : ∀ e ∈ s.inputs, e ≠ .resetAssert ∧ e ≠ .resetRelease) : t.status.done = true ∨ t.status.err = true := by
  cases step_event s t h with
  | engine w rest c hi _ hp hc =>
    rw [settleRaces_status]
    exact (exec_command_status _ _ _ (decodeCommand_isCommand w) hc).2.2
  | written rest r v hr hidle => cases hb.symm.trans hidle
  | resetAssert rest hi => exact absurd rfl (hreset .resetAssert (by simp [hi])).1
  | resetRelease rest hi => exact absurd rfl (hreset .resetRelease (by simp [hi])).2
  | idle rest | read rest v hr | dropped rest hr _ | hostWritten a bs rest hi hin | hostRead rest bytes n =>
    cases hb.symm.trans ht

/-- What makes an event a defined one is MEM_SIZE and the level of the reset input. -/
theorem Input.Defined.transfer {s t : State} {e : Input} (h : e.Defined s) (hsize : t.memSize = s.memSize)
    (hr : t.resetAsserted = false) : e.Defined t := by
  cases e with
  | bus header width data => exact ⟨h.1, h.2.1, hr⟩
  | bufWrite a bs => exact le_of_le_of_eq h hsize.symm
  | bufRead a n => exact le_of_le_of_eq h hsize.symm
  | engine | resetAssert | resetRelease => trivial

theorem run_succ {s t : State} (k : Nat) (h : step s = .next t) :
    Host.Core.run Sys2Proof.core (k + 1) s = Host.Core.run Sys2Proof.core k t := by
  have h : Sys2Proof.core.step s = .next t := h
  simp only [Host.Core.run, h]

/-- Settles O44, by induction on the events waiting: a step ends the flight, or it has one event less to wait for. -/
theorem acceptedCommandCompletes : Obligations.AcceptedCommandCompletes := by
  intro s hinv hb hin
  generalize hes : s.inputs = es at hin ⊢
  induction es generalizing s with
  | nil =>
    obtain ⟨t, ht⟩ := definedEventsAlwaysStep s hinv (by simp [hes])
    have hidle : t.status.busy = false := (engineTurn_ends s t ((step_of_no_inputs hes).symm.trans ht)).1
    exact ⟨1, t, le_rfl, run_succ 0 ht, hidle, step_completes s t ht hb hidle (by simp [hes])⟩
  | cons e rest ih =>
    have hfirst : ∀ e' rest', s.inputs = e' :: rest' → e'.Defined s := fun e' rest' hi =>
      (hin e' (by simp [← hes, hi])).1
    obtain ⟨t, ht⟩ := definedEventsAlwaysStep s hinv hfirst
    obtain ⟨htinv, hsize, -⟩ := stepKeepsTheInvariant s t hinv ht
    cases htb : t.status.busy with
    | false =>
      refine ⟨1, t, by simp, run_succ 0 ht, htb, step_completes s t ht hb htb fun e' he' => (hin e' (hes ▸ he')).2⟩
    | true =>
      have hrest : t.inputs = rest := by rw [step_inputs s t ht, hes, List.tail_cons]
      obtain ⟨k, u, hk, hrun, hu⟩ := ih t htinv htb hrest fun e' he' =>
        (hin e' (List.mem_cons_of_mem e he')).imp_left fun hd => hd.transfer hsize (htinv.notReset htb)
      exact ⟨k + 1, u, Nat.succ_le_succ hk, (run_succ k ht).trans hrun, hu⟩

/-! ### The bytes that a command moves -/

theorem mem_byteMoves_copy (l : BitVec 4) (rsvd : BitVec 24) (s : State) (a b : Nat) :
    (a, b) ∈ byteMoves (.copy l rsvd) s ↔
      ∃ i, i < min s.srcLen.toNat s.dstLen.toNat ∧ a = s.dstBase.toNat + i ∧ b = s.srcBase.toNat + i := by
  simp only [byteMoves, copyTransfer, List.mem_map, List.mem_range, Prod.mk.injEq, eq_comm]

theorem mem_byteMoves_swap (l : BitVec 4) (rsvd : BitVec 24) (s : State) (a b : Nat) :
    (a, b) ∈ byteMoves (.swap l rsvd) s ↔
      (s.dstBase.toNat ≤ a ∧ a < s.dstBase.toNat + 2 * (s.dstLen.toNat / 2)) ∧ b = pairPartner s.dstBase.toNat a := by
  simp only [byteMoves, List.mem_flatMap, List.mem_range, List.mem_cons, List.not_mem_nil, or_false, Prod.mk.injEq]
  constructor
  · rintro ⟨j, hj, ⟨rfl, rfl⟩ | ⟨rfl, rfl⟩⟩
    · exact ⟨by omega, (pairPartner_first _ j).symm⟩
    · exact ⟨by omega, (pairPartner_second _ j).symm⟩
  · rintro ⟨ha, rfl⟩
    obtain ⟨j, rfl | rfl⟩ := exists_pair ha.1
    · exact ⟨j, by omega, .inl ⟨rfl, pairPartner_first _ j⟩⟩
    · exact ⟨j, by omega, .inr ⟨rfl, pairPartner_second _ j⟩⟩

theorem mem_byteMoves_detile (l : BitVec 4) (rsvd : BitVec 24) (s : State) (a b : Nat) :
    (a, b) ∈ byteMoves (.detile l rsvd) s ↔
      ∃ c : Nat × Nat, (c.1 < s.pitch.toNat ∧ c.2 < s.height.toNat) ∧ blockFits s.tiled l s c = true ∧
        ∃ i, i < bytesPerBlock l ∧ a = s.dstBase.toNat + linearBlockOffset l s c + i ∧
          b = s.srcBase.toNat + tiledBlockOffset s.tiled l s c + i := by
  simp only [byteMoves, List.mem_flatMap, List.mem_map, List.mem_range, mem_detileTransfers, Prod.mk.injEq]
  constructor
  · rintro ⟨t, ⟨c, hc, hfits, rfl⟩, i, hi, rfl, rfl⟩
    exact ⟨c, hc, hfits, i, hi, rfl, rfl⟩
  · rintro ⟨c, hc, hfits, i, hi, rfl, rfl⟩
    exact ⟨_, ⟨c, hc, hfits, rfl⟩, i, hi, rfl, rfl⟩

/-- A moved byte is made of one byte alone. -/
theorem byteMoves_source_unique {i : Instr} {s : State} {a b b' : Nat} (h : (a, b) ∈ byteMoves i s)
    (h' : (a, b') ∈ byteMoves i s) : b = b' := by
  cases i with
  | detile l rsvd =>
    obtain ⟨c, hc, -, j, hj, rfl, rfl⟩ := (mem_byteMoves_detile ..).mp h
    obtain ⟨c', hc', -, j', hj', ha, rfl⟩ := (mem_byteMoves_detile ..).mp h'
    have hw : (blockTransfer s.tiled l s c).Writes (s.dstBase.toNat + linearBlockOffset l s c + j) :=
      ⟨Nat.le_add_right _ _, Nat.add_lt_add_left hj _⟩
    have hw' : (blockTransfer s.tiled l s c').Writes (s.dstBase.toNat + linearBlockOffset l s c + j) :=
      ha ▸ ⟨Nat.le_add_right _ _, Nat.add_lt_add_left hj' _⟩
    obtain rfl := blockTransfer_writes_unique s.tiled l s hc.1 hc'.1 hw hw'
    omega
  | copy l rsvd =>
    obtain ⟨j, -, rfl, rfl⟩ := (mem_byteMoves_copy ..).mp h
    obtain ⟨j', -, ha, rfl⟩ := (mem_byteMoves_copy ..).mp h'
    omega
  | swap l rsvd => exact ((mem_byteMoves_swap ..).mp h).2.trans ((mem_byteMoves_swap ..).mp h').2.symm
  | nop l rsvd | xlate l rsvd | reservedOp op l rsvd | rdreg r | wrreg r v => cases h

/-- A moved byte stands in the destination region. -/
theorem byteMoves_in_destination {i : Instr} {s : State} {a b : Nat} (h : (a, b) ∈ byteMoves i s) :
    holds (destinationOf i s) a = true := by
  have hin : s.dstBase.toNat ≤ a ∧ a < s.dstBase.toNat + s.dstLen.toNat → s.dstRegion.contains a = true :=
    (Region.contains_iff s.dstRegion a).mpr
  cases i with
  | detile l rsvd =>
    obtain ⟨c, -, hfits, j, hj, rfl, -⟩ := (mem_byteMoves_detile ..).mp h
    obtain ⟨-, hdst⟩ := (blockFits_iff ..).mp hfits
    exact hin (by omega)
  | copy l rsvd =>
    obtain ⟨j, hj, rfl, -⟩ := (mem_byteMoves_copy ..).mp h
    exact hin (by omega)
  | swap l rsvd =>
    obtain ⟨hpair, -⟩ := (mem_byteMoves_swap ..).mp h
    exact hin (by omega)
  | nop l rsvd | xlate l rsvd | reservedOp op l rsvd | rdreg r | wrreg r v => cases h

/-- A command whose checks pass leaves each byte it moves as its source byte was. -/
theorem CommandEffect.byte_moved {i : Instr} {s u : State} (hu : CommandEffect s i u) (hn : commandCheck i s = none)
    {a b : Nat} (h : (a, b) ∈ byteMoves i s) : u.mem.byte a = s.mem.byte b := by
  cases hu with
  | detile l rsvd =>
    obtain ⟨-, -, -, hapart⟩ := (commandCheck_detile_none_iff l rsvd s).mp hn
    obtain ⟨c, hc, hfits, j, hj, rfl, rfl⟩ := (mem_byteMoves_detile ..).mp h
    exact detile_byte_of_fits s.tiled l s hapart hc hfits hj
  | copy l rsvd =>
    obtain ⟨j, hj, rfl, rfl⟩ := (mem_byteMoves_copy ..).mp h
    have hbyte := Transfer.byte_apply_written s.mem (copyTransfer s) (s.dstBase.toNat + j)
      ⟨Nat.le_add_right _ _, Nat.add_lt_add_left hj _⟩
    rwa [copyTransfer, Nat.add_sub_cancel_left] at hbyte
  | swap l rsvd m hm =>
    obtain ⟨hpair, rfl⟩ := (mem_byteMoves_swap ..).mp h
    exact (hm a).trans (if_pos hpair)
  | nop l rsvd | xlate l rsvd => cases h

/-- A command leaves each byte that it does not move as it was. -/
theorem CommandEffect.byte_unmoved {i : Instr} {s u : State} (hu : CommandEffect s i u) {a : Nat}
    (h : ∀ b, (a, b) ∉ byteMoves i s) : u.mem.byte a = s.mem.byte a := by
  cases hu with
  | detile l rsvd =>
    refine foldl_apply_unwritten _ _ a fun t ht hw => ?_
    obtain ⟨c, hc, hfits, rfl⟩ := (mem_detileTransfers ..).mp ht
    obtain ⟨j, rfl⟩ := Nat.exists_eq_add_of_le hw.1
    exact h _ ((mem_byteMoves_detile ..).mpr ⟨c, hc, hfits, j, Nat.lt_of_add_lt_add_left hw.2, rfl, rfl⟩)
  | copy l rsvd =>
    refine Transfer.byte_apply_unwritten _ _ a fun hw => ?_
    obtain ⟨j, rfl⟩ := Nat.exists_eq_add_of_le hw.1
    exact h _ ((mem_byteMoves_copy ..).mpr ⟨j, Nat.lt_of_add_lt_add_left hw.2, rfl, rfl⟩)
  | swap l rsvd m hm => exact (hm a).trans (if_neg fun hpair => h _ ((mem_byteMoves_swap ..).mpr ⟨hpair, rfl⟩))
  | nop l rsvd | xlate l rsvd => rfl

/-! ### The operations with a destination, by their OP and L -/

theorem decodeCommand_detile {w : Word} (h : w.toNat % 16 = 2) :
    decodeCommand w = .detile (classField w) (rsvdField w) := by
  simp only [decodeCommand, opField_toNat, h]

theorem decodeCommand_copy {w : Word} (h : w.toNat % 16 = 3) : decodeCommand w = .copy (classField w) (rsvdField w) := by
  simp only [decodeCommand, opField_toNat, h]

theorem decodeCommand_swap {w : Word} (h : w.toNat % 16 = 4) : decodeCommand w = .swap (classField w) (rsvdField w) := by
  simp only [decodeCommand, opField_toNat, h]

/-- The size of a block by the L of its command word (R81, R83). -/
theorem bytesPerBlock_classField (w : Word) : bytesPerBlock (classField w) = 2 ^ (w.toNat / 16 % 16) := by
  rw [bytesPerBlock_eq_two_pow, classField_toNat]

theorem linearBlockOffset_classField (w : Word) (s : State) (x y : Nat) :
    linearBlockOffset (classField w) s (x, y) = (y * s.pitch.toNat + x) * 2 ^ (w.toNat / 16 % 16) := by
  rw [linearBlockOffset, bytesPerBlock_classField]

theorem tiledBlockOffset_classField (w : Word) (s : State) (x y : Nat) :
    tiledBlockOffset s.tiled (classField w) s (x, y) =
      (s.tiled (BitVec.ofNat 32 x) (BitVec.ofNat 32 y) s.pitch (w.toNat / 16 % 16)).toNat := by
  rw [tiledBlockOffset, classField_toNat]

theorem blockFits_classField (w : Word) (s : State) (x y : Nat) :
    blockFits s.tiled (classField w) s (x, y) = true ↔
      (s.tiled (BitVec.ofNat 32 x) (BitVec.ofNat 32 y) s.pitch (w.toNat / 16 % 16)).toNat + 2 ^ (w.toNat / 16 % 16) ≤
          s.srcLen.toNat ∧
        (y * s.pitch.toNat + x) * 2 ^ (w.toNat / 16 % 16) + 2 ^ (w.toNat / 16 % 16) ≤ s.dstLen.toNat := by
  rw [blockFits_iff, linearBlockOffset_classField, tiledBlockOffset_classField, bytesPerBlock_classField]

/-! ### The end of a flight with races -/

/-- The byte at `a` of the later state is a free value that was not drawn before the earlier one. -/
def FreedAt (s t : State) (a : Nat) : Prop := ∃ k, s.draws ≤ k ∧ t.mem.byte a = Config.freeByte k

/-- `t` is what the command `i` in flight in `s` leaves, with the races of its flight settled (R174, R305 H2). -/
def EndsFlight (i : Instr) (s t : State) : Prop :=
  i.isCommand = true ∧ ∃ c, exec i s = .next c ∧ t = settleRaces i s c

/-- The engine's turn with BUSY = 1 ends the flight of PENDING. -/
theorem step_endsFlight {s t : State} {w : Word} (hb : s.status.busy = true) (hp : s.pending = some w)
    (hi : s.inputs = [] ∨ ∃ rest, s.inputs = .engine :: rest) (h : step s = .next t) :
    ∃ rest, EndsFlight (decodeCommand w) (s.withInputs rest) t := by
  obtain ⟨rest, hi⟩ : ∃ rest, s.inputs = [] ∧ rest = [] ∨ s.inputs = .engine :: rest :=
    hi.elim (fun hi => ⟨[], .inl ⟨hi, rfl⟩⟩) fun ⟨rest, hi⟩ => ⟨rest, .inr hi⟩
  rw [step_of_engineTurn_busy hi hb hp] at h
  exact ⟨rest, decodeCommand_isCommand w, settle_next _ _ _ _ h⟩

section
variable {i : Instr} {s t : State} (h : EndsFlight i s t)
include h

/-- No race is remembered after the flight. -/
theorem EndsFlight.raced_nil : t.raced = [] := by
  obtain ⟨hc, c, hx, rfl⟩ := h
  obtain ⟨-, -, -, hraced, -⟩ := exec_command_frame i s c hc hx
  exact settleRaces_raced i s c hraced

/-- A command without a destination leaves BUF as it was, whatever the host wrote. -/
theorem EndsFlight.mem_of_no_destination (hd : destinationOf i s = none) : t.mem = s.mem := by
  obtain ⟨hc, c, hx, rfl⟩ := h
  rw [settleRaces_mem_of_no_destination i s c hd]
  exact (onlyTheDestinationRegionIsWritten i s c hc hx).2 hd

/-- A flight ends with DONE exactly when the command's checks pass (R253, R254). -/
theorem EndsFlight.done_iff (hs : s.status.done = false) : t.status.done = true ↔ commandCheck i s = none := by
  obtain ⟨hc, c, hx, rfl⟩ := h
  rw [settleRaces_status]
  rcases exec_command_cases i s c hc hx with ⟨e, he, rfl⟩ | ⟨hn, m, r, ri, k, rfl⟩
  · simp [he, hs]
  · simp [hn]

/-- A raced byte is freed. -/
theorem EndsFlight.freedAt {a : Nat} (ha : a ∈ racedBytes i s) : FreedAt s t a := by
  obtain ⟨hc, c, hx, rfl⟩ := h
  obtain ⟨k, hk, hbyte⟩ := (settleRaces_byte i s c a).2 ha
  obtain ⟨_, _, _, _, _, rfl, -⟩ := exec_command_changes i s c hc hx
  exact ⟨k, hk, hbyte⟩

/-- A byte that the command moves. -/
theorem EndsFlight.byte_moved (hn : commandCheck i s = none) {a b : Nat} (hmove : (a, b) ∈ byteMoves i s) :
    (a ∈ s.raced ∨ b ∈ s.raced → FreedAt s t a) ∧
      (a ∉ s.raced → b ∉ s.raced → t.mem.byte a = s.mem.byte b) := by
  refine ⟨fun hraced => h.freedAt ((mem_racedBytes ..).mpr (.inl ⟨hn, b, hmove, hraced⟩)), fun ha hb => ?_⟩
  have hunraced : a ∉ racedBytes i s := by
    intro hmem
    rcases (mem_racedBytes ..).mp hmem with ⟨-, b', hmove', hraced⟩ | ⟨hraced, -⟩
    · obtain rfl := byteMoves_source_unique hmove hmove'
      exact hraced.elim ha hb
    · exact ha hraced
  obtain ⟨hc, c, hx, rfl⟩ := h
  rw [(settleRaces_byte i s c a).1 hunraced]
  rcases exec_command_effect i s c hc hx with ⟨e, he, -⟩ | ⟨-, u, hu, rfl⟩
  · cases hn.symm.trans he
  · exact hu.byte_moved hn hmove

/-- A byte that the command does not move, because its checks fail or because it makes no byte there. -/
theorem EndsFlight.byte_unmoved {a : Nat} (hkept : commandCheck i s = none → ∀ b, (a, b) ∉ byteMoves i s) :
    (a ∈ s.raced → holds (destinationOf i s) a = true → FreedAt s t a) ∧
      (¬(a ∈ s.raced ∧ holds (destinationOf i s) a = true) → t.mem.byte a = s.mem.byte a) := by
  refine ⟨fun hraced hin => h.freedAt ((mem_racedBytes ..).mpr (.inr ⟨hraced, hin⟩)), fun hfree => ?_⟩
  have hunraced : a ∉ racedBytes i s := fun hmem =>
    ((mem_racedBytes ..).mp hmem).elim (fun ⟨hn, b, hmove, _⟩ => hkept hn b hmove) hfree
  obtain ⟨hc, c, hx, rfl⟩ := h
  rw [(settleRaces_byte i s c a).1 hunraced]
  rcases exec_command_effect i s c hc hx with ⟨e, -, rfl⟩ | ⟨hn, u, hu, rfl⟩
  · rfl
  · exact hu.byte_unmoved (hkept hn)

/-- Nothing is freed or moved outside the destination region. -/
theorem EndsFlight.byte_outside {a : Nat} (hout : ¬(s.dstBase.toNat ≤ a ∧ a < s.dstBase.toNat + s.dstLen.toNat)) :
    t.mem.byte a = s.mem.byte a := by
  have hholds : holds (destinationOf i s) a = false := by
    rcases destinationOf_cases i s with hd | hd <;> rw [hd]
    · rfl
    · exact (not_contains_iff s.dstRegion a).mpr hout
  refine (h.byte_unmoved fun _ b hmove => ?_).2 fun hin => ?_
  · cases (byteMoves_in_destination hmove).symm.trans hholds
  · cases hin.2.symm.trans hholds

/-- A byte of the destination that the command does not move. -/
theorem EndsFlight.byte_kept (hd : destinationOf i s = some s.dstRegion) {j : Nat} (hj : j < s.dstLen.toNat)
    (hkept : commandCheck i s = none → ∀ b, (s.dstBase.toNat + j, b) ∉ byteMoves i s) :
    (s.dstBase.toNat + j ∈ s.raced → FreedAt s t (s.dstBase.toNat + j)) ∧
      (s.dstBase.toNat + j ∉ s.raced → t.mem.byte (s.dstBase.toNat + j) = s.mem.byte (s.dstBase.toNat + j)) := by
  have hin : holds (destinationOf i s) (s.dstBase.toNat + j) = true := by
    rw [hd]
    exact (Region.contains_iff ..).mpr ⟨Nat.le_add_right _ _, Nat.add_lt_add_left hj _⟩
  obtain ⟨hfree, hsame⟩ := h.byte_unmoved hkept
  exact ⟨fun hraced => hfree hraced hin, fun hraced => hsame fun hr => hraced hr.1⟩

/-- A byte of the destination that is made of the byte at `b` where `p` holds, and is kept where it does not. -/
theorem EndsFlight.byte_moved_if (hn : commandCheck i s = none) (hd : destinationOf i s = some s.dstRegion) {j : Nat}
    (hj : j < s.dstLen.toNat) (p : Prop) [Decidable p] (b : Nat)
    (hmove : ∀ b', (s.dstBase.toNat + j, b') ∈ byteMoves i s ↔ p ∧ b' = b) :
    (s.dstBase.toNat + j ∈ s.raced ∨ (p ∧ b ∈ s.raced) → FreedAt s t (s.dstBase.toNat + j)) ∧
      (s.dstBase.toNat + j ∉ s.raced → ¬(p ∧ b ∈ s.raced) →
        t.mem.byte (s.dstBase.toNat + j) = if p then s.mem.byte b else s.mem.byte (s.dstBase.toNat + j)) := by
  by_cases hp : p
  · simpa only [hp, true_and, if_true] using h.byte_moved hn ((hmove b).mpr ⟨hp, rfl⟩)
  · have hkept := h.byte_kept hd hj fun _ b' hmem => hp ((hmove b').mp hmem).1
    simpa only [hp, false_and, or_false, if_false, not_false_eq_true, true_implies] using hkept

end

/-- COPY makes a byte within the common length of the byte as far into the source (R135). -/
theorem EndsFlight.copy {l : BitVec 4} {rsvd : BitVec 24} {s t : State} (h : EndsFlight (.copy l rsvd) s t)
    (hn : commandCheck (.copy l rsvd) s = none) {j : Nat} (hj : j < s.dstLen.toNat) :
    (s.dstBase.toNat + j ∈ s.raced ∨ (j < min s.srcLen.toNat s.dstLen.toNat ∧ s.srcBase.toNat + j ∈ s.raced) →
        FreedAt s t (s.dstBase.toNat + j)) ∧
      (s.dstBase.toNat + j ∉ s.raced → ¬(j < min s.srcLen.toNat s.dstLen.toNat ∧ s.srcBase.toNat + j ∈ s.raced) →
        t.mem.byte (s.dstBase.toNat + j) =
          if j < min s.srcLen.toNat s.dstLen.toNat then s.mem.byte (s.srcBase.toNat + j)
          else s.mem.byte (s.dstBase.toNat + j)) := by
  refine h.byte_moved_if hn rfl hj _ _ fun b => ?_
  rw [mem_byteMoves_copy]
  constructor
  · rintro ⟨j', hj', ha, rfl⟩
    omega
  · rintro ⟨hlt, rfl⟩
    exact ⟨j, hlt, rfl, rfl⟩

/-- SWAP makes a byte of a whole pair of the pair's other byte (R160). -/
theorem EndsFlight.swap {l : BitVec 4} {rsvd : BitVec 24} {s t : State} (h : EndsFlight (.swap l rsvd) s t)
    (hn : commandCheck (.swap l rsvd) s = none) {j : Nat} (hj : j < s.dstLen.toNat) :
    let paired := j < 2 * (s.dstLen.toNat / 2)
    let partner := if j % 2 = 0 then j + 1 else j - 1
    (s.dstBase.toNat + j ∈ s.raced ∨ (paired ∧ s.dstBase.toNat + partner ∈ s.raced) →
        FreedAt s t (s.dstBase.toNat + j)) ∧
      (s.dstBase.toNat + j ∉ s.raced → ¬(paired ∧ s.dstBase.toNat + partner ∈ s.raced) →
        t.mem.byte (s.dstBase.toNat + j) =
          if paired then s.mem.byte (s.dstBase.toNat + partner) else s.mem.byte (s.dstBase.toNat + j)) := by
  intro paired partner
  have hpartner : pairPartner s.dstBase.toNat (s.dstBase.toNat + j) = s.dstBase.toNat + partner := by
    simp only [pairPartner, partner]
    split <;> split <;> omega
  refine h.byte_moved_if hn rfl hj _ _ fun b => ?_
  rw [mem_byteMoves_swap, hpartner]
  simp [paired]

/-- A byte of a block that fits. -/
theorem EndsFlight.detile_block {l : BitVec 4} {rsvd : BitVec 24} {s t : State} (h : EndsFlight (.detile l rsvd) s t)
    (hn : commandCheck (.detile l rsvd) s = none) {c : Nat × Nat} (hc : c.1 < s.pitch.toNat ∧ c.2 < s.height.toNat)
    (hfits : blockFits s.tiled l s c = true) {j : Nat} (hj : j < bytesPerBlock l) :
    let a := s.dstBase.toNat + linearBlockOffset l s c + j
    let b := s.srcBase.toNat + tiledBlockOffset s.tiled l s c + j
    (a ∈ s.raced ∨ b ∈ s.raced → FreedAt s t a) ∧
      (a ∉ s.raced → b ∉ s.raced → t.mem.byte a = s.mem.byte b) :=
  h.byte_moved hn ((mem_byteMoves_detile ..).mpr ⟨c, hc, hfits, j, hj, rfl, rfl⟩)

/-- A byte of the destination in no block that fits. -/
theorem EndsFlight.detile_kept {l : BitVec 4} {rsvd : BitVec 24} {s t : State} (h : EndsFlight (.detile l rsvd) s t)
    {j : Nat} (hj : j < s.dstLen.toNat)
    (hout : ∀ c : Nat × Nat, c.1 < s.pitch.toNat ∧ c.2 < s.height.toNat → blockFits s.tiled l s c = true →
      ¬(linearBlockOffset l s c ≤ j ∧ j < linearBlockOffset l s c + bytesPerBlock l)) :
    (s.dstBase.toNat + j ∈ s.raced → FreedAt s t (s.dstBase.toNat + j)) ∧
      (s.dstBase.toNat + j ∉ s.raced → t.mem.byte (s.dstBase.toNat + j) = s.mem.byte (s.dstBase.toNat + j)) := by
  refine h.byte_kept rfl hj fun _ b hmem => ?_
  obtain ⟨c, hc, hfits, j', hj', ha, -⟩ := (mem_byteMoves_detile ..).mp hmem
  exact hout c hc hfits (by omega)

/-- Settles O55, by the command in flight and by whether it moves the byte. -/
theorem racedBytesAreFree : Obligations.RacedBytesAreFree := by
  intro s t w hb hd hp hi hstep op sb sl db dl free
  obtain ⟨rest, h⟩ := step_endsFlight hb hp hi hstep
  have hdone := h.done_iff hd
  have hdest := destinationOf_decodeCommand w (s.withInputs rest)
  refine ⟨h.raced_nil, fun h2 h3 h4 => ?_, fun a ha => h.byte_outside ha, fun hop hnot j hj => ?_, fun hop ht j hj => ?_,
    fun hop ht j hj => ?_, fun hop ht => ?_⟩
  · exact h.mem_of_no_destination (hdest.trans (if_neg fun hop => hop.elim h2 fun hop => hop.elim h3 h4))
  · exact h.byte_kept (hdest.trans (if_pos hop)) hj fun hn => absurd (hdone.mpr hn) (by simp [hnot])
  · have hn := hdone.mp ht
    rw [decodeCommand_copy hop] at h hn
    exact h.copy hn hj
  · have hn := hdone.mp ht
    rw [decodeCommand_swap hop] at h hn
    exact h.swap hn hj
  · have hn := hdone.mp ht
    rw [decodeCommand_detile hop] at h hn
    refine ⟨fun x y j ⟨hx, hy, hin⟩ hj => ?_, fun j hj hout => ?_⟩
    · have hblock := h.detile_block hn (c := (x, y)) ⟨hx, hy⟩ ((blockFits_classField ..).mpr hin)
        ((bytesPerBlock_classField w).symm ▸ hj)
      rwa [linearBlockOffset_classField, tiledBlockOffset_classField] at hblock
    · refine h.detile_kept hj fun ⟨x, y⟩ ⟨hx, hy⟩ hfits => ?_
      rw [linearBlockOffset_classField, bytesPerBlock_classField]
      exact hout x y ⟨hx, hy, (blockFits_classField ..).mp hfits⟩

end Sys2Proof.Machine
